-- ==== Sys2Proof/Word.lean ====
section
/-! DEFINITION. The values the block moves: register contents and masks, bytes, nibbles, display addresses. -/

namespace Sys2Proof

/-- A register value or a mask of the GPIO registers (00_scope.md R8). The width `REG_W` is an open parameter of
the configuration, so the value is a natural number whose bit `i` is register bit `i` (R16). The invariant
`State.Inv` keeps every register below `2 ^ REG_W`. DESIGN CHOICE, safe (log 3). -/
abbrev Word := Nat

/-- A byte of the bus, of the staged buffer, of the terminal stream. -/
abbrev Byte := BitVec 8

/-- "A 4-bit half of a byte transferred over the multiplexed bus" (00_scope.md, glossary). -/
abbrev Nibble := BitVec 4

/-- A DRAM address of the LCD, 7 bits (20_memory.md R60). -/
abbrev Addr := BitVec 7

/-- `a & ~b` at any width that holds `a` (00_scope.md R16): the bits of `a` that `b` does not have. -/
def andNot (a b : Word) : Word := a ^^^ (a &&& b)

end Sys2Proof
end

