-- ==== Sys2Proof/Config.lean ====
section
/-! DEFINITION. The parameters of an implementation (00_scope.md R8 to R14), the LCD's timing parameters they are
held against (70_reset_and_hazards.md R340), and the free value of the pins. What is derived from them
(masks, `TOTAL`, `POLL_COUNT`, which configurations are admitted) is in Machine/Params.lean. -/

namespace Sys2Proof

/-- The LCD's datasheet parameters that the right sides of R340 and R341 name, in nanoseconds. The spec supplies
names and values from general knowledge (93_implementation_defined.md G3 to G5): UNVERIFIED, log 14. -/
structure Datasheet where
  /-- `PW_EH`: enable pulse width high. -/
  pwEh : Nat
  /-- `t_DSW`: data setup before enable falls. -/
  tDsw : Nat
  /-- `t_H`: data hold after enable falls. -/
  tH : Nat
  /-- `t_AH`: select lines' hold after enable falls. -/
  tAh : Nat
  /-- `t_AS`: select lines' setup before enable rises (R341). -/
  tAs : Nat
  /-- `t_cycE`: enable cycle. -/
  tCycE : Nat
  /-- `t_DDR`: data delay on read, a maximum of the LCD. -/
  tDdr : Nat
  /-- From supply good to the first nibble. -/
  powerOnWait : Nat
  /-- After the first nibble 0x3. -/
  firstWait : Nat
  /-- After the second nibble 0x3. -/
  secondWait : Nat
  /-- One command time. -/
  commandTime : Nat
  /-- The longest command time (clear, home). -/
  longestCommand : Nat
deriving DecidableEq, Repr

/-- The configuration of the block: fixed before reset, changed by no operation (10_state.md). Durations are in
nanoseconds (log 17). -/
structure Config where
  /-- `REG_W` (R8). -/
  regW : Nat
  /-- `ADDR_DIR` (R8); no rule depends on it. -/
  addrDir : Nat
  /-- `ADDR_OUT` (R8); no rule depends on it. -/
  addrOut : Nat
  /-- `ADDR_IN` (R8); no rule depends on it. -/
  addrIn : Nat
  /-- The bit index of the one bit of `M_RS` (R9). -/
  rsPin : Nat
  /-- The bit index of the one bit of `M_RW` (R9). -/
  rwPin : Nat
  /-- The bit index of the one bit of `M_E` (R9). -/
  ePin : Nat
  /-- `DATA_SHIFT` (R9). -/
  dataShift : Nat
  /-- `N_LINES` (R10). -/
  nLines : Nat
  /-- `LINE_LEN` (R10). -/
  lineLen : Nat
  /-- `BASE[0 .. N_LINES - 1]` (R10). -/
  base : List Nat
  /-- `FS_LINES`, 1 or 2 (R10). -/
  fsLines : Nat
  /-- `FS_FONT` (R10). -/
  fsFont : Bool
  /-- `D_W_SETUP` (R12). -/
  dWSetup : Nat
  /-- `D_W_HOLD` (R12). -/
  dWHold : Nat
  /-- `D_CAP` (R12), may be 0. -/
  dCap : Nat
  /-- `D_W_REM` (R12). -/
  dWRem : Nat
  /-- `D_R_SETUP` (R12). -/
  dRSetup : Nat
  /-- `D_R_HOLD` (R12). -/
  dRHold : Nat
  /-- `D_R_REM` (R12). -/
  dRRem : Nat
  /-- `D_POLL` (R12). -/
  dPoll : Nat
  /-- `T_BUSY_MAX` (R12). -/
  tBusyMax : Nat
  /-- `D_PWR` (R12). -/
  dPwr : Nat
  /-- `D_INIT1` (R12). -/
  dInit1 : Nat
  /-- `D_INIT2` (R12). -/
  dInit2 : Nat
  /-- `D_INIT3` (R12). -/
  dInit3 : Nat
  /-- `MARGIN` (R12): already included in each delay; informative. -/
  margin : Nat
  /-- `T_PINOP` (R341): the duration of one PinBank operation; used only by `Config.AddressSetupOk`. -/
  tPinop : Nat
  /-- `SPLASH` (R14). -/
  splash : List Byte
  /-- `BUF_SIZE` (R14). -/
  bufSize : Nat
  /-- The right sides of R340. -/
  lcd : Datasheet
deriving DecidableEq, Repr

/-- The datasheet column of R340 at a supply of 4.5 to 5.5 V; `t_AS` is R341's. UNVERIFIED (log 14). -/
def Datasheet.at5V : Datasheet :=
  { pwEh := 230, tDsw := 80, tH := 10, tAh := 10, tAs := 40, tCycE := 500, tDdr := 160,
    powerOnWait := 15000000, firstWait := 4100000, secondWait := 100000, commandTime := 37000,
    longestCommand := 1520000 }

/-- The datasheet column of R340 at a supply of 2.7 to 4.5 V (the values in brackets). UNVERIFIED (log 14). -/
def Datasheet.at3V : Datasheet :=
  { Datasheet.at5V with pwEh := 450, tDsw := 195, tAh := 20, tAs := 60, tCycE := 1000, tDdr := 360,
                        powerOnWait := 40000000 }

/-- EX1 of 00_scope.md R15, with the default geometry of R10. R15 leaves every delay but `D_POLL` and `T_BUSY_MAX`
symbolic, and no rule gives the register addresses: the numbers here are a DESIGN CHOICE (log 2) that meets R340
for both datasheet columns. -/
def Config.ex1 : Config :=
  { regW := 32, addrDir := 0, addrOut := 4, addrIn := 8,
    rsPin := 4, rwPin := 5, ePin := 6, dataShift := 0,
    nLines := 4, lineLen := 16, base := [0x00, 0x40, 0x10, 0x50], fsLines := 2, fsFont := false,
    dWSetup := 400, dWHold := 400, dCap := 0, dWRem := 400,
    dRSetup := 400, dRHold := 400, dRRem := 400,
    dPoll := 1000000, tBusyMax := 10000000,
    dPwr := 50000000, dInit1 := 5000000, dInit2 := 200000, dInit3 := 50000,
    margin := 0, tPinop := 100, splash := [], bufSize := 256, lcd := Datasheet.at5V }

/-- EX2 of 00_scope.md R15: EX1 with two lines. -/
def Config.ex2 : Config := { Config.ex1 with nLines := 2, base := [0x00, 0x40] }

/-- The level of the pins at the `k`-th sample, when the environment has supplied no answer: a free value, "chosen
by the environment and the LCD, not by the block" (00_scope.md R23, 20_memory.md R67). Nothing is known of it
(log 5). -/
opaque Config.freeSample : Nat → Word

end Sys2Proof
end

