-- ==== Sys2Proof/Syntax.lean ====
section
/-! DEFINITION. The twenty-four operations of 30_encoding.md R93, their operands (R92), mnemonics and assembler text
(R102), and the pseudo-operations (R103). -/

namespace Sys2Proof

/-- Register-select: which side of the LCD a transfer addresses (R92, R102: `cmd` is 0, `data` is 1). -/
inductive RegSel where
  | cmd
  | data
deriving DecidableEq, Repr

/-- `mode` of GOTO_XY and `whence` of SEEK (R92). The fourth code, 3, is reserved and is no operand (R94). -/
inductive Mode where
  /-- 0: absolute. -/
  | abs
  /-- 1: relative. -/
  | rel
  /-- 2: from-end, "explicitly unsupported and always fails". -/
  | fromEnd
deriving DecidableEq, Repr

/-- One operation of the block, one constructor per row of spec/opcode_table.json. Operands that the pseudocode
treats as integers are integers (R92: "Inside the pseudocode all operands are mathematical integers"); their
encodable ranges are in WellFormed.lean. -/
inductive Instr where
  | wrNib (rs : RegSel) (n : Nibble)
  | rdNib (rs : RegSel)
  | wrByte (rs : RegSel) (b : Byte)
  | rdByte (rs : RegSel)
  | waitReady
  | functionSet (lines : Nat) (font : Bool)
  | displayControl (d c b : Bool)
  | clear
  | home
  | entryMode (dir shift : Bool)
  | setAddress (a : Addr)
  | advance
  | retreat
  | getXy
  | gotoXy (x y : Int) (mode : Mode)
  | putChar (b : Byte)
  | putString (len : Nat)
  | termByte (b : Byte)
  | startup
  | shutdown
  | openSession
  | closeSession
  | write (len : Nat)
  | seek (offset : Int) (whence : Mode)
deriving DecidableEq, Repr

/-- The mnemonic of R93. -/
def Instr.mnemonic : Instr → String
  | .wrNib _ _ => "WR_NIB"
  | .rdNib _ => "RD_NIB"
  | .wrByte _ _ => "WR_BYTE"
  | .rdByte _ => "RD_BYTE"
  | .waitReady => "WAIT_READY"
  | .functionSet _ _ => "FUNCTION_SET"
  | .displayControl _ _ _ => "DISPLAY_CONTROL"
  | .clear => "CLEAR"
  | .home => "HOME"
  | .entryMode _ _ => "ENTRY_MODE"
  | .setAddress _ => "SET_ADDRESS"
  | .advance => "ADVANCE"
  | .retreat => "RETREAT"
  | .getXy => "GET_XY"
  | .gotoXy _ _ _ => "GOTO_XY"
  | .putChar _ => "PUT_CHAR"
  | .putString _ => "PUT_STRING"
  | .termByte _ => "TERM_BYTE"
  | .startup => "STARTUP"
  | .shutdown => "SHUTDOWN"
  | .openSession => "OPEN"
  | .closeSession => "CLOSE"
  | .write _ => "WRITE"
  | .seek _ _ => "SEEK"

/-- `rs` as R102 writes it. -/
def RegSel.asm : RegSel → String
  | .cmd => "cmd"
  | .data => "data"

/-- `mode` and `whence` as R102 writes them. -/
def Mode.asm : Mode → String
  | .abs => "abs"
  | .rel => "rel"
  | .fromEnd => "end"

/-- A one-bit operand as R102 writes it. -/
def bitAsm (b : Bool) : String := if b then "1" else "0"

/-- The operands in R102's order; the string operand of PUT_STRING and WRITE is shown by its length, since its bytes
are in the staged buffer. -/
def Instr.operandsAsm : Instr → List String
  | .wrNib rs n => [rs.asm, toString n.toNat]
  | .rdNib rs => [rs.asm]
  | .wrByte rs b => [rs.asm, toString b.toNat]
  | .rdByte rs => [rs.asm]
  | .functionSet lines font => [toString lines, bitAsm font]
  | .displayControl d c b => [bitAsm d, bitAsm c, bitAsm b]
  | .entryMode dir shift => [bitAsm dir, bitAsm shift]
  | .setAddress a => [toString a.toNat]
  | .gotoXy x y mode => [toString x, toString y, mode.asm]
  | .putChar b => [toString b.toNat]
  | .putString len => [toString len]
  | .termByte b => [toString b.toNat]
  | .write len => [toString len]
  | .seek offset whence => [toString offset, whence.asm]
  | .waitReady | .clear | .home | .advance | .retreat | .getXy => []
  | .startup | .shutdown | .openSession | .closeSession => []

/-- The assembler text of an operation: mnemonic, then operands separated by commas (R102). -/
def Instr.asm (i : Instr) : String :=
  match i.operandsAsm with
  | [] => i.mnemonic
  | ops => i.mnemonic ++ " " ++ String.intercalate ", " ops

/-! The pseudo-operations of R103, each an abbreviation of one operation. -/

/-- `STATUS` = `RD_BYTE cmd`. -/
abbrev Instr.status : Instr := .rdByte .cmd

/-- `LOCATE x, y` = `GOTO_XY x, y, abs`. -/
abbrev Instr.locate (x y : Int) : Instr := .gotoXy x y .abs

/-- `MOVE dx, dy` = `GOTO_XY dx, dy, rel`. -/
abbrev Instr.move (dx dy : Int) : Instr := .gotoXy dx dy .rel

/-- `PUT "c"` for a one-character string = `PUT_CHAR 'c'`. -/
abbrev Instr.put (c : Byte) : Instr := .putChar c

end Sys2Proof
end

