-- ==== Sys2Proof/WellFormed.lean ====
section
/-! DEFINITION. Which operations have a command word: every operand is in the range its field encodes
(30_encoding.md R92). -/

namespace Sys2Proof

/-- `v` is a signed value of `bits` bits (two's complement range, R92). -/
def inSigned (bits : Nat) (v : Int) : Bool := decide (-(2 ^ (bits - 1)) ≤ v ∧ v < 2 ^ (bits - 1))

/-- The operands fit their fields: `lines` is 1 or 2 (R102: `f1 = lines - 1`), `x` and `y` are in -128..127, `offset`
is in -32768..32767, `len` is in 0..65535 (R92). The other operands' types hold exactly the encodable values. -/
def Instr.wellFormed : Instr → Bool
  | .functionSet lines _ => lines == 1 || lines == 2
  | .gotoXy x y _ => inSigned 8 x && inSigned 8 y
  | .putString len => decide (len < 65536)
  | .write len => decide (len < 65536)
  | .seek offset _ => inSigned 16 offset
  | .wrNib _ _ | .rdNib _ | .wrByte _ _ | .rdByte _ | .waitReady => true
  | .displayControl _ _ _ | .clear | .home | .entryMode _ _ | .setAddress _ => true
  | .advance | .retreat | .getXy | .putChar _ | .termByte _ => true
  | .startup | .shutdown | .openSession | .closeSession => true

end Sys2Proof
end

