-- ==== Sys2Proof/Decode.lean ====
section
/-! DEFINITION. The command word (30_encoding.md R90 to R94): the decoder, total on 32-bit words and rejecting by
name, and the encoder, from the same tables. -/

namespace Sys2Proof

/-- Why a command word is illegal (R94). All three are answered ERR_ILLEGAL. -/
inductive DecodeError where
  /-- (a) `cmd[31:24]` is not one of the twenty-four opcodes. -/
  | unknownOpcode
  /-- (b) a bit that the format marks reserved is 1. -/
  | reservedBit
  /-- (c) GOTO_XY or SEEK with `mode` or `whence` = 3. -/
  | reservedMode
deriving DecidableEq, Repr

/-- The eleven formats of R91. -/
inductive Format where
  | z | r | rn | rb | b | a | f2 | f3 | xy | s | l
deriving DecidableEq, Repr

/-- The slice `w[hi:lo]` as an unsigned integer (00_scope.md R16). -/
def slice (w hi lo : Nat) : Nat := w / 2 ^ lo % 2 ^ (hi - lo + 1)

/-- The slices of bits 23..0 that a format leaves reserved (R91: "all other bits below bit 24 are reserved, must be
zero"). -/
def Format.reserved : Format → List (Nat × Nat)
  | .z => [(23, 0)]
  | .r => [(23, 17), (15, 0)]
  | .rn => [(23, 17), (15, 4)]
  | .rb => [(23, 17), (15, 8)]
  | .b => [(23, 8)]
  | .a => [(23, 7)]
  | .f2 => [(23, 2)]
  | .f3 => [(23, 3)]
  | .xy => [(23, 18)]
  | .s => [(23, 18)]
  | .l => [(23, 16)]

/-- All reserved bits of the format are zero. -/
def Format.clean (f : Format) (w : Nat) : Bool := f.reserved.all fun r => slice w r.1 r.2 == 0

/-- `sext_N` of an `n`-bit field (R16, R92). -/
def sext (bits v : Nat) : Int := if v < 2 ^ (bits - 1) then (v : Int) else (v : Int) - 2 ^ bits

/-- `rs = cmd[16]` (R92). -/
def regSelOf (w : Nat) : RegSel := if slice w 16 16 = 0 then .cmd else .data

/-- One bit of the word as a flag. -/
def flagOf (w k : Nat) : Bool := slice w k k != 0

/-- `mode` or `whence` = `cmd[17:16]` (R92). -/
def modeOf (w : Nat) : Except DecodeError Mode :=
  match slice w 17 16 with
  | 0 => .ok .abs
  | 1 => .ok .rel
  | 2 => .ok .fromEnd
  | _ => .error .reservedMode

/-- The operation, if the format's reserved bits are zero. -/
def checked (f : Format) (w : Nat) (i : Instr) : Except DecodeError Instr :=
  if f.clean w then .ok i else .error .reservedBit

/-- The operation of a format with a mode field, if reserved bits are zero and the mode is not reserved. -/
def checkedMode (f : Format) (w : Nat) (i : Mode → Instr) : Except DecodeError Instr :=
  if f.clean w then (modeOf w).map i else .error .reservedBit

/-- The decoder on the word's number: the opcode map of R93, the formats of R91, the operands of R92. -/
def decodeNat (w : Nat) : Except DecodeError Instr :=
  match slice w 31 24 with
  | 0x10 => checked .rn w (.wrNib (regSelOf w) (BitVec.ofNat 4 (slice w 3 0)))
  | 0x11 => checked .r w (.rdNib (regSelOf w))
  | 0x12 => checked .rb w (.wrByte (regSelOf w) (BitVec.ofNat 8 (slice w 7 0)))
  | 0x13 => checked .r w (.rdByte (regSelOf w))
  | 0x14 => checked .z w .waitReady
  | 0x20 => checked .f2 w (.functionSet (slice w 1 1 + 1) (flagOf w 0))
  | 0x21 => checked .f3 w (.displayControl (flagOf w 2) (flagOf w 1) (flagOf w 0))
  | 0x22 => checked .z w .clear
  | 0x23 => checked .z w .home
  | 0x24 => checked .f2 w (.entryMode (flagOf w 1) (flagOf w 0))
  | 0x25 => checked .a w (.setAddress (BitVec.ofNat 7 (slice w 6 0)))
  | 0x30 => checked .z w .advance
  | 0x31 => checked .z w .retreat
  | 0x32 => checked .z w .getXy
  | 0x33 => checkedMode .xy w (.gotoXy (sext 8 (slice w 15 8)) (sext 8 (slice w 7 0)))
  | 0x34 => checked .b w (.putChar (BitVec.ofNat 8 (slice w 7 0)))
  | 0x35 => checked .l w (.putString (slice w 15 0))
  | 0x40 => checked .b w (.termByte (BitVec.ofNat 8 (slice w 7 0)))
  | 0x50 => checked .z w .startup
  | 0x51 => checked .z w .shutdown
  | 0x52 => checked .z w .openSession
  | 0x53 => checked .z w .closeSession
  | 0x54 => checked .l w (.write (slice w 15 0))
  | 0x55 => checkedMode .s w (.seek (sext 16 (slice w 15 0)))
  | _ => .error .unknownOpcode

/-- The decoder: "every command word" of 32 bits either names one operation or is illegal (R94). -/
def decode (w : BitVec 32) : Except DecodeError Instr := decodeNat w.toNat

/-! ### The encoder -/

/-- The opcode of R93. -/
def Instr.opcode : Instr → Nat
  | .wrNib _ _ => 0x10
  | .rdNib _ => 0x11
  | .wrByte _ _ => 0x12
  | .rdByte _ => 0x13
  | .waitReady => 0x14
  | .functionSet _ _ => 0x20
  | .displayControl _ _ _ => 0x21
  | .clear => 0x22
  | .home => 0x23
  | .entryMode _ _ => 0x24
  | .setAddress _ => 0x25
  | .advance => 0x30
  | .retreat => 0x31
  | .getXy => 0x32
  | .gotoXy _ _ _ => 0x33
  | .putChar _ => 0x34
  | .putString _ => 0x35
  | .termByte _ => 0x40
  | .startup => 0x50
  | .shutdown => 0x51
  | .openSession => 0x52
  | .closeSession => 0x53
  | .write _ => 0x54
  | .seek _ _ => 0x55

/-- `rs` in its field (R92). -/
def RegSel.code : RegSel → Nat
  | .cmd => 0
  | .data => 1

/-- `mode` and `whence` in their field (R92). -/
def Mode.code : Mode → Nat
  | .abs => 0
  | .rel => 1
  | .fromEnd => 2

/-- A signed value in a field of `bits` bits, two's complement (R92). -/
def signedField (bits : Nat) (v : Int) : Nat := (v % 2 ^ bits).toNat

/-- The two-bit field `cmd[17:16]` (R90): `rs` in its low bit, or the mode. -/
def Instr.midField : Instr → Nat
  | .wrNib rs _ | .rdNib rs | .wrByte rs _ | .rdByte rs => rs.code
  | .gotoXy _ _ mode => mode.code
  | .seek _ whence => whence.code
  | _ => 0

/-- The operand area `cmd[15:0]` (R91, R92). -/
def Instr.operandArea : Instr → Nat
  | .wrNib _ n => n.toNat
  | .wrByte _ b | .putChar b | .termByte b => b.toNat
  | .functionSet lines font => (lines - 1) * 2 + font.toNat
  | .displayControl d c b => d.toNat * 4 + c.toNat * 2 + b.toNat
  | .entryMode dir shift => dir.toNat * 2 + shift.toNat
  | .setAddress a => a.toNat
  | .gotoXy x y _ => signedField 8 x * 2 ^ 8 + signedField 8 y
  | .putString len | .write len => len
  | .seek offset _ => signedField 16 offset
  | _ => 0

/-- The command word of an operation as a number: opcode, reserved zeros, middle field, operand area (R90). -/
def encodeNat (i : Instr) : Nat := i.opcode * 2 ^ 24 + i.midField * 2 ^ 16 + i.operandArea

/-- The encoder: the command word of a well-formed operation. -/
def encode (i : Instr) : BitVec 32 := BitVec.ofNat 32 (encodeNat i)

/-! ### The host's reading of the table -/

/-- The operation the decoder reads from an instruction whose bits are `w`, numbered as spec/opcode_table.json numbers
them. A command word is one 32-bit value handed over whole (R90), so no byte order enters (log 16). -/
def decodeTableWord (nbits w : Nat) : Option Instr :=
  match decode (BitVec.ofNat 32 (w % 2 ^ nbits)) with
  | .ok i => some i
  | .error _ => none

end Sys2Proof
end

