-- ==== Sys2Proof/Machine/State.lean ====
section
/-! DEFINITION. The machine's state as plain data: the block's registers, mirror, front-end state and flags
(10_state.md), the staged buffer (20_memory.md R70), the trace (00_scope.md R21), the response (30_encoding.md R96),
the configuration, and the inputs from outside. Reset (10_state.md R44). -/

namespace Sys2Proof.Machine

/-! ### The staged buffer -/

/-- The staged buffer `BUF`: address and byte pairs, addresses strictly rising, no byte equal to `Memory.unlisted`. -/
abbrev Memory := List Host.Cell

/-- What a byte of `BUF` that the host has not filled reads as. The spec gives no value: DESIGN CHOICE 0x00, unsafe
(log 9). -/
def Memory.unlisted : Byte := 0x00

/-- The canonical form. -/
abbrev Memory.wf (m : Memory) : Prop :=
  m.Pairwise (fun c d => c.1 < d.1) ∧ ∀ c ∈ m, c.2 ≠ Memory.unlisted

/-! ### The fields' types -/

/-- `LIFE` (10_state.md R38). -/
inductive Life where
  | down
  | ready
deriving DecidableEq, Repr

/-- `PARSE_MODE` (10_state.md R36). -/
inductive ParseMode where
  | normal
  | escapePending
deriving DecidableEq, Repr

/-- `SEQ`, the sequencer's position (10_state.md R31): idle, or inside an operation. -/
inductive Seq where
  | idle
  | running
deriving DecidableEq, Repr

/-- The three GPIO registers (10_state.md R32), as `RegRead` names them (00_scope.md R22). -/
inductive Reg where
  | dir
  | out
  | inp
deriving DecidableEq, Repr

/-- The registers that `RegWrite` can name: "`IN` is never written" (00_scope.md R22). -/
inductive WritableReg where
  | dir
  | out
deriving DecidableEq, Repr

/-- The names of the delays (00_scope.md R12). -/
inductive DelayName where
  | wSetup
  | wHold
  | cap
  | wRem
  | rSetup
  | rHold
  | rRem
  | poll
  | pwr
  | init1
  | init2
  | init3
deriving DecidableEq, Repr

/-- The log events (00_scope.md R25). -/
inductive LogEvent where
  | timeout
  | unknownEsc (b : Byte)
  | assertOow (p : Addr)
deriving DecidableEq, Repr

/-- An event of the trace (00_scope.md R21). -/
inductive Event where
  | set (setMask clearMask : Word)
  | get (readMask value : Word)
  | delay (d : DelayName)
  | log (e : LogEvent)
deriving DecidableEq, Repr

/-- The response codes an operation can return (60_exceptions.md R290): code 5 and codes 8 to 15 "are never
returned". -/
inductive Code where
  | ok
  | errUnavail
  | errBusy
  | errInval
  | errFault
  | errState
  | errIllegal
deriving DecidableEq, Repr

/-- A response: a code and a 32-bit value (30_encoding.md R96). -/
structure Response where
  code : Code
  value : BitVec 32
deriving DecidableEq, Repr

/-- What the host hands over for one operation: the command word (30_encoding.md R90), the bytes it stores to
`BUF[0..]` before issuing it (45_host.md R268), and the environment's answers for that operation (00_scope.md R23). -/
structure Request where
  word : BitVec 32
  data : List Byte
  reserveOk : Bool
  bufOk : Bool
deriving DecidableEq, Repr

/-- The levels that other consumers of the GPIO registers want on their own bits of `OUT` and `DIR` (10_state.md R32;
log 7). -/
structure ForeignWrite where
  out : Word
  dir : Word
deriving DecidableEq, Repr

/-! ### Why a step can stop -/

/-- A fault stops the machine. The block has no trap and nothing in the spec stops it (60_exceptions.md R302): an error
is a response, so this type has no constructor. -/
inductive Fault where
deriving DecidableEq, Repr

/-- Why a step gives no meaning. -/
inductive Refusal where
  /-- Raised by an arm of `exec` for an operation without a meaning. No arm does. Safe. -/
  | notModelled (mnemonic : String)
  /-- Raised by `step` when the configuration is not admitted: "a model refuses any other configuration (it gives it no
  meaning)" (00_scope.md R11; 93_implementation_defined.md U8, U10). Safe (log 11). -/
  | configNotAdmitted
  /-- Raised by `step` when the sequencer is still inside an operation: "Issuing an operation before the previous
  response" (45_host.md R268; 93_implementation_defined.md U14: `refuse`). No step leaves such a state. Safe
  (log 12). -/
  | commandWhileRunning
deriving DecidableEq, Repr

/-! ### The state -/

structure State where
  /-- The configuration: fixed before reset, changed by nothing (10_state.md; log 2). -/
  cfg : Config
  /-- `DIR` (R32): bit i = 1 makes pin i an output. -/
  dir : Word
  /-- `OUT` (R32): the level driven on pin i while it is an output. -/
  out : Word
  /-- `IN` (R32): the level of the pins when `IN` was last read. -/
  inReg : Word
  /-- `CURSOR` (R33). -/
  cursor : Addr
  /-- `DISPLAY_ON` (R34). -/
  displayOn : Bool
  /-- `CURSOR_VISIBLE` (R34). -/
  cursorVisible : Bool
  /-- `BLINK_ON` (R34). -/
  blinkOn : Bool
  /-- `PARSE_MODE` (R36). -/
  parseMode : ParseMode
  /-- `SESSION` (R37). -/
  session : Bool
  /-- `LIFE` (R38). -/
  life : Life
  /-- `TIMEOUT_SEEN` (R39). -/
  timeoutSeen : Bool
  /-- `ASSERT_OOW` (R39). -/
  assertOow : Bool
  /-- `SEQ` (R31). -/
  seq : Seq
  /-- INPUT: `BUF` as staged for the operation last taken; the next request replaces all of it (10_state.md R41,
  20_memory.md R70; log 9). -/
  buf : Memory
  /-- The trace (00_scope.md R21), oldest event first. -/
  trace : List Event
  /-- The response of the last operation answered (30_encoding.md R96). -/
  response : Option Response
  /-- INPUT: the host's requests not yet issued (45_host.md R268; log 8). -/
  requests : List Request
  /-- INPUT: the environment's `reserve_ok` for this operation (00_scope.md R23; log 6). -/
  reserveOk : Bool
  /-- INPUT: the environment's `buf_ok` for this operation (00_scope.md R23; log 6). -/
  bufOk : Bool
  /-- INPUT: the levels the next samples will show, as far as supplied (20_memory.md R67; log 5). -/
  samples : List Word
  /-- The MODEL's counter of samples taken, which `Config.freeSample` is applied to (log 5). -/
  sampleCount : Nat
  /-- INPUT: what other consumers write before each of the next PinBank operations (20_memory.md R64; log 7). -/
  foreign : List (Option ForeignWrite)
deriving DecidableEq, Repr

/-- The block before its first STARTUP, in configuration `c` (10_state.md R44). `DIR`, `OUT` and `IN` are
"unspecified": DESIGN CHOICE 0 (log 4). The inputs are empty and the environment's answers 1: DESIGN CHOICE
(logs 5 to 8). -/
def State.resetIn (c : Config) : State :=
  { cfg := c, dir := 0, out := 0, inReg := 0,
    cursor := 0x00, displayOn := false, cursorVisible := false, blinkOn := false,
    parseMode := .normal, session := false, life := .down,
    timeoutSeen := false, assertOow := false, seq := .idle,
    buf := [], trace := [], response := none,
    requests := [], reserveOk := true, bufOk := true,
    samples := [], sampleCount := 0, foreign := [] }

/-- The machine right after reset, in the example configuration EX1 (log 2). -/
def State.reset : State := State.resetIn Config.ex1

end Sys2Proof.Machine
end

