-- ==== Sys2Proof/Machine/Params.lean ====
section
/-! DEFINITION. What follows from the parameters: masks and totals (00_scope.md R9, R10), the poll bound (R12), the
durations of the named delays, and which configurations are admitted (R9 to R14, 70_reset_and_hazards.md R340). -/

namespace Sys2Proof

open Sys2Proof.Machine

/-- `M_RS` (R9). -/
def Config.mRs (c : Config) : Word := 2 ^ c.rsPin

/-- `M_RW` (R9). -/
def Config.mRw (c : Config) : Word := 2 ^ c.rwPin

/-- `M_E` (R9). -/
def Config.mE (c : Config) : Word := 2 ^ c.ePin

/-- `M_DATA = 0xF << DATA_SHIFT` (R9). -/
def Config.mData (c : Config) : Word := 0xF <<< c.dataShift

/-- The seven bits in use, `M_RS | M_RW | M_E | M_DATA` (10_state.md R32). -/
def Config.mUsed (c : Config) : Word := c.mRs ||| c.mRw ||| c.mE ||| c.mData

/-- `TOTAL = N_LINES * LINE_LEN` (R10). -/
def Config.total (c : Config) : Nat := c.nLines * c.lineLen

/-- `BASE[l]` (R10). -/
def Config.baseOf (c : Config) (l : Nat) : Nat := c.base.getD l 0

/-- `PUT_STRING_MAX = 4 * LINE_LEN` (R13). -/
def Config.putStringMax (c : Config) : Nat := 4 * c.lineLen

/-- `POLL_COUNT = ceil(T_BUSY_MAX / D_POLL)` (R12). -/
def Config.pollCount (c : Config) : Nat := (c.tBusyMax + c.dPoll - 1) / c.dPoll

/-- The duration of a named delay, a lower bound on the time it takes (R12, R24). -/
def Config.duration (c : Config) : DelayName → Nat
  | .wSetup => c.dWSetup
  | .wHold => c.dWHold
  | .cap => c.dCap
  | .wRem => c.dWRem
  | .rSetup => c.dRSetup
  | .rHold => c.dRHold
  | .rRem => c.dRRem
  | .poll => c.dPoll
  | .pwr => c.dPwr
  | .init1 => c.dInit1
  | .init2 => c.dInit2
  | .init3 => c.dInit3

/-! ### Which configurations are admitted -/

/-- R8, R9: seven distinct pins inside the register. -/
abbrev Config.PinsOk (c : Config) : Prop :=
  (c.rsPin < c.regW ∧ c.rwPin < c.regW ∧ c.ePin < c.regW ∧ c.dataShift + 3 < c.regW) ∧
  (c.rsPin ≠ c.rwPin ∧ c.rsPin ≠ c.ePin ∧ c.rwPin ≠ c.ePin) ∧
  (c.rsPin < c.dataShift ∨ c.dataShift + 3 < c.rsPin) ∧
  (c.rwPin < c.dataShift ∨ c.dataShift + 3 < c.rwPin) ∧
  (c.ePin < c.dataShift ∨ c.dataShift + 3 < c.ePin)

/-- WF1 (R11), with one base per line (R10). -/
abbrev Config.WF1 (c : Config) : Prop :=
  1 ≤ c.nLines ∧ c.nLines ≤ 4 ∧ 1 ≤ c.lineLen ∧ c.base.length = c.nLines

/-- WF2 (R11): "every window lies inside `0x00..0x7F`". -/
abbrev Config.WF2 (c : Config) : Prop := ∀ b ∈ c.base, b + c.lineLen ≤ 0x80

/-- WF3 (R11): "the windows of different lines are pairwise disjoint". -/
abbrev Config.WF3 (c : Config) : Prop :=
  c.base.Pairwise fun b b' => b + c.lineLen ≤ b' ∨ b' + c.lineLen ≤ b

/-- WF4 (R11): `BASE[0] = 0x00`. -/
abbrev Config.WF4 (c : Config) : Prop := c.baseOf 0 = 0x00

/-- WF5 (R11): `BASE[l] mod LINE_LEN = 0` for every line. -/
abbrev Config.WF5 (c : Config) : Prop := ∀ b ∈ c.base, b % c.lineLen = 0

/-- R11: WF1 to WF5. -/
abbrev Config.GeometryOk (c : Config) : Prop := c.WF1 ∧ c.WF2 ∧ c.WF3 ∧ c.WF4 ∧ c.WF5

/-- R340: "the sum of the explicit waits in sequence must be ≥ each corresponding datasheet minimum", row by row, and
the poll loop makes progress in time. -/
abbrev Config.TimingOk (c : Config) : Prop :=
  (c.dWSetup + c.dWHold + c.dCap ≥ c.lcd.pwEh ∧
   c.dWHold + c.dCap ≥ c.lcd.tDsw ∧
   c.dWRem ≥ c.lcd.tH ∧ c.dWRem ≥ c.lcd.tAh ∧
   c.dWSetup + c.dWHold + c.dCap + c.dWRem ≥ c.lcd.tCycE) ∧
  (c.dRSetup ≥ c.lcd.tDdr ∧
   c.dRSetup + c.dRHold ≥ c.lcd.pwEh ∧
   c.dRRem ≥ c.lcd.tAh ∧
   c.dRSetup + c.dRHold + c.dRRem ≥ c.lcd.tCycE) ∧
  (c.dPwr ≥ c.lcd.powerOnWait ∧ c.dInit1 ≥ c.lcd.firstWait ∧
   c.dInit2 ≥ c.lcd.secondWait ∧ c.dInit3 ≥ c.lcd.commandTime) ∧
  c.tBusyMax ≥ c.lcd.longestCommand ∧ c.dPoll > 0 ∧ c.pollCount ≥ 1

/-- R341: what a platform must grant besides, `T_PINOP >= t_AS`. The block adds no delay for it and no rule asks a
configuration for it, so nothing checks it. -/
abbrev Config.AddressSetupOk (c : Config) : Prop := c.tPinop ≥ c.lcd.tAs

/-- R10 (`FS_LINES` in {1, 2}) and R14 (`BUF_SIZE` at most 65535). -/
abbrev Config.RangesOk (c : Config) : Prop :=
  (c.fsLines = 1 ∨ c.fsLines = 2) ∧ c.bufSize ≤ 65535

/-- The configurations the spec gives a meaning: the pin conditions of R9, WF1 to WF5, the ranges of R10 and R14, the
delay inequalities of R340 (70_reset_and_hazards.md R331 (1)). -/
abbrev Config.Admitted (c : Config) : Prop :=
  c.PinsOk ∧ c.GeometryOk ∧ c.RangesOk ∧ c.TimingOk

end Sys2Proof

namespace Sys2Proof.Machine

/-- The number of a response code, 4 bits (60_exceptions.md R290). -/
def Code.bits : Code → BitVec 4
  | .ok => 0
  | .errUnavail => 1
  | .errBusy => 2
  | .errInval => 3
  | .errFault => 4
  | .errState => 6
  | .errIllegal => 7

/-- The lower bound on the duration of a trace: the sum of its `Delay` parameters (70_reset_and_hazards.md R351). -/
def minDuration (c : Config) : List Event → Nat
  | [] => 0
  | .delay d :: es => c.duration d + minDuration c es
  | .set _ _ :: es => minDuration c es
  | .get _ _ :: es => minDuration c es
  | .log _ :: es => minDuration c es

end Sys2Proof.Machine
end

