-- ==== Sys2Proof/Machine/Ops.lean ====
section
/-! DEFINITION. The named operations over registers, buffer, trace and response that every meaning is made of:
`RegRead`, `RegWrite`, `SamplePins`, `Delay`, `Log` (00_scope.md R22 to R25), the buffer's reads and stores (20_memory.md
R70), the PinBank's `pin_set` and `pin_get` (40_pinbank.md R122, R123), `respond` and `fail` (00_scope.md R19), and the
admission checks (60_exceptions.md R296 to R298). -/

namespace Sys2Proof.Machine

/-- What a meaning answers. -/
abbrev Result := Host.Outcome State Fault Refusal

/-! ### The staged buffer -/

/-- The byte of `BUF` at an index. -/
def Memory.read : Memory → Nat → Byte
  | [], _ => Memory.unlisted
  | (k, v) :: m, a => if k = a then v else Memory.read m a

/-- Store one byte, keeping the canonical form. -/
def Memory.write : Memory → Nat → Byte → Memory
  | [], a, b => if b = Memory.unlisted then [] else [(a, b)]
  | (k, v) :: m, a, b =>
    if a < k then (if b = Memory.unlisted then (k, v) :: m else (a, b) :: (k, v) :: m)
    else if a = k then (if b = Memory.unlisted then m else (a, b) :: m)
    else (k, v) :: Memory.write m a b

/-- Store bytes at rising indices. -/
def Memory.store (m : Memory) (a : Nat) : List Byte → Memory
  | [] => m
  | b :: bs => Memory.store (Memory.write m a b) (a + 1) bs

/-- The snapshot of `BUF[0 .. len - 1]`, in ascending index (20_memory.md R70). -/
def Memory.snapshot (m : Memory) (len : Nat) : List Byte := (List.range len).map (Memory.read m)

/-- The number of bytes up to the last one that does not read as `Memory.unlisted`. -/
def Memory.extent : Memory → Nat
  | [] => 0
  | c :: m => max (c.1 + 1) (Memory.extent m)

/-! ### Register, oracle, trace and log primitives -/

/-- Append an event to the trace (00_scope.md R21). -/
def emit (e : Event) (s : State) : State := { s with trace := s.trace ++ [e] }

/-- `RegRead(r)` (00_scope.md R22); for `IN`, the level last sampled. -/
def regRead (r : Reg) (s : State) : Word :=
  match r with
  | .dir => s.dir
  | .out => s.out
  | .inp => s.inReg

/-- `RegWrite(r, v)` (00_scope.md R22). -/
def regWrite (r : WritableReg) (v : Word) (s : State) : State :=
  match r with
  | .dir => { s with dir := v }
  | .out => { s with out := v }

/-- The level the pins show at the next sample: the environment's answer if one is supplied, else a free value; always
`REG_W` bits (00_scope.md R23, 20_memory.md R67; log 5). -/
def nextSample (s : State) : Word :=
  (match s.samples with
   | [] => Config.freeSample s.sampleCount
   | v :: _ => v) % 2 ^ s.cfg.regW

/-- `SamplePins()` (00_scope.md R23): `IN` comes to show the pins' level at this instant. -/
def samplePins (s : State) : State :=
  { s with inReg := nextSample s, samples := s.samples.tail, sampleCount := s.sampleCount + 1 }

/-- `Delay(D)` (00_scope.md R24): an event and nothing else, even when the duration is 0. -/
def delay (d : DelayName) (s : State) : State := emit (.delay d) s

/-- `Log(e)` (00_scope.md R25, 60_exceptions.md R312). -/
def log (e : LogEvent) (s : State) : State := emit (.log e) s

/-! ### Other consumers of the GPIO registers -/

/-- The bits of `DIR` and `OUT` that other consumers must leave alone: the block's seven while `LIFE = READY`, none
before (45_host.md R268). -/
def guardedBits (s : State) : Word :=
  match s.life with
  | .ready => s.cfg.mUsed
  | .down => 0

/-- `old` on the guarded bits, `new` on the others, `w` bits wide. -/
def mergeForeign (w : Nat) (guarded old new : Word) : Word :=
  (old &&& guarded) ||| andNot (new % 2 ^ w) guarded

/-- "Between two PinBank operations other consumers may change bits of `DIR` and `OUT` that the block does not use"
(20_memory.md R64): the next entry of the input, if any, lands here, and nowhere else. Another bus master, against which
"nothing is promised" (R73), has no other move than this: DESIGN CHOICE, unsafe (log 21). -/
def foreignMove (s : State) : State :=
  match s.foreign with
  | [] => s
  | none :: rest => { s with foreign := rest }
  | some f :: rest =>
    { s with
      out := mergeForeign s.cfg.regW (guardedBits s) s.out f.out
      dir := mergeForeign s.cfg.regW (guardedBits s) s.dir f.dir
      foreign := rest }

/-! ### PinBank -/

/-- `pin_set`'s critical section (R122): `OUT` is updated first, `DIR` second. Nothing lands between its register accesses
(20_memory.md R64), no other bus master's either: DESIGN CHOICE, unsafe (R73; log 21). -/
def pinSetSection (setMask clearMask : Word) (s : State) : State :=
  let s₁ := regWrite .out (andNot (regRead .out s ||| setMask) clearMask) s
  regWrite .dir (regRead .dir s₁ ||| setMask ||| clearMask) s₁

/-- `pin_set(set_mask, clear_mask)` (40_pinbank.md R122). -/
def pinSet (setMask clearMask : Word) (s : State) : State :=
  emit (.set setMask clearMask) (pinSetSection setMask clearMask (foreignMove s))

/-- `pin_get`'s critical section (R123): the masked pins become inputs, then `IN` is read. Nothing lands between its
register accesses (20_memory.md R64), no other bus master's either: DESIGN CHOICE, unsafe (R73; log 21). -/
def pinGetSection (readMask : Word) (s : State) : State :=
  samplePins (regWrite .dir (andNot (regRead .dir s) readMask) s)

/-- `pin_get(read_mask)` (40_pinbank.md R123): the sampled bits under the mask, and the state after. -/
def pinGet (readMask : Word) (s : State) : Word × State :=
  let s₁ := pinGetSection readMask (foreignMove s)
  (regRead .inp s₁ &&& readMask, emit (.get readMask (regRead .inp s₁ &&& readMask)) s₁)

/-! ### Response and admission -/

/-- `respond(code, value)` (00_scope.md R19, 30_encoding.md R96): the operation is answered and the sequencer idle. -/
def respond (code : Code) (value : BitVec 32) (s : State) : State :=
  { s with response := some { code := code, value := value }, seq := .idle }

/-- `respond OK`. -/
def respondOk (s : State) : State := respond .ok 0 s

/-- `fail ERR_X` (00_scope.md R19), the spec's form of raising an exception: the code is returned with value 0 and
nothing else happens. There is no trap entry and no return from one (60_exceptions.md R302, R303). -/
def fail (code : Code) (s : State) : State := respond code 0 s

/-- The lifecycle check (60_exceptions.md R296): with `LIFE = DOWN` the operation is answered ERR_STATE. -/
def whenReady (s : State) (op : State → State) : State :=
  match s.life with
  | .down => fail .errState s
  | .ready => op s

/-- The lifecycle check, then the session check of TERM_BYTE, WRITE and SEEK (60_exceptions.md R297, R298). -/
def whenSession (s : State) (op : State → State) : State :=
  whenReady s fun s => if s.session then op s else fail .errState s

/-! ### The command port -/

/-- The request's bytes that `BUF` has room for (20_memory.md R70: `BUF` holds `BUF_SIZE` bytes). -/
def stagedBytes (r : Request) (s : State) : List Byte := r.data.take s.cfg.bufSize

/-- The host hands over its next request: the sequencer leaves idle, `BUF` holds what the host stored for this operation
and nothing of an earlier one ("inputs ..., not state that survives them", 10_state.md R41), and the environment's answers
for this operation are fixed (30_encoding.md R90, 45_host.md R268). -/
def takeRequest (r : Request) (rest : List Request) (s : State) : State :=
  { s with
    seq := .running
    requests := rest
    buf := Memory.store [] 0 (stagedBytes r s)
    reserveOk := r.reserveOk
    bufOk := r.bufOk }

/-- The answer to an illegal word: ERR_ILLEGAL, "changes no state, performs no PinBank operation and logs nothing"
(30_encoding.md R94). -/
def illegalWord (s : State) : State := fail .errIllegal s

end Sys2Proof.Machine
end

