-- ==== Sys2Proof/Machine/Operands.lean ====
section
/-! DEFINITION. The forms a value takes on its way over the bus: the masks that put select lines and nibbles on the
pins and take a nibble off them (30_encoding.md R99), the command bytes (R97), the status byte (R98), and the results
of the operations that return one (R96). -/

namespace Sys2Proof.Machine

/-! ### Masks -/

/-- The `set_mask` and `clear_mask` of step W1 (41_bus_transport.md R131): read/write-select deasserted, register-select
= `rs`. -/
def writeSelect (c : Config) : RegSel → Word × Word
  | .data => (c.mRs, c.mRw)
  | .cmd => (0, c.mRw ||| c.mRs)

/-- The masks of step R1 (41_bus_transport.md R132): read/write-select asserted, register-select = `rs`. -/
def readSelect (c : Config) : RegSel → Word × Word
  | .data => (c.mRw ||| c.mRs, 0)
  | .cmd => (c.mRw, c.mRs)

/-- The `set_mask` that presents nibble `n`: `n << DATA_SHIFT` (R99). -/
def nibbleSet (c : Config) (n : Nibble) : Word := n.toNat <<< c.dataShift

/-- The `clear_mask` that presents nibble `n`: `(~n & 0xF) << DATA_SHIFT` (R99). -/
def nibbleClear (c : Config) (n : Nibble) : Word := (~~~n).toNat <<< c.dataShift

/-- The nibble of a sampled value: `(v >> DATA_SHIFT) & 0xF` (R99). -/
def sampledNibble (c : Config) (v : Word) : Nibble := BitVec.ofNat 4 (v >>> c.dataShift)

/-! ### Bytes -/

/-- The upper nibble of a byte, sent and received first (20_memory.md R63). -/
def upperNibble (b : Byte) : Nibble := b.extractLsb' 4 4

/-- The lower nibble of a byte. -/
def lowerNibble (b : Byte) : Nibble := b.extractLsb' 0 4

/-- `s[7]` of a status byte: the busy flag (R98). -/
def statusBusy (s : Byte) : Bool := s.getLsbD 7

/-- A one-bit operand in bit 0 of a byte. -/
def bitByte (b : Bool) : Byte := (BitVec.ofBool b).setWidth 8

/-- Clear display (R97). -/
def clearByte : Byte := 0x01

/-- Return home (R97). -/
def homeByte : Byte := 0x02

/-- Entry mode set, `0x04 | id << 1 | s` (R97). -/
def entryModeByte (dir shift : Bool) : Byte := 0x04 ||| bitByte dir <<< 1 ||| bitByte shift

/-- Display control, `0x08 | d << 2 | c << 1 | b` (R97). -/
def displayControlByte (d c b : Bool) : Byte := 0x08 ||| bitByte d <<< 2 ||| bitByte c <<< 1 ||| bitByte b

/-- Function set, `0x20 | n << 3 | f << 2` with `n = lines - 1` and the interface-width bit 0 (R97, R162). -/
def functionSetByte (lines : Nat) (font : Bool) : Byte :=
  0x20 ||| BitVec.ofNat 8 (lines - 1) <<< 3 ||| bitByte font <<< 2

/-- Set DRAM address, `0x80 | a` (R97). -/
def setAddressByte (a : Addr) : Byte := 0x80 ||| a.setWidth 8

/-! ### Result values -/

/-- `value[3:0]` = the nibble (R96). -/
def nibbleValue (n : Nibble) : BitVec 32 := n.setWidth 32

/-- `value[7:0]` = the byte (R96). -/
def byteValue (b : Byte) : BitVec 32 := b.setWidth 32

/-- `value[0]` = 1 if the poll timed out (R96). -/
def timeoutValue (timedOut : Bool) : BitVec 32 := if timedOut then 1 else 0

/-- `value[7:0]` = column, `value[15:8]` = row (R96, 43_position.md R195). -/
def xyValue (x y : Nat) : BitVec 32 := BitVec.ofNat 32 (y <<< 8 ||| x)

end Sys2Proof.Machine
end

