-- ==== Sys2Proof/Machine/Flags.lean ====
section
/-! DEFINITION. The block's flags and mirror registers, each written in one place: the three display flags (10_state.md
R34), the two sticky flags with their log events (R39), `CURSOR` (R33), `PARSE_MODE` (R36). The block has no
arithmetic condition codes (R39). -/

namespace Sys2Proof.Machine

/-- "All three are written together, and only, by `display_control`" (10_state.md R34). -/
def setDisplayFlags (d c b : Bool) (s : State) : State :=
  { s with displayOn := d, cursorVisible := c, blinkOn := b }

/-- `TIMEOUT_SEEN <- 1; Log(TIMEOUT)` (41_bus_transport.md R136). -/
def markTimeout (s : State) : State := log .timeout { s with timeoutSeen := true }

/-- `ASSERT_OOW <- 1` and `Log(ASSERT_OOW(p))` (43_position.md R190). -/
def markOutOfWindow (p : Addr) (s : State) : State := log (.assertOow p) { s with assertOow := true }

/-- `CURSOR <- a` (10_state.md R33). -/
def setCursor (a : Addr) (s : State) : State := { s with cursor := a }

/-- `PARSE_MODE <- m` (10_state.md R36). -/
def setParseMode (m : ParseMode) (s : State) : State := { s with parseMode := m }

/-- `SESSION <- b` (10_state.md R37). -/
def setSession (b : Bool) (s : State) : State := { s with session := b }

/-- `LIFE <- l` (10_state.md R38). -/
def setLife (l : Life) (s : State) : State := { s with life := l }

/-- What STARTUP writes before its sequence (45_host.md R262, 10_state.md R44). -/
def clearMirror (s : State) : State :=
  { s with
    session := false, parseMode := .normal, cursor := 0x00
    displayOn := false, cursorVisible := false, blinkOn := false
    timeoutSeen := false, assertOow := false }

end Sys2Proof.Machine
end

