-- ==== Sys2Proof/Machine/BusTransport.lean ====
section
/-! DEFINITION. BusTransport (41_bus_transport.md): the nibble and byte transfers, the busy poll, and the meanings of
WR_NIB, RD_NIB, WR_BYTE, RD_BYTE, WAIT_READY. -/

namespace Sys2Proof.Machine

/-- `write_nibble(rs, n)`, steps W1 to W7 (R131). -/
def writeNibble (rs : RegSel) (n : Nibble) (s : State) : State :=
  let sel := writeSelect s.cfg rs
  let s₁ := pinSet sel.1 sel.2 s
  let s₂ := pinSet s.cfg.mE 0 s₁
  let s₃ := delay .wSetup s₂
  let s₄ := pinSet (nibbleSet s.cfg n) (nibbleClear s.cfg n) s₃
  let s₅ := delay .cap (delay .wHold s₄)
  let s₆ := pinSet 0 s.cfg.mE s₅
  delay .wRem s₆

/-- `read_nibble(rs)`, steps R1 to R7 (R132). -/
def readNibble (rs : RegSel) (s : State) : Nibble × State :=
  let sel := readSelect s.cfg rs
  let s₁ := pinSet sel.1 sel.2 s
  let s₂ := pinSet s.cfg.mE 0 s₁
  let s₃ := delay .rSetup s₂
  let v := pinGet s.cfg.mData s₃
  let s₅ := delay .rHold v.2
  let s₆ := pinSet 0 s.cfg.mE s₅
  (sampledNibble s.cfg v.1, delay .rRem s₆)

/-- `write_byte(rs, b)`: "always sends/receives the upper nibble first" (R133). -/
def writeByte (rs : RegSel) (b : Byte) (s : State) : State :=
  writeNibble rs (lowerNibble b) (writeNibble rs (upperNibble b) s)

/-- `read_byte(rs)`: `{hi, lo}` (R134). -/
def readByte (rs : RegSel) (s : State) : Byte × State :=
  let hi := readNibble rs s
  let lo := readNibble rs hi.2
  (hi.1 ++ lo.1, lo.2)

/-- The loop of `wait_ready` with `rest = POLL_COUNT - k` poll delays left (R136): whether it was left because the LCD
is idle, and the state after. -/
def pollLoop : Nat → State → Bool × State
  | 0, s =>
    let r := readByte .cmd s
    (!statusBusy r.1, r.2)
  | rest + 1, s =>
    let r := readByte .cmd s
    if statusBusy r.1 then pollLoop rest (delay .poll r.2) else (true, r.2)

/-- The one extra re-check after the bound has expired, and the declaration of the timeout (R136). -/
def recheck (s : State) : Bool × State :=
  let r := readByte .cmd s
  if statusBusy r.1 then (true, markTimeout r.2) else (false, r.2)

/-- `wait_ready()` (R136): whether it timed out, and the state after. -/
def waitReady (s : State) : Bool × State :=
  let p := pollLoop s.cfg.pollCount s
  if p.1 then (false, p.2) else recheck p.2

/-- WR_NIB (R131). -/
def execWrNib (rs : RegSel) (n : Nibble) (s : State) : Result :=
  .next (whenReady s fun s => respondOk (writeNibble rs n s))

/-- RD_NIB (R132). -/
def execRdNib (rs : RegSel) (s : State) : Result :=
  .next (whenReady s fun s =>
    let r := readNibble rs s
    respond .ok (nibbleValue r.1) r.2)

/-- WR_BYTE (R133). -/
def execWrByte (rs : RegSel) (b : Byte) (s : State) : Result :=
  .next (whenReady s fun s => respondOk (writeByte rs b s))

/-- RD_BYTE (R134). -/
def execRdByte (rs : RegSel) (s : State) : Result :=
  .next (whenReady s fun s =>
    let r := readByte rs s
    respond .ok (byteValue r.1) r.2)

/-- WAIT_READY (R136): a timeout is soft, the code stays OK. -/
def execWaitReady (s : State) : Result :=
  .next (whenReady s fun s =>
    let r := waitReady s
    respond .ok (timeoutValue r.1) r.2)

end Sys2Proof.Machine
end

