-- ==== Sys2Proof/Machine/DisplayCommands.lean ====
section
/-! DEFINITION. DisplayController commands (42_display_commands.md): the command pattern, the six commands, the
power-on sequence, and the meanings of FUNCTION_SET, DISPLAY_CONTROL, CLEAR, HOME, ENTRY_MODE, SET_ADDRESS. -/

namespace Sys2Proof.Machine

/-- `command(byte)`: wait, result ignored, then write the byte on the command side (R161, R168). -/
def command (b : Byte) (s : State) : State := writeByte .cmd b (waitReady s).2

/-- `function_set(lines, font)` (R162): sends its byte and updates nothing. -/
def functionSet (lines : Nat) (font : Bool) (s : State) : State := command (functionSetByte lines font) s

/-- `display_control(d, c, b)` (R163). -/
def displayControl (d c b : Bool) (s : State) : State :=
  setDisplayFlags d c b (command (displayControlByte d c b) s)

/-- `clear()` (R164): `CURSOR` becomes the literal 0x00. -/
def clear (s : State) : State := setCursor 0x00 (command clearByte s)

/-- `home()` (R165): `CURSOR` becomes `BASE[0]`. -/
def home (s : State) : State := setCursor (BitVec.ofNat 7 (s.cfg.baseOf 0)) (command homeByte s)

/-- `entry_mode(dir, shift)` (R166): sends its byte and updates nothing. -/
def entryMode (dir shift : Bool) (s : State) : State := command (entryModeByte dir shift) s

/-- `set_address(a)` (R167): any address is accepted. -/
def setAddress (a : Addr) (s : State) : State := setCursor a (command (setAddressByte a) s)

/-- Steps P0 to P5 of `power_on_sequence` (R172): control lines low, then the 4-bit handshake by single nibbles. -/
def handshake (s : State) : State :=
  let s₀ := pinSet 0 (s.cfg.mRs ||| s.cfg.mRw ||| s.cfg.mE) s
  let s₁ := delay .pwr s₀
  let s₂ := delay .init1 (writeNibble .cmd 0x3 s₁)
  let s₃ := delay .init2 (writeNibble .cmd 0x3 s₂)
  let s₄ := delay .init3 (writeNibble .cmd 0x3 s₃)
  delay .init3 (writeNibble .cmd 0x2 s₄)

/-- `power_on_sequence()`, steps P0 to P10 (R172). -/
def powerOnSequence (s : State) : State :=
  let s₅ := handshake s
  let s₆ := functionSet s.cfg.fsLines s.cfg.fsFont s₅
  let s₇ := displayControl false false false s₆
  let s₈ := clear s₇
  let s₉ := entryMode true false s₈
  displayControl true false false s₉

/-- FUNCTION_SET (R162): a call after the power-on sequence is not refused. -/
def execFunctionSet (lines : Nat) (font : Bool) (s : State) : Result :=
  .next (whenReady s fun s => respondOk (functionSet lines font s))

/-- DISPLAY_CONTROL (R163). -/
def execDisplayControl (d c b : Bool) (s : State) : Result :=
  .next (whenReady s fun s => respondOk (displayControl d c b s))

/-- CLEAR (R164). -/
def execClear (s : State) : Result := .next (whenReady s fun s => respondOk (clear s))

/-- HOME (R165). -/
def execHome (s : State) : Result := .next (whenReady s fun s => respondOk (home s))

/-- ENTRY_MODE (R166). -/
def execEntryMode (dir shift : Bool) (s : State) : Result :=
  .next (whenReady s fun s => respondOk (entryMode dir shift s))

/-- SET_ADDRESS (R167). -/
def execSetAddress (a : Addr) (s : State) : Result := .next (whenReady s fun s => respondOk (setAddress a s))

end Sys2Proof.Machine
end

