-- ==== Sys2Proof/Machine/Position.lean ====
section
/-! DEFINITION. The position model and character output (43_position.md): `line_of` and `col_of`, stepping, logical
positions, characters and strings, and the meanings of ADVANCE, RETREAT, GET_XY, GOTO_XY, PUT_CHAR, PUT_STRING. -/

namespace Sys2Proof.Machine

/-! ### Pure functions of a position -/

/-- `p` lies in the window of line `l`: `BASE[l] <= p < BASE[l] + LINE_LEN` (R190). -/
abbrev InWindow (c : Config) (l p : Nat) : Prop := c.baseOf l ≤ p ∧ p < c.baseOf l + c.lineLen

/-- The line whose window holds `p`, if any; by WF3 at most one does (R190). -/
def lineOf? (c : Config) (p : Nat) : Option Nat := (List.range c.nLines).find? fun l => decide (InWindow c l p)

/-- The line of a position, line 0 when it is out of window (R190). -/
def lineOf (c : Config) (p : Nat) : Nat := (lineOf? c p).getD 0

/-- `col_of(p) = p mod LINE_LEN` (R191). -/
def colOf (c : Config) (p : Nat) : Nat := p % c.lineLen

/-- The side effect of asking for the line of `CURSOR`: the assertion when it is out of window (R190; log 19). -/
def noteLine (s : State) : State :=
  match lineOf? s.cfg s.cursor.toNat with
  | some _ => s
  | none => markOutOfWindow s.cursor s

/-- A 7-bit address (R192 `mod 128`; by WF2 a window's addresses are 7 bits already). -/
def addrOf (p : Nat) : Addr := BitVec.ofNat 7 p

/-- Do an operation `n` times. -/
def repeatOp (op : State → State) : Nat → State → State
  | 0, s => s
  | n + 1, s => repeatOp op n (op s)

/-! ### Stepping -/

/-- `advance()` (R192): the line is taken before the increment. -/
def advance (s : State) : State :=
  let l := lineOf s.cfg s.cursor.toNat
  let p := s.cursor.toNat + 1
  let s₁ := noteLine s
  if p = s.cfg.baseOf l + s.cfg.lineLen then
    setAddress (addrOf (s.cfg.baseOf ((l + 1) % s.cfg.nLines))) s₁
  else
    setCursor (addrOf p) s₁

/-- `(l - 1) mod N_LINES` with the floor remainder (R193, R210). -/
def previousLine (c : Config) (l : Nat) : Nat := (l + c.nLines - 1) % c.nLines

/-- `retreat()` (R193). -/
def retreat (s : State) : State :=
  let l := lineOf s.cfg s.cursor.toNat
  let s₁ := noteLine s
  if s.cursor.toNat = s.cfg.baseOf l then
    setAddress (addrOf (s.cfg.baseOf (previousLine s.cfg l) + s.cfg.lineLen - 1)) s₁
  else
    setCursor (addrOf (s.cursor.toNat - 1)) s₁

/-! ### Logical positions -/

/-- `get_xy()` (R195): column, row, and the state after the line was asked for. -/
def getXy (s : State) : (Nat × Nat) × State :=
  ((colOf s.cfg s.cursor.toNat, lineOf s.cfg s.cursor.toNat), noteLine s)

/-- `y * LINE_LEN + x`, exact (R196, R210). -/
def flatIndex (c : Config) (x y : Int) : Int := y * c.lineLen + x

/-- The steps of a signed delta (R196). -/
def stepBy (delta : Int) (s : State) : State :=
  match delta with
  | .ofNat n => repeatOp advance n s
  | .negSucc n => repeatOp retreat (n + 1) s

/-- The relative part of `goto_xy`: the steps, then the final `set_address(CURSOR)` when the delta is not 0 (R196). -/
def moveBy (delta : Int) (s : State) : State :=
  let s₁ := stepBy delta s
  if delta = 0 then s₁ else setAddress s₁.cursor s₁

/-- `0 <= i < TOTAL`: the bound of an absolute move (R196, 60_exceptions.md R293). -/
abbrev IndexOk (c : Config) (i : Int) : Prop := 0 ≤ i ∧ i < c.total

/-- `goto_xy(x, y, mode)` (R196): the code, and the state after. -/
def gotoXy (x y : Int) (mode : Mode) (s : State) : Code × State :=
  let i := flatIndex s.cfg x y
  match mode with
  | .abs => if IndexOk s.cfg i then (.ok, moveBy i (home s)) else (.errInval, s)
  | .rel => (.ok, moveBy i s)
  | .fromEnd => (.errInval, s)

/-! ### Character output -/

/-- `put_char(b)` (R198). -/
def putChar (b : Byte) (s : State) : State := advance (writeByte .data b (waitReady s).2)

/-- The characters of a string, one after the other (R199). -/
def putChars : List Byte → State → State
  | [], s => s
  | b :: bs, s => putChars bs (putChar b s)

/-- `put_string(bytes)` (R199): "writes up to four lines' worth of characters and silently truncates longer input". -/
def putString (bs : List Byte) (s : State) : State := putChars (bs.take s.cfg.putStringMax) s

/-! ### The host forms -/

/-- ADVANCE (R192). -/
def execAdvance (s : State) : Result := .next (whenReady s fun s => respondOk (advance s))

/-- RETREAT (R193). -/
def execRetreat (s : State) : Result := .next (whenReady s fun s => respondOk (retreat s))

/-- GET_XY (R195). -/
def execGetXy (s : State) : Result :=
  .next (whenReady s fun s =>
    let r := getXy s
    respond .ok (xyValue r.1.1 r.1.2) r.2)

/-- GOTO_XY (R196). -/
def execGotoXy (x y : Int) (mode : Mode) (s : State) : Result :=
  .next (whenReady s fun s =>
    let r := gotoXy x y mode s
    respond r.1 0 r.2)

/-- PUT_CHAR (R198). -/
def execPutChar (b : Byte) (s : State) : Result := .next (whenReady s fun s => respondOk (putChar b s))

/-- PUT_STRING (R199). -/
def execPutString (len : Nat) (s : State) : Result :=
  .next (whenReady s fun s =>
    if len ≤ s.cfg.bufSize then respondOk (putString (s.buf.snapshot len) s) else fail .errFault s)

end Sys2Proof.Machine
end

