-- ==== Sys2Proof/Machine/Terminal.lean ====
section
/-! DEFINITION. The terminal layer's byte parser (44_terminal.md) and the meaning of TERM_BYTE. -/

namespace Sys2Proof.Machine

/-- `goto_xy` as the layer calls it: none of its moves can fail (R232), so the code is dropped. -/
def moveCursor (x y : Int) (mode : Mode) (s : State) : State := (gotoXy x y mode s).2

/-- `\r` (R232, R234): back to column 0 of the current row. -/
def carriageReturn (s : State) : State :=
  let r := getXy s
  moveCursor (-(r.1.1 : Int)) 0 .rel r.2

/-- The loop of `tab()` (R235): write a space, then test the column. The first argument bounds the spaces (log 20). -/
def tabLoop : Nat → State → State
  | 0, s => s
  | n + 1, s =>
    let r := getXy (putChar 0x20 s)
    if r.1.1 % 4 = 0 then r.2 else tabLoop n r.2

/-- `tab()` (R235): "Between 1 and 4 spaces are written" (43_position.md R212). -/
def tab (s : State) : State := tabLoop 4 s

/-- `escape_code(b)` (R237 to R240). -/
def escapeCode (b : Byte) (s : State) : State :=
  if b = 0x61 then displayControl s.displayOn false false s
  else if b = 0x62 then displayControl s.displayOn s.cursorVisible true s
  else if b = 0x76 then displayControl s.displayOn true s.blinkOn s
  else if b = 0x56 then displayControl s.displayOn false s.blinkOn s
  else if b = 0x48 then moveCursor 0 0 .abs s
  else if b = 0x4A then moveCursor 0 0 .abs (clear s)
  else if b = 0x42 then moveCursor 0 1 .rel s
  else if b = 0x41 then moveCursor 0 (-1) .rel s
  else if b = 0x44 then moveCursor (-1) 0 .rel s
  else if b = 0x43 then moveCursor 1 0 .rel s
  else log (.unknownEsc b) s

/-- A byte in `NORMAL` mode (R232 to R236). -/
def normalByte (b : Byte) (s : State) : State :=
  if b = 0x1B then setParseMode .escapePending s
  else if b = 0x0A then moveCursor 0 1 .rel s
  else if b = 0x0D then carriageReturn s
  else if b = 0x08 then moveCursor (-1) 0 .rel s
  else if b = 0x09 then tab s
  else putChar b s

/-- `term_byte(b)` (R232). -/
def termByte (b : Byte) (s : State) : State :=
  match s.parseMode with
  | .escapePending => escapeCode b (setParseMode .normal s)
  | .normal => normalByte b s

/-- TERM_BYTE (R232): admitted only with a session (R230). -/
def execTermByte (b : Byte) (s : State) : Result := .next (whenSession s fun s => respondOk (termByte b s))

end Sys2Proof.Machine
end

