-- ==== Sys2Proof/Machine/Session.lean ====
section
/-! DEFINITION. Start-up, shut-down and the session interface (45_host.md): the meanings of STARTUP, SHUTDOWN, OPEN,
CLOSE, WRITE, SEEK. -/

namespace Sys2Proof.Machine

/-- STARTUP's acquisition of the register windows and its reset of the block's state (R262). What other consumers did
to the registers before is in them now (log 7). -/
def acquire (s : State) : State := clearMirror (setLife .ready (foreignMove s))

/-- STARTUP once admitted: acquire, power-on sequence, splash (R262), and no PinBank operation after them, so that
register-select keeps the level of the last transfer (41_bus_transport.md R131, corner case 2; log 18). -/
def startUp (s : State) : State := putString s.cfg.splash (powerOnSequence (acquire s))

/-- STARTUP (R262): all or nothing. -/
def execStartup (s : State) : Result :=
  .next (match s.life with
    | .ready => fail .errUnavail s
    | .down => if s.reserveOk then respondOk (startUp s) else fail .errUnavail s)

/-- SHUTDOWN (R263): "idempotent on double-release"; no pin is touched. -/
def execShutdown (s : State) : Result :=
  .next (match s.life with
    | .down => respondOk s
    | .ready => if s.session then fail .errState s else respondOk (setLife .down s))

/-- OPEN (R264). -/
def execOpen (s : State) : Result :=
  .next (whenReady s fun s =>
    if s.session then fail .errBusy s else respondOk (setParseMode .normal (setSession true s)))

/-- CLOSE (R265): accepted without a session too. -/
def execClose (s : State) : Result := .next (whenReady s fun s => respondOk (setSession false s))

/-- WRITE's loop (R266): the null test is made before each byte is given to the parser. -/
def feedBytes : List Byte → State → State
  | [], s => s
  | b :: bs, s => if b = 0x00 then s else feedBytes bs (termByte b s)

/-- WRITE (R266): the response carries the full length. -/
def execWrite (len : Nat) (s : State) : Result :=
  .next (whenSession s fun s =>
    if len ≤ s.cfg.bufSize ∧ s.bufOk then
      respond .ok (BitVec.ofNat 32 len) (feedBytes (s.buf.snapshot len) s)
    else fail .errFault s)

/-- `-TOTAL <= offset <= TOTAL`: the bound of a relative seek (R267). -/
abbrev SpanOk (c : Config) (offset : Int) : Prop := -(c.total : Int) ≤ offset ∧ offset ≤ c.total

/-- SEEK's answer: the flattened cell index after the move (R267). -/
def respondIndex (s : State) : State :=
  let r := getXy s
  respond .ok (BitVec.ofNat 32 (r.1.2 * s.cfg.lineLen + r.1.1)) r.2

/-- SEEK (R267). -/
def execSeek (offset : Int) (whence : Mode) (s : State) : Result :=
  .next (whenSession s fun s =>
    match whence with
    | .abs => if IndexOk s.cfg offset then respondIndex (gotoXy offset 0 .abs s).2 else fail .errInval s
    | .rel => if SpanOk s.cfg offset then respondIndex (gotoXy offset 0 .rel s).2 else fail .errInval s
    | .fromEnd => fail .errInval s)

end Sys2Proof.Machine
end

