-- ==== Sys2Proof/Machine/Dispatch.lean ====
section
/-! DEFINITION. One arm per operation: its meaning. -/

namespace Sys2Proof.Machine

def exec (i : Instr) (s : State) : Host.Outcome State Fault Refusal :=
  match i with
  | .wrNib rs n => Sys2Proof.Machine.execWrNib rs n s
  | .rdNib rs => Sys2Proof.Machine.execRdNib rs s
  | .wrByte rs b => Sys2Proof.Machine.execWrByte rs b s
  | .rdByte rs => Sys2Proof.Machine.execRdByte rs s
  | .waitReady => Sys2Proof.Machine.execWaitReady s
  | .functionSet lines font => Sys2Proof.Machine.execFunctionSet lines font s
  | .displayControl d c b => Sys2Proof.Machine.execDisplayControl d c b s
  | .clear => Sys2Proof.Machine.execClear s
  | .home => Sys2Proof.Machine.execHome s
  | .entryMode dir shift => Sys2Proof.Machine.execEntryMode dir shift s
  | .setAddress a => Sys2Proof.Machine.execSetAddress a s
  | .advance => Sys2Proof.Machine.execAdvance s
  | .retreat => Sys2Proof.Machine.execRetreat s
  | .getXy => Sys2Proof.Machine.execGetXy s
  | .gotoXy x y mode => Sys2Proof.Machine.execGotoXy x y mode s
  | .putChar b => Sys2Proof.Machine.execPutChar b s
  | .putString len => Sys2Proof.Machine.execPutString len s
  | .termByte b => Sys2Proof.Machine.execTermByte b s
  | .startup => Sys2Proof.Machine.execStartup s
  | .shutdown => Sys2Proof.Machine.execShutdown s
  | .openSession => Sys2Proof.Machine.execOpen s
  | .closeSession => Sys2Proof.Machine.execClose s
  | .write len => Sys2Proof.Machine.execWrite len s
  | .seek offset whence => Sys2Proof.Machine.execSeek offset whence s

end Sys2Proof.Machine
end

