-- ==== Sys2Proof/Machine/Step.lean ====
section
/-! DEFINITION. One step: the block takes the host's next request and carries its operation out to the response
(30_encoding.md R90, 10_state.md R31). -/

namespace Sys2Proof.Machine

/-- The operation of a command word, carried out or rejected as illegal (30_encoding.md R94; 60_exceptions.md R298 (1):
"This check comes before every other"). -/
def runWord (w : BitVec 32) (s : State) : Host.Outcome State Fault Refusal :=
  match decode w with
  | .ok i => exec i s
  | .error _ => .next (illegalWord s)

/-- One step. A configuration that is not admitted has no meaning (00_scope.md R11); with no request the block stays
idle ("The block never acts on its own", 45_host.md R268); else it takes the next one. -/
def step (s : State) : Host.Outcome State Fault Refusal :=
  if s.cfg.Admitted then
    match s.seq, s.requests with
    | .running, _ => .refused .commandWhileRunning
    | .idle, [] => .next s
    | .idle, r :: rest => runWord r.word (takeRequest r rest s)
  else .refused .configNotAdmitted

/-- `s` with a command word of the table's numbering as the host's next request, with the inputs `s` holds: the bytes in
`BUF` and the environment's answers. The block is idle, as a request is taken only then (log 15). -/
def State.withFetchWord (s : State) (nbits w : Nat) : State :=
  { s with
    seq := .idle
    requests :=
      { word := BitVec.ofNat 32 (w % 2 ^ nbits), data := s.buf.snapshot s.buf.extent
        reserveOk := s.reserveOk, bufOk := s.bufOk } ::
        s.requests }

end Sys2Proof.Machine
end

