-- ==== Sys2Proof/Safety.lean ====
section
/-! DEFINITION. The words claims are stated in: the environment's answers to come, what a transfer, a wait and a command
leave in the trace (41_bus_transport.md R131 to R136), logical positions (43_position.md R194), what an operation leaves
unchanged, the order of checks (60_exceptions.md R298), the opcode table (30_encoding.md R93), and the invariant of every
state between two operations (10_state.md R42). -/

namespace Sys2Proof.Machine

/-! ### The environment's answers to come -/

/-- The `k`-th of the levels the next samples will show; every one is any `REG_W`-bit value (20_memory.md R67). -/
def sampleAt (s : State) (k : Nat) : Word :=
  ((s.samples.drop k).head?.getD (Config.freeSample (s.sampleCount + k))) % 2 ^ s.cfg.regW

/-- The two samples that the `j`-th status read to come will take, upper nibble first. -/
def statusAt (s : State) (j : Nat) : Word × Word := (sampleAt s (2 * j), sampleAt s (2 * j + 1))

/-- "The busy flag is bit 3 of the first nibble sampled" (30_encoding.md R98). -/
def busyAnswer (c : Config) (a : Word × Word) : Bool := a.1.testBit (c.dataShift + 3)

/-! ### What operations leave in the trace -/

/-- The eight events of `write_nibble`, W1 to W7 of R131. -/
def writeNibbleTrace (c : Config) (rs : RegSel) (n : Nibble) : List Event :=
  [ .set (if rs = .data then c.mRs else 0) (c.mRw ||| if rs = .data then 0 else c.mRs),
    .set c.mE 0,
    .delay .wSetup,
    .set (n.toNat <<< c.dataShift) ((0xF - n.toNat) <<< c.dataShift),
    .delay .wHold,
    .delay .cap,
    .set 0 c.mE,
    .delay .wRem ]

/-- The seven events of `read_nibble`, R1 to R7 of R132, when the pins show `v` at R4. -/
def readNibbleTrace (c : Config) (rs : RegSel) (v : Word) : List Event :=
  [ .set (c.mRw ||| if rs = .data then c.mRs else 0) (if rs = .data then 0 else c.mRs),
    .set c.mE 0,
    .delay .rSetup,
    .get c.mData (v &&& c.mData),
    .delay .rHold,
    .set 0 c.mE,
    .delay .rRem ]

/-- The events of `write_byte` (R133). -/
def writeByteTrace (c : Config) (rs : RegSel) (b : Byte) : List Event :=
  writeNibbleTrace c rs (BitVec.ofNat 4 (b.toNat / 16)) ++ writeNibbleTrace c rs (BitVec.ofNat 4 (b.toNat % 16))

/-- The events of `read_byte` (R134) when the pins show `a.1`, then `a.2`. -/
def readByteTrace (c : Config) (rs : RegSel) (a : Word × Word) : List Event :=
  readNibbleTrace c rs a.1 ++ readNibbleTrace c rs a.2

/-- The byte of two samples: `{hi, lo}` (R134). -/
def byteOfSamples (c : Config) (a : Word × Word) : Nat :=
  a.1 >>> c.dataShift % 16 * 16 + a.2 >>> c.dataShift % 16

/-- How many status reads a `wait_ready` from `s` makes (`q`) and whether it times out, as R136 says: it stops at the
first status that is not busy, and at the latest after `POLL_COUNT + 2` reads, timed out if the last is busy too. -/
structure WaitRun (s : State) (q : Nat) (timedOut : Bool) : Prop where
  one_le : 1 ≤ q
  le_bound : q ≤ s.cfg.pollCount + 2
  busy_before : ∀ j, j + 1 < q → busyAnswer s.cfg (statusAt s j) = true
  last : busyAnswer s.cfg (statusAt s (q - 1)) = timedOut
  timeout_at_bound : timedOut = true → q = s.cfg.pollCount + 2

/-- The `j`-th status read of a wait of `q` reads, and the poll delay after it while the bound has not expired. -/
def pollTrace (s : State) (q j : Nat) : List Event :=
  readByteTrace s.cfg .cmd (statusAt s j) ++ if j + 1 < q ∧ j < s.cfg.pollCount then [.delay .poll] else []

/-- The events of a `wait_ready` from `s` that makes `q` status reads (R136). -/
def waitTrace (s : State) (q : Nat) (timedOut : Bool) : List Event :=
  (List.range q).flatMap (pollTrace s q) ++ if timedOut then [.log .timeout] else []

/-- `k` of the environment's answers were used, and `IN` shows the last of them (00_scope.md R23). -/
structure SamplesUsed (s t : State) (k : Nat) : Prop where
  samples : t.samples = s.samples.drop k
  sampleCount : t.sampleCount = s.sampleCount + k
  inReg : t.inReg = if k = 0 then s.inReg else sampleAt s (k - 1)

/-- A command to a ready LCD (95_test_vectors.md, `C(b)`): one status read, then the byte on the command side. -/
def commandTrace (c : Config) (status : Word × Word) (b : Byte) : List Event :=
  readByteTrace c .cmd status ++ writeByteTrace c .cmd b

/-! ### How many events, how long, and the datasheet's minima -/

/-- Operation `i` on `s` appends `events` events whose delays last at least `least` in all (70_reset_and_hazards.md
R351). -/
def Costs (i : Instr) (s : State) (events least : Nat) : Prop :=
  ∃ t es, exec i s = .next t ∧ t.trace = s.trace ++ es ∧ es.length = events ∧ minDuration s.cfg es = least

/-- `T_WN` (R351). -/
def writeTime (c : Config) : Nat := c.dWSetup + c.dWHold + c.dCap + c.dWRem

/-- `T_RN` (R351). -/
def readTime (c : Config) : Nat := c.dRSetup + c.dRHold + c.dRRem

/-- The number of events of a `wait_ready` of `q` status reads: `14 * q + d`, one more on a timeout (R351). -/
def waitEvents (c : Config) (q : Nat) (timedOut : Bool) : Nat := 14 * q + min (q - 1) c.pollCount + timedOut.toNat

/-- Its least duration: `2 * q * T_RN + d * D_POLL` (R351). -/
def waitTime (c : Config) (q : Nat) : Nat := 2 * q * readTime c + min (q - 1) c.pollCount * c.dPoll

/-- Only delays. -/
def OnlyDelays (es : List Event) : Prop := ∀ e ∈ es, ∃ d, e = .delay d

/-- The enable pin is in neither mask. -/
def EnableKept (c : Config) (setMask clearMask : Word) : Prop :=
  setMask.testBit c.ePin = false ∧ clearMask.testBit c.ePin = false

/-- The events of a write transfer that meets its rows of R340: `setup` and `hold` are all the waiting while enable is
high, `rest` that after enable fell, and the data lines are driven between `setup` and `hold`. -/
def MeetsWriteRows (c : Config) (es : List Event) : Prop :=
  ∃ (sel data : Word × Word) (setup hold rest : List Event),
    es = [.set sel.1 sel.2, .set c.mE 0] ++ setup ++ [.set data.1 data.2] ++ hold ++ [.set 0 c.mE] ++ rest ∧
    EnableKept c sel.1 sel.2 ∧ EnableKept c data.1 data.2 ∧ data.1 ||| data.2 = c.mData ∧
    OnlyDelays (setup ++ hold ++ rest) ∧
    c.lcd.pwEh ≤ minDuration c (setup ++ hold) ∧ c.lcd.tDsw ≤ minDuration c hold ∧
    c.lcd.tH ≤ minDuration c rest ∧ c.lcd.tAh ≤ minDuration c rest ∧ c.lcd.tCycE ≤ minDuration c es

/-- The events of a read transfer that meets its rows of R340: the sample is taken between `setup` and `hold`. -/
def MeetsReadRows (c : Config) (es : List Event) : Prop :=
  ∃ (sel : Word × Word) (value : Word) (setup hold rest : List Event),
    es = [.set sel.1 sel.2, .set c.mE 0] ++ setup ++ [.get c.mData value] ++ hold ++ [.set 0 c.mE] ++ rest ∧
    EnableKept c sel.1 sel.2 ∧ OnlyDelays (setup ++ hold ++ rest) ∧
    c.lcd.tDdr ≤ minDuration c setup ∧ c.lcd.pwEh ≤ minDuration c (setup ++ hold) ∧
    c.lcd.tAh ≤ minDuration c rest ∧ c.lcd.tCycE ≤ minDuration c es

/-- A wait of delays that lasts at least `least`. -/
def WaitsFor (c : Config) (least : Nat) (es : List Event) : Prop := OnlyDelays es ∧ least ≤ minDuration c es

/-! ### Logical positions -/

/-- The position lies in the window of a line (43_position.md R190). -/
def Windowed (c : Config) (p : Nat) : Prop := ∃ l, l < c.nLines ∧ InWindow c l p

/-- The flattened index of a position, `line_of * LINE_LEN + col_of` (R194). -/
def cellOf (c : Config) (p : Nat) : Nat := lineOf c p * c.lineLen + colOf c p

/-- `phys_i(i) = BASE[i div LINE_LEN] + (i mod LINE_LEN)` (20_memory.md R69). -/
def physOf (c : Config) (i : Nat) : Nat := c.baseOf (i / c.lineLen) + i % c.lineLen

/-- The cell `d` cells on from cell `i`, `mod` being the floor remainder: last to first and first to last (R194, R210). -/
def cellPlus (c : Config) (i : Nat) (d : Int) : Nat := (((i : Int) + d) % c.total).toNat

/-! ### What an operation leaves unchanged -/

/-- The bits of `DIR` and `OUT` that the block does not use are unchanged, unless another consumer changes them
(10_state.md R32: "every other bit is preserved by every operation"). -/
def ForeignBitsKept (s t : State) : Prop :=
  s.foreign = [] → t.foreign = [] ∧
    ∀ k, s.cfg.mUsed.testBit k = false →
      t.out.testBit k = s.out.testBit k ∧ t.dir.testBit k = s.dir.testBit k

/-- What no operation but the lifecycle and session ones changes: configuration, host side, lifecycle, session, every
byte of `BUF`, and other consumers' bits. -/
structure HostFrame (s t : State) : Prop where
  cfg : t.cfg = s.cfg
  session : t.session = s.session
  life : t.life = s.life
  requests : t.requests = s.requests
  reserveOk : t.reserveOk = s.reserveOk
  bufOk : t.bufOk = s.bufOk
  bufBytes : ∀ a, Memory.read t.buf a = Memory.read s.buf a
  foreignBits : ForeignBitsKept s t

/-- What a cursor move leaves unchanged besides: the display flags and the parser. -/
structure MoveFrame (s t : State) : Prop extends HostFrame s t where
  displayOn : t.displayOn = s.displayOn
  cursorVisible : t.cursorVisible = s.cursorVisible
  blinkOn : t.blinkOn = s.blinkOn
  parseMode : t.parseMode = s.parseMode

/-- What a bus transfer leaves unchanged besides: the cursor and the assertion flag. -/
structure BusFrame (s t : State) : Prop extends MoveFrame s t where
  cursor : t.cursor = s.cursor
  assertOow : t.assertOow = s.assertOow

/-! ### Pins between transfers -/

/-- The three control pins are outputs, enable is 0, the select lines are as given (10_state.md R42). -/
def SelectLines (s : State) (rw rs : Bool) : Prop :=
  s.dir.testBit s.cfg.rsPin = true ∧ s.dir.testBit s.cfg.rwPin = true ∧ s.dir.testBit s.cfg.ePin = true ∧
  s.out.testBit s.cfg.rwPin = rw ∧ s.out.testBit s.cfg.rsPin = rs ∧ s.out.testBit s.cfg.ePin = false

/-- The four data pins are outputs carrying a nibble (41_bus_transport.md R131, corner case 2). -/
def DataPinsCarry (s : State) (n : Nibble) : Prop :=
  ∀ i, i < 4 → s.dir.testBit (s.cfg.dataShift + i) = true ∧ s.out.testBit (s.cfg.dataShift + i) = n.getLsbD i

/-- The four data pins are inputs (41_bus_transport.md R132, corner case 2). -/
def DataPinsAreInputs (s : State) : Prop := ∀ i, i < 4 → s.dir.testBit (s.cfg.dataShift + i) = false

/-- `rs` as the level of its line. -/
def selectLevel : RegSel → Bool
  | .cmd => false
  | .data => true

/-- From `s` to `t` a wait was made and then byte `b` sent, with register-select `rs`: what every command and every
character does to the trace, to `TIMEOUT_SEEN`, to the environment's answers and to the pins (42_display_commands.md
R161, 43_position.md R198). -/
structure ByteSent (s t : State) (rs : RegSel) (b : Byte) : Prop where
  wait : ∃ q timedOut, WaitRun s q timedOut ∧
    t.trace = s.trace ++ waitTrace s q timedOut ++ writeByteTrace s.cfg rs b ∧
    t.timeoutSeen = (s.timeoutSeen || timedOut) ∧ SamplesUsed s t (2 * q)
  lines : SelectLines t false (selectLevel rs)
  data : DataPinsCarry t (BitVec.ofNat 4 (b.toNat % 16))

/-- The next `n` status reads to come find the LCD ready. -/
def ReadyFor (s : State) (n : Nat) : Prop := ∀ j, j < n → busyAnswer s.cfg (statusAt s j) = false

/-- The events of the handshake, steps P0 to P5 of 42_display_commands.md R172. -/
def handshakeTrace (c : Config) : List Event :=
  [.set 0 (c.mRs ||| c.mRw ||| c.mE), .delay .pwr] ++
  writeNibbleTrace c .cmd 0x3 ++ [.delay .init1] ++
  writeNibbleTrace c .cmd 0x3 ++ [.delay .init2] ++
  writeNibbleTrace c .cmd 0x3 ++ [.delay .init3] ++
  writeNibbleTrace c .cmd 0x2 ++ [.delay .init3]

/-- The events of the whole power-on sequence with a ready LCD (R172). -/
def powerOnTrace (s : State) : List Event :=
  handshakeTrace s.cfg ++
  commandTrace s.cfg (statusAt s 0)
    (BitVec.ofNat 8 (0x20 + 8 * (s.cfg.fsLines - 1) + 4 * s.cfg.fsFont.toNat)) ++
  commandTrace s.cfg (statusAt s 1) 0x08 ++
  commandTrace s.cfg (statusAt s 2) 0x01 ++
  commandTrace s.cfg (statusAt s 3) 0x06 ++
  commandTrace s.cfg (statusAt s 4) 0x0C

/-! ### Operations in sequence, and the answers they give -/

/-- Operations carried out one after the other, each answered before the next begins. -/
def execAll : List Instr → State → Host.Outcome State Fault Refusal
  | [], s => .next s
  | i :: is, s =>
    match exec i s with
    | .next t => execAll is t
    | .fault f => .fault f
    | .refused r => .refused r

/-- `s` with a response returned and the sequencer idle; everything else as it was. -/
def answered (s : State) (code : Code) (value : BitVec 32) : State :=
  { s with response := some { code := code, value := value }, seq := .idle }

/-- The response of the last operation is this one, and the sequencer is idle (30_encoding.md R96, 10_state.md R31). -/
def AnsweredWith (t : State) (code : Code) (value : BitVec 32) : Prop :=
  t.response = some { code := code, value := value } ∧ t.seq = .idle

/-- The steps of a signed delta as operations (43_position.md R196). -/
def stepsOf (delta : Int) : List Instr :=
  if 0 ≤ delta then List.replicate delta.toNat .advance else List.replicate (-delta).toNat .retreat

/-- How many cells the cursor moves on when the terminal layer takes byte `b` in `NORMAL` mode at column `x` of a row of
`len` cells (44_terminal.md R232 to R236). -/
def normalDelta (len x : Nat) (b : Byte) : Int :=
  if b = 0x1B then 0
  else if b = 0x0A then len
  else if b = 0x0D then -(x : Int)
  else if b = 0x08 then -1
  else if b = 0x09 then min (4 - x % 4) (len - x)
  else 1

/-- How many cells the cursor moves on when the byte is an escape code that makes a relative move (R239), or none. -/
def escapeDelta (len : Nat) (b : Byte) : Int :=
  if b = 0x42 then len
  else if b = 0x41 then -(len : Int)
  else if b = 0x44 then -1
  else if b = 0x43 then 1
  else 0

/-- The second check of 60_exceptions.md R298, the lifecycle (R296), if it ends the operation. -/
def lifecycleAnswer (i : Instr) (s : State) : Option Code :=
  match i, s.life with
  | .startup, .ready => some .errUnavail
  | .startup, .down => none
  | .shutdown, .down => some .ok
  | _, .down => some .errState
  | _, .ready => none

/-- The third check, the session (R297, R292), if it ends the operation. -/
def sessionAnswer (i : Instr) (s : State) : Option Code :=
  match i, s.session with
  | .termByte _, false => some .errState
  | .write _, false => some .errState
  | .seek _ _, false => some .errState
  | .shutdown, true => some .errState
  | .openSession, true => some .errBusy
  | _, _ => none

/-- The fourth check, the staging (R294, R291), if it ends the operation. -/
def stagingAnswer (i : Instr) (s : State) : Option Code :=
  match i with
  | .putString len => if s.cfg.bufSize < len then some .errFault else none
  | .write len => if s.cfg.bufSize < len ∨ s.bufOk = false then some .errFault else none
  | .startup => if s.reserveOk then none else some .errUnavail
  | _ => none

/-- The fifth check, the argument (R293), if it ends the operation. -/
def argumentAnswer (i : Instr) (s : State) : Option Code :=
  let total : Int := s.cfg.nLines * s.cfg.lineLen
  match i with
  | .gotoXy x y .abs =>
    if y * s.cfg.lineLen + x < 0 ∨ total ≤ y * s.cfg.lineLen + x then some .errInval else none
  | .gotoXy _ _ .fromEnd => some .errInval
  | .seek offset .abs => if offset < 0 ∨ total ≤ offset then some .errInval else none
  | .seek offset .rel => if offset < -total ∨ total < offset then some .errInval else none
  | .seek _ .fromEnd => some .errInval
  | _ => none

/-- The code a legal operation is answered with: "in this order, the first that applies ends the operation" (R298). -/
def answerCode (i : Instr) (s : State) : Code :=
  ((lifecycleAnswer i s <|> sessionAnswer i s) <|> (stagingAnswer i s <|> argumentAnswer i s)).getD .ok

/-- A row of spec/opcode_table.json. -/
structure OpcodeRow where
  mnemonic : String
  mask : Nat
  bits : Nat
deriving DecidableEq, Repr

/-- spec/opcode_table.json: mnemonic, `mask`, `match` (30_encoding.md R91, R93). -/
def opcodeTable : List OpcodeRow :=
  [ ⟨"WR_NIB", 0xFFFEFFF0, 0x10000000⟩, ⟨"RD_NIB", 0xFFFEFFFF, 0x11000000⟩,
    ⟨"WR_BYTE", 0xFFFEFF00, 0x12000000⟩, ⟨"RD_BYTE", 0xFFFEFFFF, 0x13000000⟩,
    ⟨"WAIT_READY", 0xFFFFFFFF, 0x14000000⟩ ] ++
  [ ⟨"FUNCTION_SET", 0xFFFFFFFC, 0x20000000⟩, ⟨"DISPLAY_CONTROL", 0xFFFFFFF8, 0x21000000⟩,
    ⟨"CLEAR", 0xFFFFFFFF, 0x22000000⟩, ⟨"HOME", 0xFFFFFFFF, 0x23000000⟩,
    ⟨"ENTRY_MODE", 0xFFFFFFFC, 0x24000000⟩, ⟨"SET_ADDRESS", 0xFFFFFF80, 0x25000000⟩ ] ++
  [ ⟨"ADVANCE", 0xFFFFFFFF, 0x30000000⟩, ⟨"RETREAT", 0xFFFFFFFF, 0x31000000⟩,
    ⟨"GET_XY", 0xFFFFFFFF, 0x32000000⟩, ⟨"GOTO_XY", 0xFFFC0000, 0x33000000⟩,
    ⟨"PUT_CHAR", 0xFFFFFF00, 0x34000000⟩, ⟨"PUT_STRING", 0xFFFF0000, 0x35000000⟩ ] ++
  [ ⟨"TERM_BYTE", 0xFFFFFF00, 0x40000000⟩, ⟨"STARTUP", 0xFFFFFFFF, 0x50000000⟩,
    ⟨"SHUTDOWN", 0xFFFFFFFF, 0x51000000⟩, ⟨"OPEN", 0xFFFFFFFF, 0x52000000⟩,
    ⟨"CLOSE", 0xFFFFFFFF, 0x53000000⟩, ⟨"WRITE", 0xFFFF0000, 0x54000000⟩,
    ⟨"SEEK", 0xFFFC0000, 0x55000000⟩ ]

/-- The operations whose words carry a mode field with a reserved fourth value (R94 (c)). -/
def hasMode (mnemonic : String) : Bool := mnemonic == "GOTO_XY" || mnemonic == "SEEK"

/-! ### Invariants -/

/-- `CURSOR` lies in a window (10_state.md R43). -/
def CursorWindowed (s : State) : Prop := Windowed s.cfg s.cursor.toNat

/-- What holds of every state between two operations, from reset on (10_state.md R31, R37, R38, R42; 30_encoding.md
R96). -/
structure State.Inv (s : State) : Prop where
  /-- `DIR` has `REG_W` bits. -/
  dirWidth : s.dir < 2 ^ s.cfg.regW
  /-- `OUT` has `REG_W` bits. -/
  outWidth : s.out < 2 ^ s.cfg.regW
  /-- `IN` has `REG_W` bits. -/
  inWidth : s.inReg < 2 ^ s.cfg.regW
  /-- `BUF` is in canonical form. -/
  bufCanonical : Memory.wf s.buf
  /-- `BUF` has `BUF_SIZE` bytes. -/
  bufInRange : ∀ cell ∈ s.buf, cell.1 < s.cfg.bufSize
  /-- `SEQ` is "equal to idle whenever a response has been returned". -/
  idle : s.seq = .idle
  /-- A session exists only while the block is up (R305). -/
  sessionReady : s.session = true → s.life = .ready
  /-- "The enable bit of `OUT` is 0 and the enable pin is an output", and the select pins are outputs. -/
  controlPins : s.life = .ready →
    s.dir.testBit s.cfg.rsPin = true ∧ s.dir.testBit s.cfg.rwPin = true ∧ s.dir.testBit s.cfg.ePin = true ∧
    s.out.testBit s.cfg.ePin = false
  /-- "Any other code is one of the error conditions ... and `value` is then 0". -/
  errorValue : ∀ r, s.response = some r → r.code ≠ .ok → r.value = 0

end Sys2Proof.Machine
end

