-- ==== Sys2Proof/Certificates/Slice0/Obligations.lean ====
section
/-! DEFINITION. The statements for the provers, from the numbered rules of spec/. -/

section

open Sys2Proof Sys2Proof.Machine

/-! ### Command words -/

/-- Every well-formed operation's word decodes to that operation (30_encoding.md R91 to R93, R102). -/
def Obligations.DecodeOfEncode : Prop :=
  ∀ i : Instr, i.wellFormed = true → decode (encode i) = .ok i

/-- Every legal word is the word of the operation it decodes to, which is well-formed, and lies under that operation's row
of the opcode table (30_encoding.md R91 to R93). -/
def Obligations.EncodeOfDecode : Prop :=
  ∀ (w : BitVec 32) (i : Instr), decode w = .ok i →
    i.wellFormed = true ∧ encode i = w ∧
    ∃ row ∈ opcodeTable, row.mnemonic = i.mnemonic ∧ w.toNat &&& row.mask = row.bits

/-- 30_encoding.md R94: which words are illegal; how one is answered; from-end is legal and always fails; the all-zero and
the all-one word are illegal. The request's own effect, the bytes the host stored, is no effect of the word. -/
def Obligations.IllegalWords : Prop :=
  (∀ w : BitVec 32, (∀ i, decode w ≠ .ok i) ↔
    ¬ ∃ row ∈ opcodeTable, w.toNat &&& row.mask = row.bits ∧
      ¬ (hasMode row.mnemonic = true ∧ w.toNat >>> 16 % 4 = 3)) ∧
  (∀ (s : State) (r : Request) (rest : List Request), s.cfg.Admitted → s.seq = .idle → s.requests = r :: rest →
    (∀ i, decode r.word ≠ .ok i) → step s = .next (answered (takeRequest r rest s) .errIllegal 0)) ∧
  (∀ (s : State) (x y : Int), s.life = .ready →
    exec (.gotoXy x y .fromEnd) s = .next (answered s .errInval 0)) ∧
  (∀ (s : State) (offset : Int), s.life = .ready → s.session = true →
    exec (.seek offset .fromEnd) s = .next (answered s .errInval 0)) ∧
  (∀ i, decode 0x00000000 ≠ .ok i) ∧ (∀ i, decode 0xFFFFFFFF ≠ .ok i)

/-- 30_encoding.md R95: the worked encodings, word by word. -/
def Obligations.WorkedEncodings : Prop :=
  (decode 0x10000003 = .ok (.wrNib .cmd 0x3) ∧ decode 0x12010041 = .ok (.wrByte .data 0x41) ∧
    decode 0x13000000 = .ok (.rdByte .cmd) ∧ decode 0x21000004 = .ok (.displayControl true false false) ∧
    decode 0x20000002 = .ok (.functionSet 2 false) ∧ decode 0x24000002 = .ok (.entryMode true false) ∧
    decode 0x25000045 = .ok (.setAddress 0x45)) ∧
  (decode 0x33000501 = .ok (.gotoXy 5 1 .abs) ∧ decode 0x3301FB00 = .ok (.gotoXy (-5) 0 .rel) ∧
    decode 0x330100FF = .ok (.gotoXy 0 (-1) .rel) ∧ decode 0x34000068 = .ok (.putChar 0x68) ∧
    decode 0x35000005 = .ok (.putString 5) ∧ decode 0x4000001B = .ok (.termByte 0x1B) ∧
    decode 0x5400000A = .ok (.write 10)) ∧
  (decode 0x55000041 = .ok (.seek 0x41 .abs) ∧ decode 0x5501FFFD = .ok (.seek (-3) .rel) ∧
    decode 0x55020000 = .ok (.seek 0 .fromEnd)) ∧
  (decode 0x33030000 = .error .reservedMode ∧ decode 0x22000001 = .error .reservedBit ∧
    decode 0x00000000 = .error .unknownOpcode)

/-! ### Steps -/

/-- A step carries out the operation that the next request's word decodes to, on the state in which the host has handed the
request over (30_encoding.md R90). The model's choices in it: that a request carries the word, the bytes and the answers
(log 8, log 6), that its bytes are stored from index 0 and those beyond `BUF_SIZE` dropped (log 9), and that a word placed by
`withFetchWord` is the very next one, with the inputs the state holds (log 15). -/
def Obligations.StepRunsTheDecodedOperation : Prop :=
  (∀ (s : State) (r : Request) (rest : List Request) (i : Instr),
    s.cfg.Admitted → s.seq = .idle → s.requests = r :: rest → decode r.word = .ok i →
    step s = exec i { s with
      seq := .running, requests := rest, buf := Memory.store [] 0 (r.data.take s.cfg.bufSize),
      reserveOk := r.reserveOk, bufOk := r.bufOk }) ∧
  (∀ (s : State) (w : Nat) (i : Instr), s.cfg.Admitted → Memory.wf s.buf →
    (∀ cell ∈ s.buf, cell.1 < s.cfg.bufSize) → decode (BitVec.ofNat 32 w) = .ok i →
    step (s.withFetchWord 32 w) = exec i { s with seq := .running })

/-- "The block never acts on its own": with no request a step changes nothing (45_host.md R268). -/
def Obligations.IdleStepChangesNothing : Prop :=
  ∀ s : State, s.cfg.Admitted → s.seq = .idle → s.requests = [] → step s = .next s

/-- Nothing stops the machine but a configuration that is not admitted and an operation issued before the response to the
one before; there is no trap (60_exceptions.md R302). R11 refuses a geometry outside WF1 to WF5 and R340 a timing outside
its rows; that the pin conditions and the ranges are refused too is the model's reading (log 11), and so is the form of the
second refusal (log 12). -/
def Obligations.WhatStopsAStep : Prop :=
  ∀ s : State,
    (∀ f, step s ≠ .fault f) ∧
    (step s = .refused .configNotAdmitted ↔ ¬ s.cfg.Admitted) ∧
    (step s = .refused .commandWhileRunning ↔ s.cfg.Admitted ∧ s.seq = .running) ∧
    ((∃ t, step s = .next t) ↔ s.cfg.Admitted ∧ s.seq = .idle)

/-- The block answers each request with one response before it takes the next (30_encoding.md R90, R96). -/
def Obligations.EveryRequestIsAnswered : Prop :=
  ∀ (s : State) (r : Request) (rest : List Request), s.cfg.Admitted → s.seq = .idle → s.requests = r :: rest →
    ∃ t code value, step s = .next t ∧ AnsweredWith t code value ∧ (code ≠ .ok → value = 0) ∧
      t.requests = rest ∧ t.cfg = s.cfg

/-- The operand bytes of PUT_STRING and WRITE are the bytes the host stored for that operation (20_memory.md R70), and
nothing staged for an earlier one survives (10_state.md R41). That a byte the host stored nothing in reads 0x00 is the
model's choice (log 9). -/
def Obligations.OperandBytesAreTheStoredOnes : Prop :=
  ∀ (s : State) (r : Request) (rest : List Request),
    (∀ len, len ≤ r.data.length → len ≤ s.cfg.bufSize →
      Memory.snapshot (takeRequest r rest s).buf len = r.data.take len) ∧
    (∀ a, r.data.length ≤ a ∨ s.cfg.bufSize ≤ a → Memory.read (takeRequest r rest s).buf a = 0x00) ∧
    (s.requests = r :: rest → ∀ m : Memory, step { s with buf := m } = step s)

/-! ### PinBank -/

/-- 40_pinbank.md R122 bit by bit: or the set mask in, and the clear mask out, so that clear wins; every touched pin
becomes an output; nothing else changes. Other consumers' writes land before it; they never touch the block's bits. -/
def Obligations.PinSetBits : Prop :=
  ∀ (s : State) (setMask clearMask : Word),
    (∀ k, s.foreign = [] ∨ (s.life = .ready ∧ s.cfg.mUsed.testBit k = true) →
      (pinSet setMask clearMask s).out.testBit k =
        ((s.out.testBit k || setMask.testBit k) && !clearMask.testBit k) ∧
      (pinSet setMask clearMask s).dir.testBit k =
        (s.dir.testBit k || setMask.testBit k || clearMask.testBit k)) ∧
    (s.foreign = [] → pinSet setMask clearMask s =
      { s with
        out := (pinSet setMask clearMask s).out, dir := (pinSet setMask clearMask s).dir
        trace := s.trace ++ [.set setMask clearMask] })

/-- 40_pinbank.md R123: the masked pins become inputs, `OUT` is not changed, the result is the sample under the mask. -/
def Obligations.PinGetBits : Prop :=
  ∀ (s : State) (readMask : Word),
    (pinGet readMask s).1 = sampleAt s 0 &&& readMask ∧
    (∀ k, s.foreign = [] ∨ (s.life = .ready ∧ s.cfg.mUsed.testBit k = true) →
      (pinGet readMask s).2.out.testBit k = s.out.testBit k ∧
      (pinGet readMask s).2.dir.testBit k = (s.dir.testBit k && !readMask.testBit k)) ∧
    (s.foreign = [] → (pinGet readMask s).2 =
      { s with
        dir := (pinGet readMask s).2.dir, inReg := sampleAt s 0
        samples := s.samples.drop 1, sampleCount := s.sampleCount + 1
        trace := s.trace ++ [.get readMask (sampleAt s 0 &&& readMask)] })

/-- Other consumers may change the bits the block does not use, between two PinBank operations, and while `LIFE = READY`
only those (10_state.md R32, 20_memory.md R64, 45_host.md R268). That one write of theirs lands before each PinBank
operation, and that it may touch every bit while `LIFE = DOWN`, is the model's form (log 7). -/
def Obligations.OtherConsumersBits : Prop :=
  ∀ (s : State) (f : ForeignWrite) (rest : List (Option ForeignWrite)) (k : Nat),
    s.foreign = some f :: rest → k < s.cfg.regW →
    let mine := s.life = .ready ∧ s.cfg.mUsed.testBit k = true
    ((foreignMove s).out.testBit k = if mine then s.out.testBit k else f.out.testBit k) ∧
    ((foreignMove s).dir.testBit k = if mine then s.dir.testBit k else f.dir.testBit k)

/-! ### BusTransport -/

/-- 41_bus_transport.md R131: WR_NIB's events, the lines it leaves, and its frame. -/
def Obligations.WriteNibble : Prop :=
  ∀ (s : State) (rs : RegSel) (n : Nibble), s.life = .ready → s.cfg.PinsOk →
    ∃ t, exec (.wrNib rs n) s = .next t ∧ AnsweredWith t .ok 0 ∧
      t.trace = s.trace ++ writeNibbleTrace s.cfg rs n ∧
      SelectLines t false (selectLevel rs) ∧ DataPinsCarry t n ∧
      BusFrame s t ∧ t.timeoutSeen = s.timeoutSeen ∧ SamplesUsed s t 0

/-- 41_bus_transport.md R132: RD_NIB's events, result, the lines it leaves, and its frame. -/
def Obligations.ReadNibble : Prop :=
  ∀ (s : State) (rs : RegSel), s.life = .ready → s.cfg.PinsOk →
    ∃ t, exec (.rdNib rs) s = .next t ∧
      AnsweredWith t .ok (BitVec.ofNat 32 (sampleAt s 0 >>> s.cfg.dataShift % 16)) ∧
      t.trace = s.trace ++ readNibbleTrace s.cfg rs (sampleAt s 0) ∧
      SelectLines t true (selectLevel rs) ∧ DataPinsAreInputs t ∧
      (∀ i, i < 4 → t.out.testBit (s.cfg.dataShift + i) = s.out.testBit (s.cfg.dataShift + i)) ∧
      BusFrame s t ∧ t.timeoutSeen = s.timeoutSeen ∧ SamplesUsed s t 1

/-- 41_bus_transport.md R133: WR_BYTE is two nibble transfers, upper nibble first, with nothing between them. -/
def Obligations.WriteByte : Prop :=
  ∀ (s : State) (rs : RegSel) (b : Byte), s.life = .ready → s.cfg.PinsOk →
    ∃ t, exec (.wrByte rs b) s = .next t ∧
      execAll [.wrNib rs (BitVec.ofNat 4 (b.toNat / 16)), .wrNib rs (BitVec.ofNat 4 (b.toNat % 16))] s = .next t ∧
      AnsweredWith t .ok 0 ∧
      t.trace = s.trace ++ writeByteTrace s.cfg rs b ∧
      SelectLines t false (selectLevel rs) ∧ DataPinsCarry t (BitVec.ofNat 4 (b.toNat % 16)) ∧
      BusFrame s t ∧ t.timeoutSeen = s.timeoutSeen ∧ SamplesUsed s t 0

/-- 41_bus_transport.md R134: RD_BYTE is two nibble reads, the first giving bits 7:4; the two samples are independent. -/
def Obligations.ReadByte : Prop :=
  ∀ (s : State) (rs : RegSel), s.life = .ready → s.cfg.PinsOk →
    ∃ t, exec (.rdByte rs) s = .next t ∧
      (∃ u, execAll [.rdNib rs, .rdNib rs] s = .next u ∧
        t = answered u .ok (BitVec.ofNat 32 (byteOfSamples s.cfg (sampleAt s 0, sampleAt s 1)))) ∧
      t.trace = s.trace ++ readByteTrace s.cfg rs (sampleAt s 0, sampleAt s 1) ∧
      SelectLines t true (selectLevel rs) ∧ DataPinsAreInputs t ∧
      BusFrame s t ∧ t.timeoutSeen = s.timeoutSeen ∧ SamplesUsed s t 2

/-- 41_bus_transport.md R136: how many status reads WAIT_READY makes, its events, its result, the sticky flag. -/
def Obligations.WaitReady : Prop :=
  ∀ s : State, s.life = .ready → s.cfg.PinsOk →
    ∃ t q timedOut, exec .waitReady s = .next t ∧ WaitRun s q timedOut ∧
      AnsweredWith t .ok (if timedOut then 1 else 0) ∧
      t.trace = s.trace ++ waitTrace s q timedOut ∧
      t.timeoutSeen = (s.timeoutSeen || timedOut) ∧
      SelectLines t true false ∧ DataPinsAreInputs t ∧
      BusFrame s t ∧ SamplesUsed s t (2 * q)

/-- 41_bus_transport.md R136, corner cases 3 and 4, R137: an LCD that is never busy costs one status read; one that is always
busy costs `POLL_COUNT + 2` reads and `POLL_COUNT` poll delays, then the timeout is logged and the operation still
answers OK. -/
def Obligations.WaitReadyExtremes : Prop :=
  ∀ s : State, s.life = .ready →
    (busyAnswer s.cfg (statusAt s 0) = false →
      ∃ t, exec .waitReady s = .next t ∧ AnsweredWith t .ok 0 ∧
        t.trace = s.trace ++ readByteTrace s.cfg .cmd (statusAt s 0) ∧ t.timeoutSeen = s.timeoutSeen) ∧
    ((∀ j, j < s.cfg.pollCount + 2 → busyAnswer s.cfg (statusAt s j) = true) →
      ∃ t es, exec .waitReady s = .next t ∧ AnsweredWith t .ok 1 ∧ t.timeoutSeen = true ∧
        t.trace = s.trace ++ es ++ [.log .timeout] ∧
        es.length = 14 * (s.cfg.pollCount + 2) + s.cfg.pollCount ∧
        es.count (.delay .poll) = s.cfg.pollCount)

/-- 70_reset_and_hazards.md R351: how many events the transfers, WAIT_READY and the commands append to the trace, and the
least their delays last. `q` is the number of status reads of the wait that WAIT_READY and each command begin with. -/
def Obligations.EventsAndDurations : Prop :=
  ∀ s : State, s.life = .ready →
    (∀ rs n, Costs (.wrNib rs n) s 8 (writeTime s.cfg)) ∧
    (∀ rs, Costs (.rdNib rs) s 7 (readTime s.cfg)) ∧
    (∀ rs b, Costs (.wrByte rs b) s 16 (2 * writeTime s.cfg)) ∧
    (∀ rs, Costs (.rdByte rs) s 14 (2 * readTime s.cfg)) ∧
    ∃ q timedOut, WaitRun s q timedOut ∧
      Costs .waitReady s (waitEvents s.cfg q timedOut) (waitTime s.cfg q) ∧
      let commandCosts := fun i : Instr =>
        Costs i s (waitEvents s.cfg q timedOut + 16) (waitTime s.cfg q + 2 * writeTime s.cfg)
      (∀ lines font, commandCosts (.functionSet lines font)) ∧
      (∀ d c b, commandCosts (.displayControl d c b)) ∧
      commandCosts .clear ∧ commandCosts .home ∧
      (∀ dir shift, commandCosts (.entryMode dir shift)) ∧
      (∀ a, commandCosts (.setAddress a))

/-- 41_bus_transport.md R135, 70_reset_and_hazards.md R340, row by row, of the events the operations append: in an admitted
configuration every nibble transfer meets its rows, STARTUP's handshake waits long enough before and after each nibble, and
a wait that times out has lasted at least `T_BUSY_MAX`, which covers the longest command. The datasheet numbers are
UNVERIFIED (log 14); the statement holds for whatever they are. -/
def Obligations.TimingContract : Prop :=
  ∀ s : State, s.cfg.Admitted →
    (s.life = .ready →
      (∀ rs n, ∃ t es, exec (.wrNib rs n) s = .next t ∧ t.trace = s.trace ++ es ∧ MeetsWriteRows s.cfg es) ∧
      (∀ rs, ∃ t es, exec (.rdNib rs) s = .next t ∧ t.trace = s.trace ++ es ∧ MeetsReadRows s.cfg es) ∧
      (∃ t es, exec .waitReady s = .next t ∧ t.trace = s.trace ++ es ∧
        (Event.log .timeout ∈ es →
          s.cfg.tBusyMax + 2 * (s.cfg.pollCount + 2) * readTime s.cfg ≤ minDuration s.cfg es))) ∧
    (s.life = .down → s.reserveOk = true →
      ∃ t powerOn first second third fourth more, exec .startup s = .next t ∧
        t.trace = s.trace ++ ([.set 0 (s.cfg.mRs ||| s.cfg.mRw ||| s.cfg.mE)] ++ powerOn ++
          writeNibbleTrace s.cfg .cmd 0x3 ++ first ++ writeNibbleTrace s.cfg .cmd 0x3 ++ second ++
          writeNibbleTrace s.cfg .cmd 0x3 ++ third ++ writeNibbleTrace s.cfg .cmd 0x2 ++ fourth ++ more) ∧
        WaitsFor s.cfg s.cfg.lcd.powerOnWait powerOn ∧ WaitsFor s.cfg s.cfg.lcd.firstWait first ∧
        WaitsFor s.cfg s.cfg.lcd.secondWait second ∧ WaitsFor s.cfg s.cfg.lcd.commandTime third ∧
        WaitsFor s.cfg s.cfg.lcd.commandTime fourth) ∧
    s.cfg.lcd.longestCommand ≤ s.cfg.tBusyMax ∧
    s.cfg.tBusyMax ≤ s.cfg.pollCount * s.cfg.dPoll ∧ (s.cfg.pollCount - 1) * s.cfg.dPoll < s.cfg.tBusyMax

/-! ### Display commands -/

/-- 42_display_commands.md R161, R168: each command is WAIT_READY, its result ignored, then its byte on the command side,
then its own update of the mirror. -/
def Obligations.CommandsWaitThenWrite : Prop :=
  ∀ s : State, s.life = .ready →
    ∃ sent : Byte → State, (∀ b, execAll [.waitReady, .wrByte .cmd b] s = .next (sent b)) ∧
      (∀ lines font, lines = 1 ∨ lines = 2 → exec (.functionSet lines font) s =
        .next (sent (BitVec.ofNat 8 (0x20 + 8 * (lines - 1) + 4 * font.toNat)))) ∧
      (∀ dir shift, exec (.entryMode dir shift) s =
        .next (sent (BitVec.ofNat 8 (0x04 + 2 * dir.toNat + shift.toNat)))) ∧
      (∀ d c b, exec (.displayControl d c b) s =
        .next { sent (BitVec.ofNat 8 (0x08 + 4 * d.toNat + 2 * c.toNat + b.toNat)) with
          displayOn := d, cursorVisible := c, blinkOn := b }) ∧
      exec .clear s = .next { sent 0x01 with cursor := 0x00 } ∧
      exec .home s = .next { sent 0x02 with cursor := BitVec.ofNat 7 (s.cfg.baseOf 0) } ∧
      (∀ a, exec (.setAddress a) s = .next { sent (BitVec.ofNat 8 (0x80 + a.toNat)) with cursor := a })

/-- 42_display_commands.md R162, R166: FUNCTION_SET and ENTRY_MODE send their byte and update nothing. -/
def Obligations.FunctionSetAndEntryMode : Prop :=
  ∀ s : State, s.life = .ready → s.cfg.PinsOk →
    (∀ lines font, lines = 1 ∨ lines = 2 →
      ∃ t, exec (.functionSet lines font) s = .next t ∧ AnsweredWith t .ok 0 ∧
        ByteSent s t .cmd (BitVec.ofNat 8 (0x20 + 8 * (lines - 1) + 4 * font.toNat)) ∧ BusFrame s t) ∧
    (∀ dir shift,
      ∃ t, exec (.entryMode dir shift) s = .next t ∧ AnsweredWith t .ok 0 ∧
        ByteSent s t .cmd (BitVec.ofNat 8 (0x04 + 2 * dir.toNat + shift.toNat)) ∧ BusFrame s t)

/-- 42_display_commands.md R163: DISPLAY_CONTROL sends its byte and writes all three flags, even after a timeout. -/
def Obligations.DisplayControl : Prop :=
  ∀ (s : State) (d c b : Bool), s.life = .ready → s.cfg.PinsOk →
    ∃ t, exec (.displayControl d c b) s = .next t ∧ AnsweredWith t .ok 0 ∧
      ByteSent s t .cmd (BitVec.ofNat 8 (0x08 + 4 * d.toNat + 2 * c.toNat + b.toNat)) ∧
      t.displayOn = d ∧ t.cursorVisible = c ∧ t.blinkOn = b ∧
      HostFrame s t ∧ t.parseMode = s.parseMode ∧ t.cursor = s.cursor ∧ t.assertOow = s.assertOow

/-- 42_display_commands.md R164, R165, R167: CLEAR, HOME and SET_ADDRESS send their byte and write `CURSOR`; SET_ADDRESS
takes any address. -/
def Obligations.ClearHomeSetAddress : Prop :=
  ∀ s : State, s.life = .ready → s.cfg.PinsOk →
    (∃ t, exec .clear s = .next t ∧ AnsweredWith t .ok 0 ∧ ByteSent s t .cmd 0x01 ∧ t.cursor = 0x00 ∧
      MoveFrame s t ∧ t.assertOow = s.assertOow) ∧
    (s.cfg.GeometryOk → ∃ t, exec .home s = .next t ∧ AnsweredWith t .ok 0 ∧ ByteSent s t .cmd 0x02 ∧
      t.cursor.toNat = s.cfg.baseOf 0 ∧ t.cursor = 0x00 ∧ MoveFrame s t ∧ t.assertOow = s.assertOow) ∧
    (∀ a : Addr, ∃ t, exec (.setAddress a) s = .next t ∧ AnsweredWith t .ok 0 ∧
      ByteSent s t .cmd (BitVec.ofNat 8 (0x80 + a.toNat)) ∧ t.cursor = a ∧
      MoveFrame s t ∧ t.assertOow = s.assertOow)

/-! ### The position model -/

/-- 43_position.md R190, R191: the line and the column of a position, and what asking for the line of `CURSOR` does. -/
def Obligations.LineAndColumn : Prop :=
  ∀ s : State, s.cfg.GeometryOk →
    (∀ p l, l < s.cfg.nLines → InWindow s.cfg l p →
      lineOf s.cfg p = l ∧ colOf s.cfg p = p - s.cfg.baseOf l) ∧
    (∀ p, ¬ Windowed s.cfg p → lineOf s.cfg p = 0) ∧
    (∀ p, colOf s.cfg p = p % s.cfg.lineLen) ∧
    (CursorWindowed s → noteLine s = s) ∧
    (¬ CursorWindowed s →
      noteLine s = { s with assertOow := true, trace := s.trace ++ [.log (.assertOow s.cursor)] })

/-- 43_position.md R192: ADVANCE inside a line, at its end, and out of every window. -/
def Obligations.Advance : Prop :=
  ∀ s : State, s.life = .ready → s.cfg.PinsOk → s.cfg.GeometryOk →
    (∀ l, l < s.cfg.nLines → InWindow s.cfg l s.cursor.toNat →
      (s.cursor.toNat + 1 ≠ s.cfg.baseOf l + s.cfg.lineLen →
        exec .advance s = .next (answered { s with cursor := s.cursor + 1 } .ok 0)) ∧
      (s.cursor.toNat + 1 = s.cfg.baseOf l + s.cfg.lineLen →
        ∃ t, exec .advance s = .next t ∧ AnsweredWith t .ok 0 ∧
          ByteSent s t .cmd (BitVec.ofNat 8 (0x80 + s.cfg.baseOf ((l + 1) % s.cfg.nLines))) ∧
          t.cursor.toNat = s.cfg.baseOf ((l + 1) % s.cfg.nLines) ∧
          MoveFrame s t ∧ t.assertOow = s.assertOow)) ∧
    (¬ CursorWindowed s →
      exec .advance s = .next (answered
        { s with
          cursor := s.cursor + 1, assertOow := true
          trace := s.trace ++ [.log (.assertOow s.cursor)] } .ok 0))

/-- 43_position.md R193: RETREAT off a line's base, at it, and out of every window. -/
def Obligations.Retreat : Prop :=
  ∀ s : State, s.life = .ready → s.cfg.PinsOk → s.cfg.GeometryOk →
    (∀ l, l < s.cfg.nLines → InWindow s.cfg l s.cursor.toNat →
      (s.cursor.toNat ≠ s.cfg.baseOf l →
        exec .retreat s = .next (answered { s with cursor := s.cursor - 1 } .ok 0)) ∧
      (s.cursor.toNat = s.cfg.baseOf l →
        ∃ t last, exec .retreat s = .next t ∧ AnsweredWith t .ok 0 ∧
          last = s.cfg.baseOf (if l = 0 then s.cfg.nLines - 1 else l - 1) + s.cfg.lineLen - 1 ∧
          ByteSent s t .cmd (BitVec.ofNat 8 (0x80 + last)) ∧
          t.cursor.toNat = last ∧ MoveFrame s t ∧ t.assertOow = s.assertOow)) ∧
    (¬ CursorWindowed s →
      exec .retreat s = .next (answered
        { s with
          cursor := s.cursor - 1, assertOow := true
          trace := s.trace ++ [.log (.assertOow s.cursor)] } .ok 0))

/-- 43_position.md R194: where `k` advances or retreats lead, how many commands they send (each command writes two
nibbles), and that the two steps undo each other. -/
def Obligations.StepsClosedForm : Prop :=
  ∀ (s : State) (k : Nat), s.life = .ready → s.cfg.GeometryOk → CursorWindowed s →
    let i := cellOf s.cfg s.cursor.toNat
    let x := colOf s.cfg s.cursor.toNat
    (∃ t es, execAll (List.replicate k .advance) s = .next t ∧
      t.cursor.toNat = physOf s.cfg (cellPlus s.cfg i k) ∧
      cellOf s.cfg t.cursor.toNat = cellPlus s.cfg i k ∧
      t.trace = s.trace ++ es ∧ es.count (.delay .wHold) = 2 * ((x + k) / s.cfg.lineLen)) ∧
    (∃ t es, execAll (List.replicate k .retreat) s = .next t ∧
      t.cursor.toNat = physOf s.cfg (cellPlus s.cfg i (-(k : Int))) ∧
      cellOf s.cfg t.cursor.toNat = cellPlus s.cfg i (-(k : Int)) ∧
      t.trace = s.trace ++ es ∧
      es.count (.delay .wHold) = 2 * ((k + (s.cfg.lineLen - 1 - x)) / s.cfg.lineLen)) ∧
    (∃ t, execAll [.advance, .retreat] s = .next t ∧ t.cursor = s.cursor) ∧
    (∃ t, execAll [.retreat, .advance] s = .next t ∧ t.cursor = s.cursor)

/-- 43_position.md R195: GET_XY's result in a window and out of every window; it changes nothing else. -/
def Obligations.GetXy : Prop :=
  ∀ s : State, s.life = .ready → s.cfg.GeometryOk →
    (∀ l, l < s.cfg.nLines → InWindow s.cfg l s.cursor.toNat →
      exec .getXy s = .next (answered s .ok (BitVec.ofNat 32 (l * 256 + (s.cursor.toNat - s.cfg.baseOf l))))) ∧
    (¬ CursorWindowed s →
      exec .getXy s = .next (answered
        { s with assertOow := true, trace := s.trace ++ [.log (.assertOow s.cursor)] }
        .ok (BitVec.ofNat 32 (s.cursor.toNat % s.cfg.lineLen))))

/-- 60_exceptions.md R293: when GOTO_XY and SEEK are answered ERR_INVAL, with nothing changed; relative GOTO_XY never
is. -/
def Obligations.InvalidArgument : Prop :=
  ∀ s : State, s.life = .ready →
    (∀ x y : Int, y * s.cfg.lineLen + x < 0 ∨ s.cfg.total ≤ y * s.cfg.lineLen + x →
      exec (.gotoXy x y .abs) s = .next (answered s .errInval 0)) ∧
    (∀ x y : Int, exec (.gotoXy x y .fromEnd) s = .next (answered s .errInval 0)) ∧
    (∀ x y : Int, ∃ t, exec (.gotoXy x y .rel) s = .next t ∧ AnsweredWith t .ok 0) ∧
    (s.session = true → ∀ offset : Int,
      (offset < 0 ∨ s.cfg.total ≤ offset → exec (.seek offset .abs) s = .next (answered s .errInval 0)) ∧
      (offset < -(s.cfg.total : Int) ∨ s.cfg.total < offset →
        exec (.seek offset .rel) s = .next (answered s .errInval 0)) ∧
      exec (.seek offset .fromEnd) s = .next (answered s .errInval 0))

/-- 43_position.md R196: GOTO_XY is (when absolute) HOME, then as many ADVANCE or RETREAT as the delta says, then
SET_ADDRESS of the position reached unless the delta is 0. -/
def Obligations.GotoXyIsSteps : Prop :=
  ∀ (s : State) (x y : Int), s.life = .ready →
    let d := y * s.cfg.lineLen + x
    (∃ t, execAll (stepsOf d) s = .next t ∧
      (d = 0 → exec (.gotoXy x y .rel) s = .next (answered t .ok 0)) ∧
      (d ≠ 0 → exec (.gotoXy x y .rel) s = exec (.setAddress t.cursor) t)) ∧
    (0 ≤ d → d < s.cfg.total → ∃ t, execAll (.home :: stepsOf d) s = .next t ∧
      (d = 0 → exec (.gotoXy x y .abs) s = .next t) ∧
      (d ≠ 0 → exec (.gotoXy x y .abs) s = exec (.setAddress t.cursor) t))

/-- 43_position.md R197, and R194 for a relative move: where GOTO_XY lands, what GET_XY then reports, and its frame. -/
def Obligations.GotoXyLands : Prop :=
  ∀ (s : State) (x y : Int), s.life = .ready → s.cfg.GeometryOk →
    let i := y * s.cfg.lineLen + x
    (0 ≤ i → i < s.cfg.total →
      (∃ t, exec (.gotoXy x y .abs) s = .next t ∧ AnsweredWith t .ok 0 ∧
        t.cursor.toNat = s.cfg.baseOf (i / s.cfg.lineLen).toNat + (i % s.cfg.lineLen).toNat ∧
        exec .getXy t = .next (answered t .ok
          (BitVec.ofInt 32 ((i / s.cfg.lineLen) * 256 + i % s.cfg.lineLen))) ∧
        MoveFrame s t ∧ t.assertOow = s.assertOow) ∧
      (i % s.cfg.lineLen = x ∧ i / s.cfg.lineLen = y ↔ 0 ≤ x ∧ x < s.cfg.lineLen)) ∧
    (CursorWindowed s →
      ∃ t, exec (.gotoXy x y .rel) s = .next t ∧ AnsweredWith t .ok 0 ∧
        t.cursor.toNat = physOf s.cfg (cellPlus s.cfg (cellOf s.cfg s.cursor.toNat) i) ∧
        MoveFrame s t ∧ t.assertOow = s.assertOow)

/-- 43_position.md R198: PUT_CHAR is WAIT_READY, the byte on the data side, ADVANCE; from a windowed position it moves one
cell on, and inside a row it sends the byte and nothing else. -/
def Obligations.PutChar : Prop :=
  ∀ (s : State) (b : Byte), s.life = .ready →
    ∃ t, exec (.putChar b) s = .next t ∧ execAll [.waitReady, .wrByte .data b, .advance] s = .next t ∧
      AnsweredWith t .ok 0 ∧ MoveFrame s t ∧
      (s.cfg.GeometryOk → CursorWindowed s →
        t.cursor.toNat = physOf s.cfg (cellPlus s.cfg (cellOf s.cfg s.cursor.toNat) 1) ∧
        t.assertOow = s.assertOow ∧
        (s.cfg.PinsOk → colOf s.cfg s.cursor.toNat + 1 ≠ s.cfg.lineLen → ByteSent s t .data b))

/-- 43_position.md R199: PUT_STRING is PUT_CHAR of each staged byte, of the first `4 * LINE_LEN` only; too long for the buffer
is ERR_FAULT with nothing done. -/
def Obligations.PutStringIsPutChars : Prop :=
  ∀ (s : State) (len : Nat), s.life = .ready →
    (s.cfg.bufSize < len → exec (.putString len) s = .next (answered s .errFault 0)) ∧
    (len ≤ s.cfg.bufSize →
      ∃ t, execAll (((List.range (min len (4 * s.cfg.lineLen))).map (Memory.read s.buf)).map .putChar) s = .next t ∧
        exec (.putString len) s = .next (answered t .ok 0))

/-- 43_position.md R200: after PUT_STRING of at most four rows `CURSOR` is where as many ADVANCE lead. -/
def Obligations.PutStringRoundTrip : Prop :=
  ∀ (s : State) (len : Nat), s.life = .ready → len ≤ s.cfg.bufSize → len ≤ 4 * s.cfg.lineLen →
    ∃ t u, exec (.putString len) s = .next t ∧ execAll (List.replicate len .advance) s = .next u ∧
      t.cursor = u.cursor ∧ MoveFrame s t

/-! ### The terminal layer -/

/-- 44_terminal.md R232 to R234, R236: a byte in `NORMAL` mode, the tab apart. -/
def Obligations.NormalBytes : Prop :=
  ∀ s : State, s.life = .ready → s.session = true → s.parseMode = .normal →
    exec (.termByte 0x1B) s = .next (answered { s with parseMode := .escapePending } .ok 0) ∧
    exec (.termByte 0x0A) s = exec (.gotoXy 0 1 .rel) s ∧
    exec (.termByte 0x08) s = exec (.gotoXy (-1) 0 .rel) s ∧
    (∃ u, exec .getXy s = .next u ∧
      exec (.termByte 0x0D) s = exec (.gotoXy (-((s.cursor.toNat % s.cfg.lineLen : Nat) : Int)) 0 .rel) u) ∧
    (∀ b : Byte, b ≠ 0x1B → b ≠ 0x0A → b ≠ 0x08 → b ≠ 0x0D → b ≠ 0x09 →
      exec (.termByte b) s = exec (.putChar b) s)

/-- 44_terminal.md R235: the tab writes between one and four spaces, testing the column after each, and stops at the first
column that is a multiple of 4. -/
def Obligations.TabWritesSpaces : Prop :=
  ∀ s : State, s.life = .ready → s.session = true → s.parseMode = .normal → s.cfg.GeometryOk →
    let spaces := fun n : Nat => (List.replicate n [Instr.putChar 0x20, Instr.getXy]).flatten
    ∃ n t, 1 ≤ n ∧ n ≤ 4 ∧ execAll (spaces n) s = .next t ∧
      exec (.termByte 0x09) s = .next (answered t .ok 0) ∧
      t.cursor.toNat % s.cfg.lineLen % 4 = 0 ∧
      ∀ m u, 1 ≤ m → m < n → execAll (spaces m) s = .next u → u.cursor.toNat % s.cfg.lineLen % 4 ≠ 0

/-- 44_terminal.md R237 to R240: a byte in `ESCAPE_PENDING` mode is one code, and the mode is `NORMAL` first. -/
def Obligations.EscapeCodes : Prop :=
  ∀ s : State, s.life = .ready → s.session = true → s.parseMode = .escapePending →
    let u := { s with parseMode := .normal }
    (exec (.termByte 0x61) s = exec (.displayControl s.displayOn false false) u ∧
      exec (.termByte 0x62) s = exec (.displayControl s.displayOn s.cursorVisible true) u ∧
      exec (.termByte 0x76) s = exec (.displayControl s.displayOn true s.blinkOn) u ∧
      exec (.termByte 0x56) s = exec (.displayControl s.displayOn false s.blinkOn) u) ∧
    (s.cfg.GeometryOk → exec (.termByte 0x48) s = exec (.gotoXy 0 0 .abs) u ∧
      ∃ v, exec .clear u = .next v ∧ exec (.termByte 0x4A) s = exec (.gotoXy 0 0 .abs) v) ∧
    (exec (.termByte 0x42) s = exec (.gotoXy 0 1 .rel) u ∧
      exec (.termByte 0x41) s = exec (.gotoXy 0 (-1) .rel) u ∧
      exec (.termByte 0x44) s = exec (.gotoXy (-1) 0 .rel) u ∧
      exec (.termByte 0x43) s = exec (.gotoXy 1 0 .rel) u) ∧
    (∀ b : Byte, b ∉ [(0x61 : Byte), 0x62, 0x76, 0x56, 0x48, 0x4A, 0x42, 0x41, 0x44, 0x43] →
      exec (.termByte b) s = .next (answered { u with trace := s.trace ++ [.log (.unknownEsc b)] } .ok 0))

/-- 44_terminal.md R231, 10_state.md R36: `ESCAPE_PENDING` is entered only by the byte 0x1B in `NORMAL` mode and left by the
next byte, whatever it is. -/
def Obligations.ParserModes : Prop :=
  ∀ (s : State) (b : Byte), s.life = .ready → s.session = true →
    ∃ t, exec (.termByte b) s = .next t ∧ AnsweredWith t .ok 0 ∧
      (t.parseMode = .escapePending ↔ s.parseMode = .normal ∧ b = 0x1B) ∧ HostFrame s t

/-- 44_terminal.md R232 to R240 with 43_position.md R194: where the cursor is after a byte of the stream, and which bytes
write the display flags. -/
def Obligations.TerminalCursor : Prop :=
  ∀ (s : State) (b : Byte), s.life = .ready → s.session = true → s.cfg.GeometryOk → CursorWindowed s →
    let i := cellOf s.cfg s.cursor.toNat
    let x := colOf s.cfg s.cursor.toNat
    (s.parseMode = .normal →
      ∃ t, exec (.termByte b) s = .next t ∧ AnsweredWith t .ok 0 ∧
        t.cursor.toNat = physOf s.cfg (cellPlus s.cfg i (normalDelta s.cfg.lineLen x b)) ∧
        t.displayOn = s.displayOn ∧ t.cursorVisible = s.cursorVisible ∧ t.blinkOn = s.blinkOn ∧
        t.assertOow = s.assertOow) ∧
    (s.parseMode = .escapePending →
      ∃ t, exec (.termByte b) s = .next t ∧ AnsweredWith t .ok 0 ∧
        t.cursor.toNat = (if b = 0x48 ∨ b = 0x4A then 0
          else physOf s.cfg (cellPlus s.cfg i (escapeDelta s.cfg.lineLen b))) ∧
        t.displayOn = s.displayOn ∧
        t.cursorVisible = (if b = 0x76 then true else if b = 0x61 ∨ b = 0x56 then false else s.cursorVisible) ∧
        t.blinkOn = (if b = 0x62 then true else if b = 0x61 then false else s.blinkOn) ∧
        t.assertOow = s.assertOow)

/-! ### Start-up and the session interface -/

/-- 45_host.md R262, 70_reset_and_hazards.md R332: what STARTUP establishes, whatever the LCD answers. Register-select is 0
without a splash and when the last thing sent was the address at the end of a row, and 1 after a splash that ends inside a
row, the level its last character was sent with: R332 says 0 throughout, and the model follows the steps of R262 and R131
(log 18). -/
def Obligations.StartupEstablishes : Prop :=
  ∀ s : State, s.life = .down → s.reserveOk = true → s.cfg.PinsOk → s.cfg.GeometryOk →
    let n := min s.cfg.splash.length (4 * s.cfg.lineLen)
    let lastNibble := if n = 0 then 0xC
      else if n % s.cfg.lineLen = 0 then s.cfg.baseOf (n / s.cfg.lineLen % s.cfg.nLines) % 16
      else (s.cfg.splash.getD (n - 1) 0).toNat % 16
    ∃ t es, exec .startup s = .next t ∧ AnsweredWith t .ok 0 ∧
      t.life = .ready ∧ t.session = false ∧ t.parseMode = .normal ∧
      t.displayOn = true ∧ t.cursorVisible = false ∧ t.blinkOn = false ∧
      t.cursor.toNat = physOf s.cfg (n % s.cfg.total) ∧ (n = 0 → t.cursor = 0x00) ∧
      t.trace = s.trace ++ es ∧ t.assertOow = false ∧ (t.timeoutSeen = true ↔ Event.log .timeout ∈ es) ∧
      SelectLines t false (n % s.cfg.lineLen ≠ 0) ∧ DataPinsCarry t (BitVec.ofNat 4 lastNibble) ∧
      t.cfg = s.cfg ∧ t.requests = s.requests ∧ t.reserveOk = s.reserveOk ∧ t.bufOk = s.bufOk ∧
      (∀ a, Memory.read t.buf a = Memory.read s.buf a) ∧ ForeignBitsKept s t

/-- 45_host.md R262, 42_display_commands.md R172: STARTUP is the handshake by single nibbles on the reset mirror, then the
five commands, then the splash as characters. -/
def Obligations.StartupSequence : Prop :=
  ∀ s : State, s.life = .down → s.reserveOk = true → s.cfg.PinsOk →
    ∃ h t, SelectLines h false false ∧ DataPinsCarry h 0x2 ∧
      h = { s with
        life := .ready, session := false, parseMode := .normal, cursor := 0x00
        displayOn := false, cursorVisible := false, blinkOn := false, timeoutSeen := false, assertOow := false
        out := h.out, dir := h.dir, foreign := h.foreign, trace := s.trace ++ handshakeTrace s.cfg } ∧
      execAll
        ([.functionSet s.cfg.fsLines s.cfg.fsFont, .displayControl false false false, .clear,
          .entryMode true false, .displayControl true false false] ++
          (s.cfg.splash.take (4 * s.cfg.lineLen)).map .putChar) h = .next t ∧
      exec .startup s = .next t

/-- 42_display_commands.md R172, 70_reset_and_hazards.md R351: with a ready LCD and no splash STARTUP's events are those of
the rule, 188 of them. -/
def Obligations.StartupTrace : Prop :=
  ∀ s : State, s.life = .down → s.reserveOk = true → s.cfg.splash = [] → s.cfg.fsLines = 1 ∨ s.cfg.fsLines = 2 →
    ReadyFor s 5 →
    ∃ t, exec .startup s = .next t ∧ AnsweredWith t .ok 0 ∧ t.trace = s.trace ++ powerOnTrace s ∧
      (powerOnTrace s).length = 188 ∧ t.timeoutSeen = false ∧ SamplesUsed s t 10

/-- 45_host.md R263 to R265: SHUTDOWN, OPEN and CLOSE, each with all its cases, and that nothing else changes. -/
def Obligations.ShutdownOpenClose : Prop :=
  ∀ s : State,
    (s.life = .down → exec .shutdown s = .next (answered s .ok 0)) ∧
    (s.life = .ready →
      (s.session = true →
        exec .shutdown s = .next (answered s .errState 0) ∧ exec .openSession s = .next (answered s .errBusy 0)) ∧
      (s.session = false →
        exec .shutdown s = .next (answered { s with life := .down } .ok 0) ∧
        exec .openSession s = .next (answered { s with session := true, parseMode := .normal } .ok 0)) ∧
      exec .closeSession s = .next (answered { s with session := false } .ok 0))

/-- 45_host.md R266: WRITE needs a session; bytes that cannot be staged are ERR_FAULT with nothing done; else each staged
byte before the first null goes to the terminal layer and the answer is the full length. -/
def Obligations.WriteIsTermBytes : Prop :=
  ∀ (s : State) (len : Nat), s.life = .ready →
    (s.session = false → exec (.write len) s = .next (answered s .errState 0)) ∧
    (s.session = true →
      (s.cfg.bufSize < len ∨ s.bufOk = false → exec (.write len) s = .next (answered s .errFault 0)) ∧
      (len ≤ s.cfg.bufSize → s.bufOk = true →
        ∃ t, execAll
            ((((List.range len).map (Memory.read s.buf)).takeWhile fun b => b != 0x00).map .termByte) s = .next t ∧
          exec (.write len) s = .next (answered t .ok (BitVec.ofNat 32 len)) ∧ HostFrame s t))

/-- 45_host.md R267: SEEK needs a session and an offset within its bounds; then it is GOTO_XY of the offset as a column,
then GET_XY, and answers the cell index after the move. -/
def Obligations.Seek : Prop :=
  ∀ (s : State) (offset : Int), s.life = .ready →
    let total : Int := s.cfg.total
    let answersIndex := fun whence : Mode => ∃ t u, exec (.gotoXy offset 0 whence) s = .next t ∧
      exec .getXy t = .next u ∧
      exec (.seek offset whence) s = .next (answered u .ok (BitVec.ofNat 32 (cellOf s.cfg t.cursor.toNat))) ∧
      MoveFrame s u ∧
      (s.cfg.GeometryOk → CursorWindowed s ∨ whence = .abs →
        cellOf s.cfg t.cursor.toNat =
          cellPlus s.cfg (if whence = .abs then 0 else cellOf s.cfg s.cursor.toNat) offset)
    (s.session = false → ∀ whence, exec (.seek offset whence) s = .next (answered s .errState 0)) ∧
    (s.session = true →
      (0 ≤ offset → offset < total → answersIndex .abs) ∧
      (offset < 0 ∨ total ≤ offset → exec (.seek offset .abs) s = .next (answered s .errInval 0)) ∧
      (-total ≤ offset → offset ≤ total → answersIndex .rel) ∧
      (offset < -total ∨ total < offset → exec (.seek offset .rel) s = .next (answered s .errInval 0)) ∧
      exec (.seek offset .fromEnd) s = .next (answered s .errInval 0))

/-! ### Admission -/

/-- 60_exceptions.md R296: while `LIFE = DOWN` every legal operation but STARTUP and SHUTDOWN is answered ERR_STATE, with
no state change, no PinBank operation and no log. -/
def Obligations.DownAdmitsOnlyStartupAndShutdown : Prop :=
  ∀ (i : Instr) (s : State), s.life = .down → i ≠ .startup → i ≠ .shutdown →
    exec i s = .next (answered s .errState 0)

/-- 60_exceptions.md R297: TERM_BYTE, WRITE and SEEK need a session, SHUTDOWN needs that there is none, and every other
operation but OPEN and CLOSE, which are about the session, and STARTUP, which ends it, ignores `SESSION`. -/
def Obligations.SessionAdmission : Prop :=
  (∀ s : State, s.life = .ready → s.session = false →
    (∀ b, exec (.termByte b) s = .next (answered s .errState 0)) ∧
    (∀ len, exec (.write len) s = .next (answered s .errState 0)) ∧
    (∀ offset whence, exec (.seek offset whence) s = .next (answered s .errState 0))) ∧
  (∀ s : State, s.life = .ready → s.session = true → exec .shutdown s = .next (answered s .errState 0)) ∧
  (∀ (i : Instr) (s t : State) (b : Bool), (∀ v, i ≠ .termByte v) → (∀ len, i ≠ .write len) →
    (∀ offset whence, i ≠ .seek offset whence) → i ≠ .shutdown → i ≠ .openSession → i ≠ .closeSession →
    i ≠ .startup → exec i s = .next t → exec i { s with session := b } = .next { t with session := b })

/-- 60_exceptions.md R298: the illegal word first; then which code a legal operation is answered with; and that one
answered with an error has changed no state and appended nothing to the trace. -/
def Obligations.OrderOfChecks : Prop :=
  (∀ (w : BitVec 32) (s : State), (∀ i, decode w ≠ .ok i) → runWord w s = .next (answered s .errIllegal 0)) ∧
  (∀ (w : BitVec 32) (i : Instr) (s : State), decode w = .ok i →
    ∃ t value, runWord w s = .next t ∧ AnsweredWith t (answerCode i s) value ∧
      (answerCode i s ≠ .ok → t = answered s (answerCode i s) 0)) ∧
  (∀ (i : Instr) (s : State),
    ∃ t value, exec i s = .next t ∧ AnsweredWith t (answerCode i s) value ∧
      (answerCode i s ≠ .ok → t = answered s (answerCode i s) 0))

/-! ### The whole machine -/

/-- 10_state.md R33, R34, R36, R37, R38: only the operations the rules name write each element of the state; nothing writes
the configuration, the buffer or the host's side. -/
def Obligations.WhoWritesWhat : Prop :=
  ∀ (i : Instr) (s t : State), exec i s = .next t →
    (t.cfg = s.cfg ∧ t.requests = s.requests ∧ t.reserveOk = s.reserveOk ∧ t.bufOk = s.bufOk ∧
      ∀ a, Memory.read t.buf a = Memory.read s.buf a) ∧
    (t.life ≠ s.life → i = .startup ∨ i = .shutdown) ∧
    (t.session ≠ s.session → i = .startup ∨ i = .openSession ∨ i = .closeSession) ∧
    (t.parseMode ≠ s.parseMode →
      i = .startup ∨ i = .openSession ∨ (∃ b, i = .termByte b) ∨ ∃ len, i = .write len) ∧
    (t.displayOn ≠ s.displayOn ∨ t.cursorVisible ≠ s.cursorVisible ∨ t.blinkOn ≠ s.blinkOn →
      i = .startup ∨ (∃ d c b, i = .displayControl d c b) ∨ (∃ b, i = .termByte b) ∨ ∃ len, i = .write len) ∧
    (t.cursor ≠ s.cursor →
      i = .startup ∨ i = .clear ∨ i = .home ∨ i = .advance ∨ i = .retreat ∨ (∃ a, i = .setAddress a) ∨
      (∃ x y mode, i = .gotoXy x y mode) ∨ (∃ b, i = .putChar b) ∨ (∃ len, i = .putString len) ∨
      (∃ b, i = .termByte b) ∨ (∃ len, i = .write len) ∨ ∃ offset whence, i = .seek offset whence)

/-- 10_state.md R39: the sticky flags are set exactly when their event is logged, and never cleared except by a STARTUP that
succeeds. -/
def Obligations.StickyFlags : Prop :=
  ∀ (i : Instr) (s t : State), exec i s = .next t →
    ∃ es, t.trace = s.trace ++ es ∧
      let started := i = .startup ∧ s.life = .down ∧ s.reserveOk = true
      (t.timeoutSeen = true ↔ (¬ started ∧ s.timeoutSeen = true) ∨ Event.log .timeout ∈ es) ∧
      (t.assertOow = true ↔ (¬ started ∧ s.assertOow = true) ∨ ∃ p, Event.log (.assertOow p) ∈ es)

/-- 10_state.md R32: only the seven bits under `M_RS | M_RW | M_E | M_DATA` are ever changed in `DIR` and `OUT` by the
block. -/
def Obligations.OnlySevenBits : Prop :=
  ∀ (i : Instr) (s t : State), s.foreign = [] → exec i s = .next t →
    ∀ k, s.cfg.mUsed.testBit k = false →
      t.out.testBit k = s.out.testBit k ∧ t.dir.testBit k = s.dir.testBit k

/-- 10_state.md R43: from a windowed `CURSOR` every operation but SET_ADDRESS of an out-of-window address leaves a windowed
`CURSOR`, and asserts nothing. -/
def Obligations.CursorStaysWindowed : Prop :=
  ∀ (i : Instr) (s t : State), s.cfg.GeometryOk → CursorWindowed s →
    (∀ a, i = .setAddress a → Windowed s.cfg a.toNat) → exec i s = .next t →
    CursorWindowed t ∧ (t.assertOow = true → s.assertOow = true)

/-- 00_scope.md R25, 60_exceptions.md R312, 10_state.md R39: no rule reads what was logged or a sticky flag. Two states that
differ only in the trace and in the sticky flags are answered alike, append the same events, and go on to differ only
there. -/
def Obligations.NoRuleReadsTheLog : Prop :=
  ∀ (i : Instr) (s t : State) (past : List Event) (a b : Bool), exec i s = .next t →
    ∃ es u, t.trace = s.trace ++ es ∧
      exec i { s with trace := past, timeoutSeen := a, assertOow := b } = .next u ∧
      u = { t with trace := past ++ es, timeoutSeen := u.timeoutSeen, assertOow := u.assertOow }

/-- The state before the first STARTUP has the values of 10_state.md R44 and meets the invariant, in every configuration.
`DIR`, `OUT` and `IN`, which the rule leaves unspecified, are the model's choice (log 4). -/
def Obligations.ResetMeetsTheInvariant : Prop :=
  ∀ c : Config, (State.resetIn c).Inv ∧ State.reset.Inv ∧
    (State.resetIn c).life = .down ∧ (State.resetIn c).session = false ∧ (State.resetIn c).parseMode = .normal ∧
    (State.resetIn c).cursor = 0x00 ∧ (State.resetIn c).displayOn = false ∧
    (State.resetIn c).cursorVisible = false ∧ (State.resetIn c).blinkOn = false ∧
    (State.resetIn c).timeoutSeen = false ∧ (State.resetIn c).assertOow = false ∧ (State.resetIn c).seq = .idle

/-- Every step keeps the invariant: the registers stay `REG_W` bits wide, `BUF` stays in canonical form and in range, the
sequencer is idle, a session exists only while the block is up, the control pins stay outputs with enable 0, and an
error's value is 0 (10_state.md R31, R32, R37, R42; 30_encoding.md R96; 60_exceptions.md R305). -/
def Obligations.StepKeepsTheInvariant : Prop :=
  ∀ s t : State, s.Inv → step s = .next t → t.Inv

/-- 70_reset_and_hazards.md R351: the events and the least duration of a character, one command's worth inside a row and two
at its end, and of the power-on sequence with an LCD that is always ready. -/
def Obligations.CharacterAndStartupCosts : Prop :=
  (∀ (s : State) (b : Byte), s.life = .ready → s.cfg.GeometryOk → CursorWindowed s →
    ∃ q timedOut, WaitRun s q timedOut ∧
      (colOf s.cfg s.cursor.toNat + 1 ≠ s.cfg.lineLen →
        Costs (.putChar b) s (waitEvents s.cfg q timedOut + 16) (waitTime s.cfg q + 2 * writeTime s.cfg)) ∧
      (colOf s.cfg s.cursor.toNat + 1 = s.cfg.lineLen →
        ∃ u q' timedOut', execAll [.waitReady, .wrByte .data b] s = .next u ∧ WaitRun u q' timedOut' ∧
          Costs (.putChar b) s
            (waitEvents s.cfg q timedOut + 16 + (waitEvents s.cfg q' timedOut' + 16))
            (waitTime s.cfg q + 2 * writeTime s.cfg + (waitTime s.cfg q' + 2 * writeTime s.cfg)))) ∧
  (∀ s : State, s.life = .down → s.reserveOk = true → s.cfg.splash = [] → ReadyFor s 5 →
    Costs .startup s 188 (s.cfg.dPwr + s.cfg.dInit1 + s.cfg.dInit2 + 2 * s.cfg.dInit3 +
      14 * writeTime s.cfg + 10 * readTime s.cfg))

end
end

