-- ==== Sys2Proof/Laws/State.lean ====
section
/-! SUPPORT. One lemma per field per update of State, each true by definition. -/

namespace Sys2Proof.Machine

/-! ### emit -/

@[simp] theorem emit_cfg (e : Event) (s : State) : (emit e s).cfg = s.cfg := rfl
@[simp] theorem emit_dir (e : Event) (s : State) : (emit e s).dir = s.dir := rfl
@[simp] theorem emit_out (e : Event) (s : State) : (emit e s).out = s.out := rfl
@[simp] theorem emit_inReg (e : Event) (s : State) : (emit e s).inReg = s.inReg := rfl
@[simp] theorem emit_cursor (e : Event) (s : State) : (emit e s).cursor = s.cursor := rfl
@[simp] theorem emit_displayOn (e : Event) (s : State) : (emit e s).displayOn = s.displayOn := rfl
@[simp] theorem emit_cursorVisible (e : Event) (s : State) : (emit e s).cursorVisible = s.cursorVisible := rfl
@[simp] theorem emit_blinkOn (e : Event) (s : State) : (emit e s).blinkOn = s.blinkOn := rfl
@[simp] theorem emit_parseMode (e : Event) (s : State) : (emit e s).parseMode = s.parseMode := rfl
@[simp] theorem emit_session (e : Event) (s : State) : (emit e s).session = s.session := rfl
@[simp] theorem emit_life (e : Event) (s : State) : (emit e s).life = s.life := rfl
@[simp] theorem emit_timeoutSeen (e : Event) (s : State) : (emit e s).timeoutSeen = s.timeoutSeen := rfl
@[simp] theorem emit_assertOow (e : Event) (s : State) : (emit e s).assertOow = s.assertOow := rfl
@[simp] theorem emit_seq (e : Event) (s : State) : (emit e s).seq = s.seq := rfl
@[simp] theorem emit_buf (e : Event) (s : State) : (emit e s).buf = s.buf := rfl
@[simp] theorem emit_trace (e : Event) (s : State) : (emit e s).trace = s.trace ++ [e] := rfl
@[simp] theorem emit_response (e : Event) (s : State) : (emit e s).response = s.response := rfl
@[simp] theorem emit_requests (e : Event) (s : State) : (emit e s).requests = s.requests := rfl
@[simp] theorem emit_reserveOk (e : Event) (s : State) : (emit e s).reserveOk = s.reserveOk := rfl
@[simp] theorem emit_bufOk (e : Event) (s : State) : (emit e s).bufOk = s.bufOk := rfl
@[simp] theorem emit_samples (e : Event) (s : State) : (emit e s).samples = s.samples := rfl
@[simp] theorem emit_sampleCount (e : Event) (s : State) : (emit e s).sampleCount = s.sampleCount := rfl
@[simp] theorem emit_foreign (e : Event) (s : State) : (emit e s).foreign = s.foreign := rfl

/-! ### delay -/

@[simp] theorem delay_cfg (d : DelayName) (s : State) : (delay d s).cfg = s.cfg := rfl
@[simp] theorem delay_dir (d : DelayName) (s : State) : (delay d s).dir = s.dir := rfl
@[simp] theorem delay_out (d : DelayName) (s : State) : (delay d s).out = s.out := rfl
@[simp] theorem delay_inReg (d : DelayName) (s : State) : (delay d s).inReg = s.inReg := rfl
@[simp] theorem delay_cursor (d : DelayName) (s : State) : (delay d s).cursor = s.cursor := rfl
@[simp] theorem delay_displayOn (d : DelayName) (s : State) : (delay d s).displayOn = s.displayOn := rfl
@[simp] theorem delay_cursorVisible (d : DelayName) (s : State) : (delay d s).cursorVisible = s.cursorVisible := rfl
@[simp] theorem delay_blinkOn (d : DelayName) (s : State) : (delay d s).blinkOn = s.blinkOn := rfl
@[simp] theorem delay_parseMode (d : DelayName) (s : State) : (delay d s).parseMode = s.parseMode := rfl
@[simp] theorem delay_session (d : DelayName) (s : State) : (delay d s).session = s.session := rfl
@[simp] theorem delay_life (d : DelayName) (s : State) : (delay d s).life = s.life := rfl
@[simp] theorem delay_timeoutSeen (d : DelayName) (s : State) : (delay d s).timeoutSeen = s.timeoutSeen := rfl
@[simp] theorem delay_assertOow (d : DelayName) (s : State) : (delay d s).assertOow = s.assertOow := rfl
@[simp] theorem delay_seq (d : DelayName) (s : State) : (delay d s).seq = s.seq := rfl
@[simp] theorem delay_buf (d : DelayName) (s : State) : (delay d s).buf = s.buf := rfl
@[simp] theorem delay_trace (d : DelayName) (s : State) : (delay d s).trace = s.trace ++ [.delay d] := rfl
@[simp] theorem delay_response (d : DelayName) (s : State) : (delay d s).response = s.response := rfl
@[simp] theorem delay_requests (d : DelayName) (s : State) : (delay d s).requests = s.requests := rfl
@[simp] theorem delay_reserveOk (d : DelayName) (s : State) : (delay d s).reserveOk = s.reserveOk := rfl
@[simp] theorem delay_bufOk (d : DelayName) (s : State) : (delay d s).bufOk = s.bufOk := rfl
@[simp] theorem delay_samples (d : DelayName) (s : State) : (delay d s).samples = s.samples := rfl
@[simp] theorem delay_sampleCount (d : DelayName) (s : State) : (delay d s).sampleCount = s.sampleCount := rfl
@[simp] theorem delay_foreign (d : DelayName) (s : State) : (delay d s).foreign = s.foreign := rfl

/-! ### log -/

@[simp] theorem log_cfg (e : LogEvent) (s : State) : (log e s).cfg = s.cfg := rfl
@[simp] theorem log_dir (e : LogEvent) (s : State) : (log e s).dir = s.dir := rfl
@[simp] theorem log_out (e : LogEvent) (s : State) : (log e s).out = s.out := rfl
@[simp] theorem log_inReg (e : LogEvent) (s : State) : (log e s).inReg = s.inReg := rfl
@[simp] theorem log_cursor (e : LogEvent) (s : State) : (log e s).cursor = s.cursor := rfl
@[simp] theorem log_displayOn (e : LogEvent) (s : State) : (log e s).displayOn = s.displayOn := rfl
@[simp] theorem log_cursorVisible (e : LogEvent) (s : State) : (log e s).cursorVisible = s.cursorVisible := rfl
@[simp] theorem log_blinkOn (e : LogEvent) (s : State) : (log e s).blinkOn = s.blinkOn := rfl
@[simp] theorem log_parseMode (e : LogEvent) (s : State) : (log e s).parseMode = s.parseMode := rfl
@[simp] theorem log_session (e : LogEvent) (s : State) : (log e s).session = s.session := rfl
@[simp] theorem log_life (e : LogEvent) (s : State) : (log e s).life = s.life := rfl
@[simp] theorem log_timeoutSeen (e : LogEvent) (s : State) : (log e s).timeoutSeen = s.timeoutSeen := rfl
@[simp] theorem log_assertOow (e : LogEvent) (s : State) : (log e s).assertOow = s.assertOow := rfl
@[simp] theorem log_seq (e : LogEvent) (s : State) : (log e s).seq = s.seq := rfl
@[simp] theorem log_buf (e : LogEvent) (s : State) : (log e s).buf = s.buf := rfl
@[simp] theorem log_trace (e : LogEvent) (s : State) : (log e s).trace = s.trace ++ [.log e] := rfl
@[simp] theorem log_response (e : LogEvent) (s : State) : (log e s).response = s.response := rfl
@[simp] theorem log_requests (e : LogEvent) (s : State) : (log e s).requests = s.requests := rfl
@[simp] theorem log_reserveOk (e : LogEvent) (s : State) : (log e s).reserveOk = s.reserveOk := rfl
@[simp] theorem log_bufOk (e : LogEvent) (s : State) : (log e s).bufOk = s.bufOk := rfl
@[simp] theorem log_samples (e : LogEvent) (s : State) : (log e s).samples = s.samples := rfl
@[simp] theorem log_sampleCount (e : LogEvent) (s : State) : (log e s).sampleCount = s.sampleCount := rfl
@[simp] theorem log_foreign (e : LogEvent) (s : State) : (log e s).foreign = s.foreign := rfl

/-! ### regWrite_dir -/

@[simp] theorem regWrite_dir_cfg (v : Word) (s : State) : (regWrite .dir v s).cfg = s.cfg := rfl
@[simp] theorem regWrite_dir_dir (v : Word) (s : State) : (regWrite .dir v s).dir = v := rfl
@[simp] theorem regWrite_dir_out (v : Word) (s : State) : (regWrite .dir v s).out = s.out := rfl
@[simp] theorem regWrite_dir_inReg (v : Word) (s : State) : (regWrite .dir v s).inReg = s.inReg := rfl
@[simp] theorem regWrite_dir_cursor (v : Word) (s : State) : (regWrite .dir v s).cursor = s.cursor := rfl
@[simp] theorem regWrite_dir_displayOn (v : Word) (s : State) : (regWrite .dir v s).displayOn = s.displayOn := rfl
@[simp] theorem regWrite_dir_cursorVisible (v : Word) (s : State) : (regWrite .dir v s).cursorVisible = s.cursorVisible := rfl
@[simp] theorem regWrite_dir_blinkOn (v : Word) (s : State) : (regWrite .dir v s).blinkOn = s.blinkOn := rfl
@[simp] theorem regWrite_dir_parseMode (v : Word) (s : State) : (regWrite .dir v s).parseMode = s.parseMode := rfl
@[simp] theorem regWrite_dir_session (v : Word) (s : State) : (regWrite .dir v s).session = s.session := rfl
@[simp] theorem regWrite_dir_life (v : Word) (s : State) : (regWrite .dir v s).life = s.life := rfl
@[simp] theorem regWrite_dir_timeoutSeen (v : Word) (s : State) : (regWrite .dir v s).timeoutSeen = s.timeoutSeen := rfl
@[simp] theorem regWrite_dir_assertOow (v : Word) (s : State) : (regWrite .dir v s).assertOow = s.assertOow := rfl
@[simp] theorem regWrite_dir_seq (v : Word) (s : State) : (regWrite .dir v s).seq = s.seq := rfl
@[simp] theorem regWrite_dir_buf (v : Word) (s : State) : (regWrite .dir v s).buf = s.buf := rfl
@[simp] theorem regWrite_dir_trace (v : Word) (s : State) : (regWrite .dir v s).trace = s.trace := rfl
@[simp] theorem regWrite_dir_response (v : Word) (s : State) : (regWrite .dir v s).response = s.response := rfl
@[simp] theorem regWrite_dir_requests (v : Word) (s : State) : (regWrite .dir v s).requests = s.requests := rfl
@[simp] theorem regWrite_dir_reserveOk (v : Word) (s : State) : (regWrite .dir v s).reserveOk = s.reserveOk := rfl
@[simp] theorem regWrite_dir_bufOk (v : Word) (s : State) : (regWrite .dir v s).bufOk = s.bufOk := rfl
@[simp] theorem regWrite_dir_samples (v : Word) (s : State) : (regWrite .dir v s).samples = s.samples := rfl
@[simp] theorem regWrite_dir_sampleCount (v : Word) (s : State) : (regWrite .dir v s).sampleCount = s.sampleCount := rfl
@[simp] theorem regWrite_dir_foreign (v : Word) (s : State) : (regWrite .dir v s).foreign = s.foreign := rfl

/-! ### regWrite_out -/

@[simp] theorem regWrite_out_cfg (v : Word) (s : State) : (regWrite .out v s).cfg = s.cfg := rfl
@[simp] theorem regWrite_out_dir (v : Word) (s : State) : (regWrite .out v s).dir = s.dir := rfl
@[simp] theorem regWrite_out_out (v : Word) (s : State) : (regWrite .out v s).out = v := rfl
@[simp] theorem regWrite_out_inReg (v : Word) (s : State) : (regWrite .out v s).inReg = s.inReg := rfl
@[simp] theorem regWrite_out_cursor (v : Word) (s : State) : (regWrite .out v s).cursor = s.cursor := rfl
@[simp] theorem regWrite_out_displayOn (v : Word) (s : State) : (regWrite .out v s).displayOn = s.displayOn := rfl
@[simp] theorem regWrite_out_cursorVisible (v : Word) (s : State) : (regWrite .out v s).cursorVisible = s.cursorVisible := rfl
@[simp] theorem regWrite_out_blinkOn (v : Word) (s : State) : (regWrite .out v s).blinkOn = s.blinkOn := rfl
@[simp] theorem regWrite_out_parseMode (v : Word) (s : State) : (regWrite .out v s).parseMode = s.parseMode := rfl
@[simp] theorem regWrite_out_session (v : Word) (s : State) : (regWrite .out v s).session = s.session := rfl
@[simp] theorem regWrite_out_life (v : Word) (s : State) : (regWrite .out v s).life = s.life := rfl
@[simp] theorem regWrite_out_timeoutSeen (v : Word) (s : State) : (regWrite .out v s).timeoutSeen = s.timeoutSeen := rfl
@[simp] theorem regWrite_out_assertOow (v : Word) (s : State) : (regWrite .out v s).assertOow = s.assertOow := rfl
@[simp] theorem regWrite_out_seq (v : Word) (s : State) : (regWrite .out v s).seq = s.seq := rfl
@[simp] theorem regWrite_out_buf (v : Word) (s : State) : (regWrite .out v s).buf = s.buf := rfl
@[simp] theorem regWrite_out_trace (v : Word) (s : State) : (regWrite .out v s).trace = s.trace := rfl
@[simp] theorem regWrite_out_response (v : Word) (s : State) : (regWrite .out v s).response = s.response := rfl
@[simp] theorem regWrite_out_requests (v : Word) (s : State) : (regWrite .out v s).requests = s.requests := rfl
@[simp] theorem regWrite_out_reserveOk (v : Word) (s : State) : (regWrite .out v s).reserveOk = s.reserveOk := rfl
@[simp] theorem regWrite_out_bufOk (v : Word) (s : State) : (regWrite .out v s).bufOk = s.bufOk := rfl
@[simp] theorem regWrite_out_samples (v : Word) (s : State) : (regWrite .out v s).samples = s.samples := rfl
@[simp] theorem regWrite_out_sampleCount (v : Word) (s : State) : (regWrite .out v s).sampleCount = s.sampleCount := rfl
@[simp] theorem regWrite_out_foreign (v : Word) (s : State) : (regWrite .out v s).foreign = s.foreign := rfl

/-! ### samplePins -/

@[simp] theorem samplePins_cfg (s : State) : (samplePins s).cfg = s.cfg := rfl
@[simp] theorem samplePins_dir (s : State) : (samplePins s).dir = s.dir := rfl
@[simp] theorem samplePins_out (s : State) : (samplePins s).out = s.out := rfl
@[simp] theorem samplePins_inReg (s : State) : (samplePins s).inReg = nextSample s := rfl
@[simp] theorem samplePins_cursor (s : State) : (samplePins s).cursor = s.cursor := rfl
@[simp] theorem samplePins_displayOn (s : State) : (samplePins s).displayOn = s.displayOn := rfl
@[simp] theorem samplePins_cursorVisible (s : State) : (samplePins s).cursorVisible = s.cursorVisible := rfl
@[simp] theorem samplePins_blinkOn (s : State) : (samplePins s).blinkOn = s.blinkOn := rfl
@[simp] theorem samplePins_parseMode (s : State) : (samplePins s).parseMode = s.parseMode := rfl
@[simp] theorem samplePins_session (s : State) : (samplePins s).session = s.session := rfl
@[simp] theorem samplePins_life (s : State) : (samplePins s).life = s.life := rfl
@[simp] theorem samplePins_timeoutSeen (s : State) : (samplePins s).timeoutSeen = s.timeoutSeen := rfl
@[simp] theorem samplePins_assertOow (s : State) : (samplePins s).assertOow = s.assertOow := rfl
@[simp] theorem samplePins_seq (s : State) : (samplePins s).seq = s.seq := rfl
@[simp] theorem samplePins_buf (s : State) : (samplePins s).buf = s.buf := rfl
@[simp] theorem samplePins_trace (s : State) : (samplePins s).trace = s.trace := rfl
@[simp] theorem samplePins_response (s : State) : (samplePins s).response = s.response := rfl
@[simp] theorem samplePins_requests (s : State) : (samplePins s).requests = s.requests := rfl
@[simp] theorem samplePins_reserveOk (s : State) : (samplePins s).reserveOk = s.reserveOk := rfl
@[simp] theorem samplePins_bufOk (s : State) : (samplePins s).bufOk = s.bufOk := rfl
@[simp] theorem samplePins_samples (s : State) : (samplePins s).samples = s.samples.tail := rfl
@[simp] theorem samplePins_sampleCount (s : State) : (samplePins s).sampleCount = s.sampleCount + 1 := rfl
@[simp] theorem samplePins_foreign (s : State) : (samplePins s).foreign = s.foreign := rfl

/-! ### respond -/

@[simp] theorem respond_cfg (c : Code) (v : BitVec 32) (s : State) : (respond c v s).cfg = s.cfg := rfl
@[simp] theorem respond_dir (c : Code) (v : BitVec 32) (s : State) : (respond c v s).dir = s.dir := rfl
@[simp] theorem respond_out (c : Code) (v : BitVec 32) (s : State) : (respond c v s).out = s.out := rfl
@[simp] theorem respond_inReg (c : Code) (v : BitVec 32) (s : State) : (respond c v s).inReg = s.inReg := rfl
@[simp] theorem respond_cursor (c : Code) (v : BitVec 32) (s : State) : (respond c v s).cursor = s.cursor := rfl
@[simp] theorem respond_displayOn (c : Code) (v : BitVec 32) (s : State) : (respond c v s).displayOn = s.displayOn := rfl
@[simp] theorem respond_cursorVisible (c : Code) (v : BitVec 32) (s : State) : (respond c v s).cursorVisible = s.cursorVisible := rfl
@[simp] theorem respond_blinkOn (c : Code) (v : BitVec 32) (s : State) : (respond c v s).blinkOn = s.blinkOn := rfl
@[simp] theorem respond_parseMode (c : Code) (v : BitVec 32) (s : State) : (respond c v s).parseMode = s.parseMode := rfl
@[simp] theorem respond_session (c : Code) (v : BitVec 32) (s : State) : (respond c v s).session = s.session := rfl
@[simp] theorem respond_life (c : Code) (v : BitVec 32) (s : State) : (respond c v s).life = s.life := rfl
@[simp] theorem respond_timeoutSeen (c : Code) (v : BitVec 32) (s : State) : (respond c v s).timeoutSeen = s.timeoutSeen := rfl
@[simp] theorem respond_assertOow (c : Code) (v : BitVec 32) (s : State) : (respond c v s).assertOow = s.assertOow := rfl
@[simp] theorem respond_seq (c : Code) (v : BitVec 32) (s : State) : (respond c v s).seq = .idle := rfl
@[simp] theorem respond_buf (c : Code) (v : BitVec 32) (s : State) : (respond c v s).buf = s.buf := rfl
@[simp] theorem respond_trace (c : Code) (v : BitVec 32) (s : State) : (respond c v s).trace = s.trace := rfl
@[simp] theorem respond_response (c : Code) (v : BitVec 32) (s : State) : (respond c v s).response = some { code := c, value := v } := rfl
@[simp] theorem respond_requests (c : Code) (v : BitVec 32) (s : State) : (respond c v s).requests = s.requests := rfl
@[simp] theorem respond_reserveOk (c : Code) (v : BitVec 32) (s : State) : (respond c v s).reserveOk = s.reserveOk := rfl
@[simp] theorem respond_bufOk (c : Code) (v : BitVec 32) (s : State) : (respond c v s).bufOk = s.bufOk := rfl
@[simp] theorem respond_samples (c : Code) (v : BitVec 32) (s : State) : (respond c v s).samples = s.samples := rfl
@[simp] theorem respond_sampleCount (c : Code) (v : BitVec 32) (s : State) : (respond c v s).sampleCount = s.sampleCount := rfl
@[simp] theorem respond_foreign (c : Code) (v : BitVec 32) (s : State) : (respond c v s).foreign = s.foreign := rfl

/-! ### setDisplayFlags -/

@[simp] theorem setDisplayFlags_cfg (d c b : Bool) (s : State) : (setDisplayFlags d c b s).cfg = s.cfg := rfl
@[simp] theorem setDisplayFlags_dir (d c b : Bool) (s : State) : (setDisplayFlags d c b s).dir = s.dir := rfl
@[simp] theorem setDisplayFlags_out (d c b : Bool) (s : State) : (setDisplayFlags d c b s).out = s.out := rfl
@[simp] theorem setDisplayFlags_inReg (d c b : Bool) (s : State) : (setDisplayFlags d c b s).inReg = s.inReg := rfl
@[simp] theorem setDisplayFlags_cursor (d c b : Bool) (s : State) : (setDisplayFlags d c b s).cursor = s.cursor := rfl
@[simp] theorem setDisplayFlags_displayOn (d c b : Bool) (s : State) : (setDisplayFlags d c b s).displayOn = d := rfl
@[simp] theorem setDisplayFlags_cursorVisible (d c b : Bool) (s : State) : (setDisplayFlags d c b s).cursorVisible = c := rfl
@[simp] theorem setDisplayFlags_blinkOn (d c b : Bool) (s : State) : (setDisplayFlags d c b s).blinkOn = b := rfl
@[simp] theorem setDisplayFlags_parseMode (d c b : Bool) (s : State) : (setDisplayFlags d c b s).parseMode = s.parseMode := rfl
@[simp] theorem setDisplayFlags_session (d c b : Bool) (s : State) : (setDisplayFlags d c b s).session = s.session := rfl
@[simp] theorem setDisplayFlags_life (d c b : Bool) (s : State) : (setDisplayFlags d c b s).life = s.life := rfl
@[simp] theorem setDisplayFlags_timeoutSeen (d c b : Bool) (s : State) : (setDisplayFlags d c b s).timeoutSeen = s.timeoutSeen := rfl
@[simp] theorem setDisplayFlags_assertOow (d c b : Bool) (s : State) : (setDisplayFlags d c b s).assertOow = s.assertOow := rfl
@[simp] theorem setDisplayFlags_seq (d c b : Bool) (s : State) : (setDisplayFlags d c b s).seq = s.seq := rfl
@[simp] theorem setDisplayFlags_buf (d c b : Bool) (s : State) : (setDisplayFlags d c b s).buf = s.buf := rfl
@[simp] theorem setDisplayFlags_trace (d c b : Bool) (s : State) : (setDisplayFlags d c b s).trace = s.trace := rfl
@[simp] theorem setDisplayFlags_response (d c b : Bool) (s : State) : (setDisplayFlags d c b s).response = s.response := rfl
@[simp] theorem setDisplayFlags_requests (d c b : Bool) (s : State) : (setDisplayFlags d c b s).requests = s.requests := rfl
@[simp] theorem setDisplayFlags_reserveOk (d c b : Bool) (s : State) : (setDisplayFlags d c b s).reserveOk = s.reserveOk := rfl
@[simp] theorem setDisplayFlags_bufOk (d c b : Bool) (s : State) : (setDisplayFlags d c b s).bufOk = s.bufOk := rfl
@[simp] theorem setDisplayFlags_samples (d c b : Bool) (s : State) : (setDisplayFlags d c b s).samples = s.samples := rfl
@[simp] theorem setDisplayFlags_sampleCount (d c b : Bool) (s : State) : (setDisplayFlags d c b s).sampleCount = s.sampleCount := rfl
@[simp] theorem setDisplayFlags_foreign (d c b : Bool) (s : State) : (setDisplayFlags d c b s).foreign = s.foreign := rfl

/-! ### markTimeout -/

@[simp] theorem markTimeout_cfg (s : State) : (markTimeout s).cfg = s.cfg := rfl
@[simp] theorem markTimeout_dir (s : State) : (markTimeout s).dir = s.dir := rfl
@[simp] theorem markTimeout_out (s : State) : (markTimeout s).out = s.out := rfl
@[simp] theorem markTimeout_inReg (s : State) : (markTimeout s).inReg = s.inReg := rfl
@[simp] theorem markTimeout_cursor (s : State) : (markTimeout s).cursor = s.cursor := rfl
@[simp] theorem markTimeout_displayOn (s : State) : (markTimeout s).displayOn = s.displayOn := rfl
@[simp] theorem markTimeout_cursorVisible (s : State) : (markTimeout s).cursorVisible = s.cursorVisible := rfl
@[simp] theorem markTimeout_blinkOn (s : State) : (markTimeout s).blinkOn = s.blinkOn := rfl
@[simp] theorem markTimeout_parseMode (s : State) : (markTimeout s).parseMode = s.parseMode := rfl
@[simp] theorem markTimeout_session (s : State) : (markTimeout s).session = s.session := rfl
@[simp] theorem markTimeout_life (s : State) : (markTimeout s).life = s.life := rfl
@[simp] theorem markTimeout_timeoutSeen (s : State) : (markTimeout s).timeoutSeen = true := rfl
@[simp] theorem markTimeout_assertOow (s : State) : (markTimeout s).assertOow = s.assertOow := rfl
@[simp] theorem markTimeout_seq (s : State) : (markTimeout s).seq = s.seq := rfl
@[simp] theorem markTimeout_buf (s : State) : (markTimeout s).buf = s.buf := rfl
@[simp] theorem markTimeout_trace (s : State) : (markTimeout s).trace = s.trace ++ [.log .timeout] := rfl
@[simp] theorem markTimeout_response (s : State) : (markTimeout s).response = s.response := rfl
@[simp] theorem markTimeout_requests (s : State) : (markTimeout s).requests = s.requests := rfl
@[simp] theorem markTimeout_reserveOk (s : State) : (markTimeout s).reserveOk = s.reserveOk := rfl
@[simp] theorem markTimeout_bufOk (s : State) : (markTimeout s).bufOk = s.bufOk := rfl
@[simp] theorem markTimeout_samples (s : State) : (markTimeout s).samples = s.samples := rfl
@[simp] theorem markTimeout_sampleCount (s : State) : (markTimeout s).sampleCount = s.sampleCount := rfl
@[simp] theorem markTimeout_foreign (s : State) : (markTimeout s).foreign = s.foreign := rfl

/-! ### markOutOfWindow -/

@[simp] theorem markOutOfWindow_cfg (p : Addr) (s : State) : (markOutOfWindow p s).cfg = s.cfg := rfl
@[simp] theorem markOutOfWindow_dir (p : Addr) (s : State) : (markOutOfWindow p s).dir = s.dir := rfl
@[simp] theorem markOutOfWindow_out (p : Addr) (s : State) : (markOutOfWindow p s).out = s.out := rfl
@[simp] theorem markOutOfWindow_inReg (p : Addr) (s : State) : (markOutOfWindow p s).inReg = s.inReg := rfl
@[simp] theorem markOutOfWindow_cursor (p : Addr) (s : State) : (markOutOfWindow p s).cursor = s.cursor := rfl
@[simp] theorem markOutOfWindow_displayOn (p : Addr) (s : State) : (markOutOfWindow p s).displayOn = s.displayOn := rfl
@[simp] theorem markOutOfWindow_cursorVisible (p : Addr) (s : State) : (markOutOfWindow p s).cursorVisible = s.cursorVisible := rfl
@[simp] theorem markOutOfWindow_blinkOn (p : Addr) (s : State) : (markOutOfWindow p s).blinkOn = s.blinkOn := rfl
@[simp] theorem markOutOfWindow_parseMode (p : Addr) (s : State) : (markOutOfWindow p s).parseMode = s.parseMode := rfl
@[simp] theorem markOutOfWindow_session (p : Addr) (s : State) : (markOutOfWindow p s).session = s.session := rfl
@[simp] theorem markOutOfWindow_life (p : Addr) (s : State) : (markOutOfWindow p s).life = s.life := rfl
@[simp] theorem markOutOfWindow_timeoutSeen (p : Addr) (s : State) : (markOutOfWindow p s).timeoutSeen = s.timeoutSeen := rfl
@[simp] theorem markOutOfWindow_assertOow (p : Addr) (s : State) : (markOutOfWindow p s).assertOow = true := rfl
@[simp] theorem markOutOfWindow_seq (p : Addr) (s : State) : (markOutOfWindow p s).seq = s.seq := rfl
@[simp] theorem markOutOfWindow_buf (p : Addr) (s : State) : (markOutOfWindow p s).buf = s.buf := rfl
@[simp] theorem markOutOfWindow_trace (p : Addr) (s : State) : (markOutOfWindow p s).trace = s.trace ++ [.log (.assertOow p)] := rfl
@[simp] theorem markOutOfWindow_response (p : Addr) (s : State) : (markOutOfWindow p s).response = s.response := rfl
@[simp] theorem markOutOfWindow_requests (p : Addr) (s : State) : (markOutOfWindow p s).requests = s.requests := rfl
@[simp] theorem markOutOfWindow_reserveOk (p : Addr) (s : State) : (markOutOfWindow p s).reserveOk = s.reserveOk := rfl
@[simp] theorem markOutOfWindow_bufOk (p : Addr) (s : State) : (markOutOfWindow p s).bufOk = s.bufOk := rfl
@[simp] theorem markOutOfWindow_samples (p : Addr) (s : State) : (markOutOfWindow p s).samples = s.samples := rfl
@[simp] theorem markOutOfWindow_sampleCount (p : Addr) (s : State) : (markOutOfWindow p s).sampleCount = s.sampleCount := rfl
@[simp] theorem markOutOfWindow_foreign (p : Addr) (s : State) : (markOutOfWindow p s).foreign = s.foreign := rfl

/-! ### setCursor -/

@[simp] theorem setCursor_cfg (a : Addr) (s : State) : (setCursor a s).cfg = s.cfg := rfl
@[simp] theorem setCursor_dir (a : Addr) (s : State) : (setCursor a s).dir = s.dir := rfl
@[simp] theorem setCursor_out (a : Addr) (s : State) : (setCursor a s).out = s.out := rfl
@[simp] theorem setCursor_inReg (a : Addr) (s : State) : (setCursor a s).inReg = s.inReg := rfl
@[simp] theorem setCursor_cursor (a : Addr) (s : State) : (setCursor a s).cursor = a := rfl
@[simp] theorem setCursor_displayOn (a : Addr) (s : State) : (setCursor a s).displayOn = s.displayOn := rfl
@[simp] theorem setCursor_cursorVisible (a : Addr) (s : State) : (setCursor a s).cursorVisible = s.cursorVisible := rfl
@[simp] theorem setCursor_blinkOn (a : Addr) (s : State) : (setCursor a s).blinkOn = s.blinkOn := rfl
@[simp] theorem setCursor_parseMode (a : Addr) (s : State) : (setCursor a s).parseMode = s.parseMode := rfl
@[simp] theorem setCursor_session (a : Addr) (s : State) : (setCursor a s).session = s.session := rfl
@[simp] theorem setCursor_life (a : Addr) (s : State) : (setCursor a s).life = s.life := rfl
@[simp] theorem setCursor_timeoutSeen (a : Addr) (s : State) : (setCursor a s).timeoutSeen = s.timeoutSeen := rfl
@[simp] theorem setCursor_assertOow (a : Addr) (s : State) : (setCursor a s).assertOow = s.assertOow := rfl
@[simp] theorem setCursor_seq (a : Addr) (s : State) : (setCursor a s).seq = s.seq := rfl
@[simp] theorem setCursor_buf (a : Addr) (s : State) : (setCursor a s).buf = s.buf := rfl
@[simp] theorem setCursor_trace (a : Addr) (s : State) : (setCursor a s).trace = s.trace := rfl
@[simp] theorem setCursor_response (a : Addr) (s : State) : (setCursor a s).response = s.response := rfl
@[simp] theorem setCursor_requests (a : Addr) (s : State) : (setCursor a s).requests = s.requests := rfl
@[simp] theorem setCursor_reserveOk (a : Addr) (s : State) : (setCursor a s).reserveOk = s.reserveOk := rfl
@[simp] theorem setCursor_bufOk (a : Addr) (s : State) : (setCursor a s).bufOk = s.bufOk := rfl
@[simp] theorem setCursor_samples (a : Addr) (s : State) : (setCursor a s).samples = s.samples := rfl
@[simp] theorem setCursor_sampleCount (a : Addr) (s : State) : (setCursor a s).sampleCount = s.sampleCount := rfl
@[simp] theorem setCursor_foreign (a : Addr) (s : State) : (setCursor a s).foreign = s.foreign := rfl

/-! ### setParseMode -/

@[simp] theorem setParseMode_cfg (m : ParseMode) (s : State) : (setParseMode m s).cfg = s.cfg := rfl
@[simp] theorem setParseMode_dir (m : ParseMode) (s : State) : (setParseMode m s).dir = s.dir := rfl
@[simp] theorem setParseMode_out (m : ParseMode) (s : State) : (setParseMode m s).out = s.out := rfl
@[simp] theorem setParseMode_inReg (m : ParseMode) (s : State) : (setParseMode m s).inReg = s.inReg := rfl
@[simp] theorem setParseMode_cursor (m : ParseMode) (s : State) : (setParseMode m s).cursor = s.cursor := rfl
@[simp] theorem setParseMode_displayOn (m : ParseMode) (s : State) : (setParseMode m s).displayOn = s.displayOn := rfl
@[simp] theorem setParseMode_cursorVisible (m : ParseMode) (s : State) : (setParseMode m s).cursorVisible = s.cursorVisible := rfl
@[simp] theorem setParseMode_blinkOn (m : ParseMode) (s : State) : (setParseMode m s).blinkOn = s.blinkOn := rfl
@[simp] theorem setParseMode_parseMode (m : ParseMode) (s : State) : (setParseMode m s).parseMode = m := rfl
@[simp] theorem setParseMode_session (m : ParseMode) (s : State) : (setParseMode m s).session = s.session := rfl
@[simp] theorem setParseMode_life (m : ParseMode) (s : State) : (setParseMode m s).life = s.life := rfl
@[simp] theorem setParseMode_timeoutSeen (m : ParseMode) (s : State) : (setParseMode m s).timeoutSeen = s.timeoutSeen := rfl
@[simp] theorem setParseMode_assertOow (m : ParseMode) (s : State) : (setParseMode m s).assertOow = s.assertOow := rfl
@[simp] theorem setParseMode_seq (m : ParseMode) (s : State) : (setParseMode m s).seq = s.seq := rfl
@[simp] theorem setParseMode_buf (m : ParseMode) (s : State) : (setParseMode m s).buf = s.buf := rfl
@[simp] theorem setParseMode_trace (m : ParseMode) (s : State) : (setParseMode m s).trace = s.trace := rfl
@[simp] theorem setParseMode_response (m : ParseMode) (s : State) : (setParseMode m s).response = s.response := rfl
@[simp] theorem setParseMode_requests (m : ParseMode) (s : State) : (setParseMode m s).requests = s.requests := rfl
@[simp] theorem setParseMode_reserveOk (m : ParseMode) (s : State) : (setParseMode m s).reserveOk = s.reserveOk := rfl
@[simp] theorem setParseMode_bufOk (m : ParseMode) (s : State) : (setParseMode m s).bufOk = s.bufOk := rfl
@[simp] theorem setParseMode_samples (m : ParseMode) (s : State) : (setParseMode m s).samples = s.samples := rfl
@[simp] theorem setParseMode_sampleCount (m : ParseMode) (s : State) : (setParseMode m s).sampleCount = s.sampleCount := rfl
@[simp] theorem setParseMode_foreign (m : ParseMode) (s : State) : (setParseMode m s).foreign = s.foreign := rfl

/-! ### setSession -/

@[simp] theorem setSession_cfg (b : Bool) (s : State) : (setSession b s).cfg = s.cfg := rfl
@[simp] theorem setSession_dir (b : Bool) (s : State) : (setSession b s).dir = s.dir := rfl
@[simp] theorem setSession_out (b : Bool) (s : State) : (setSession b s).out = s.out := rfl
@[simp] theorem setSession_inReg (b : Bool) (s : State) : (setSession b s).inReg = s.inReg := rfl
@[simp] theorem setSession_cursor (b : Bool) (s : State) : (setSession b s).cursor = s.cursor := rfl
@[simp] theorem setSession_displayOn (b : Bool) (s : State) : (setSession b s).displayOn = s.displayOn := rfl
@[simp] theorem setSession_cursorVisible (b : Bool) (s : State) : (setSession b s).cursorVisible = s.cursorVisible := rfl
@[simp] theorem setSession_blinkOn (b : Bool) (s : State) : (setSession b s).blinkOn = s.blinkOn := rfl
@[simp] theorem setSession_parseMode (b : Bool) (s : State) : (setSession b s).parseMode = s.parseMode := rfl
@[simp] theorem setSession_session (b : Bool) (s : State) : (setSession b s).session = b := rfl
@[simp] theorem setSession_life (b : Bool) (s : State) : (setSession b s).life = s.life := rfl
@[simp] theorem setSession_timeoutSeen (b : Bool) (s : State) : (setSession b s).timeoutSeen = s.timeoutSeen := rfl
@[simp] theorem setSession_assertOow (b : Bool) (s : State) : (setSession b s).assertOow = s.assertOow := rfl
@[simp] theorem setSession_seq (b : Bool) (s : State) : (setSession b s).seq = s.seq := rfl
@[simp] theorem setSession_buf (b : Bool) (s : State) : (setSession b s).buf = s.buf := rfl
@[simp] theorem setSession_trace (b : Bool) (s : State) : (setSession b s).trace = s.trace := rfl
@[simp] theorem setSession_response (b : Bool) (s : State) : (setSession b s).response = s.response := rfl
@[simp] theorem setSession_requests (b : Bool) (s : State) : (setSession b s).requests = s.requests := rfl
@[simp] theorem setSession_reserveOk (b : Bool) (s : State) : (setSession b s).reserveOk = s.reserveOk := rfl
@[simp] theorem setSession_bufOk (b : Bool) (s : State) : (setSession b s).bufOk = s.bufOk := rfl
@[simp] theorem setSession_samples (b : Bool) (s : State) : (setSession b s).samples = s.samples := rfl
@[simp] theorem setSession_sampleCount (b : Bool) (s : State) : (setSession b s).sampleCount = s.sampleCount := rfl
@[simp] theorem setSession_foreign (b : Bool) (s : State) : (setSession b s).foreign = s.foreign := rfl

/-! ### setLife -/

@[simp] theorem setLife_cfg (l : Life) (s : State) : (setLife l s).cfg = s.cfg := rfl
@[simp] theorem setLife_dir (l : Life) (s : State) : (setLife l s).dir = s.dir := rfl
@[simp] theorem setLife_out (l : Life) (s : State) : (setLife l s).out = s.out := rfl
@[simp] theorem setLife_inReg (l : Life) (s : State) : (setLife l s).inReg = s.inReg := rfl
@[simp] theorem setLife_cursor (l : Life) (s : State) : (setLife l s).cursor = s.cursor := rfl
@[simp] theorem setLife_displayOn (l : Life) (s : State) : (setLife l s).displayOn = s.displayOn := rfl
@[simp] theorem setLife_cursorVisible (l : Life) (s : State) : (setLife l s).cursorVisible = s.cursorVisible := rfl
@[simp] theorem setLife_blinkOn (l : Life) (s : State) : (setLife l s).blinkOn = s.blinkOn := rfl
@[simp] theorem setLife_parseMode (l : Life) (s : State) : (setLife l s).parseMode = s.parseMode := rfl
@[simp] theorem setLife_session (l : Life) (s : State) : (setLife l s).session = s.session := rfl
@[simp] theorem setLife_life (l : Life) (s : State) : (setLife l s).life = l := rfl
@[simp] theorem setLife_timeoutSeen (l : Life) (s : State) : (setLife l s).timeoutSeen = s.timeoutSeen := rfl
@[simp] theorem setLife_assertOow (l : Life) (s : State) : (setLife l s).assertOow = s.assertOow := rfl
@[simp] theorem setLife_seq (l : Life) (s : State) : (setLife l s).seq = s.seq := rfl
@[simp] theorem setLife_buf (l : Life) (s : State) : (setLife l s).buf = s.buf := rfl
@[simp] theorem setLife_trace (l : Life) (s : State) : (setLife l s).trace = s.trace := rfl
@[simp] theorem setLife_response (l : Life) (s : State) : (setLife l s).response = s.response := rfl
@[simp] theorem setLife_requests (l : Life) (s : State) : (setLife l s).requests = s.requests := rfl
@[simp] theorem setLife_reserveOk (l : Life) (s : State) : (setLife l s).reserveOk = s.reserveOk := rfl
@[simp] theorem setLife_bufOk (l : Life) (s : State) : (setLife l s).bufOk = s.bufOk := rfl
@[simp] theorem setLife_samples (l : Life) (s : State) : (setLife l s).samples = s.samples := rfl
@[simp] theorem setLife_sampleCount (l : Life) (s : State) : (setLife l s).sampleCount = s.sampleCount := rfl
@[simp] theorem setLife_foreign (l : Life) (s : State) : (setLife l s).foreign = s.foreign := rfl

/-! ### clearMirror -/

@[simp] theorem clearMirror_cfg (s : State) : (clearMirror s).cfg = s.cfg := rfl
@[simp] theorem clearMirror_dir (s : State) : (clearMirror s).dir = s.dir := rfl
@[simp] theorem clearMirror_out (s : State) : (clearMirror s).out = s.out := rfl
@[simp] theorem clearMirror_inReg (s : State) : (clearMirror s).inReg = s.inReg := rfl
@[simp] theorem clearMirror_cursor (s : State) : (clearMirror s).cursor = 0 := rfl
@[simp] theorem clearMirror_displayOn (s : State) : (clearMirror s).displayOn = false := rfl
@[simp] theorem clearMirror_cursorVisible (s : State) : (clearMirror s).cursorVisible = false := rfl
@[simp] theorem clearMirror_blinkOn (s : State) : (clearMirror s).blinkOn = false := rfl
@[simp] theorem clearMirror_parseMode (s : State) : (clearMirror s).parseMode = .normal := rfl
@[simp] theorem clearMirror_session (s : State) : (clearMirror s).session = false := rfl
@[simp] theorem clearMirror_life (s : State) : (clearMirror s).life = s.life := rfl
@[simp] theorem clearMirror_timeoutSeen (s : State) : (clearMirror s).timeoutSeen = false := rfl
@[simp] theorem clearMirror_assertOow (s : State) : (clearMirror s).assertOow = false := rfl
@[simp] theorem clearMirror_seq (s : State) : (clearMirror s).seq = s.seq := rfl
@[simp] theorem clearMirror_buf (s : State) : (clearMirror s).buf = s.buf := rfl
@[simp] theorem clearMirror_trace (s : State) : (clearMirror s).trace = s.trace := rfl
@[simp] theorem clearMirror_response (s : State) : (clearMirror s).response = s.response := rfl
@[simp] theorem clearMirror_requests (s : State) : (clearMirror s).requests = s.requests := rfl
@[simp] theorem clearMirror_reserveOk (s : State) : (clearMirror s).reserveOk = s.reserveOk := rfl
@[simp] theorem clearMirror_bufOk (s : State) : (clearMirror s).bufOk = s.bufOk := rfl
@[simp] theorem clearMirror_samples (s : State) : (clearMirror s).samples = s.samples := rfl
@[simp] theorem clearMirror_sampleCount (s : State) : (clearMirror s).sampleCount = s.sampleCount := rfl
@[simp] theorem clearMirror_foreign (s : State) : (clearMirror s).foreign = s.foreign := rfl

/-! ### takeRequest -/

@[simp] theorem takeRequest_cfg (r : Request) (rest : List Request) (s : State) : (takeRequest r rest s).cfg = s.cfg := rfl
@[simp] theorem takeRequest_dir (r : Request) (rest : List Request) (s : State) : (takeRequest r rest s).dir = s.dir := rfl
@[simp] theorem takeRequest_out (r : Request) (rest : List Request) (s : State) : (takeRequest r rest s).out = s.out := rfl
@[simp] theorem takeRequest_inReg (r : Request) (rest : List Request) (s : State) : (takeRequest r rest s).inReg = s.inReg := rfl
@[simp] theorem takeRequest_cursor (r : Request) (rest : List Request) (s : State) : (takeRequest r rest s).cursor = s.cursor := rfl
@[simp] theorem takeRequest_displayOn (r : Request) (rest : List Request) (s : State) : (takeRequest r rest s).displayOn = s.displayOn := rfl
@[simp] theorem takeRequest_cursorVisible (r : Request) (rest : List Request) (s : State) : (takeRequest r rest s).cursorVisible = s.cursorVisible := rfl
@[simp] theorem takeRequest_blinkOn (r : Request) (rest : List Request) (s : State) : (takeRequest r rest s).blinkOn = s.blinkOn := rfl
@[simp] theorem takeRequest_parseMode (r : Request) (rest : List Request) (s : State) : (takeRequest r rest s).parseMode = s.parseMode := rfl
@[simp] theorem takeRequest_session (r : Request) (rest : List Request) (s : State) : (takeRequest r rest s).session = s.session := rfl
@[simp] theorem takeRequest_life (r : Request) (rest : List Request) (s : State) : (takeRequest r rest s).life = s.life := rfl
@[simp] theorem takeRequest_timeoutSeen (r : Request) (rest : List Request) (s : State) : (takeRequest r rest s).timeoutSeen = s.timeoutSeen := rfl
@[simp] theorem takeRequest_assertOow (r : Request) (rest : List Request) (s : State) : (takeRequest r rest s).assertOow = s.assertOow := rfl
@[simp] theorem takeRequest_seq (r : Request) (rest : List Request) (s : State) : (takeRequest r rest s).seq = .running := rfl
@[simp] theorem takeRequest_buf (r : Request) (rest : List Request) (s : State) : (takeRequest r rest s).buf = Memory.store [] 0 (stagedBytes r s) := rfl
@[simp] theorem takeRequest_trace (r : Request) (rest : List Request) (s : State) : (takeRequest r rest s).trace = s.trace := rfl
@[simp] theorem takeRequest_response (r : Request) (rest : List Request) (s : State) : (takeRequest r rest s).response = s.response := rfl
@[simp] theorem takeRequest_requests (r : Request) (rest : List Request) (s : State) : (takeRequest r rest s).requests = rest := rfl
@[simp] theorem takeRequest_reserveOk (r : Request) (rest : List Request) (s : State) : (takeRequest r rest s).reserveOk = r.reserveOk := rfl
@[simp] theorem takeRequest_bufOk (r : Request) (rest : List Request) (s : State) : (takeRequest r rest s).bufOk = r.bufOk := rfl
@[simp] theorem takeRequest_samples (r : Request) (rest : List Request) (s : State) : (takeRequest r rest s).samples = s.samples := rfl
@[simp] theorem takeRequest_sampleCount (r : Request) (rest : List Request) (s : State) : (takeRequest r rest s).sampleCount = s.sampleCount := rfl
@[simp] theorem takeRequest_foreign (r : Request) (rest : List Request) (s : State) : (takeRequest r rest s).foreign = s.foreign := rfl

/-! ### Abbreviations of the above -/

@[simp] theorem respondOk_eq (s : State) : respondOk s = respond .ok 0 s := rfl
@[simp] theorem fail_eq (c : Code) (s : State) : fail c s = respond c 0 s := rfl
@[simp] theorem regRead_dir (s : State) : regRead .dir s = s.dir := rfl
@[simp] theorem regRead_out (s : State) : regRead .out s = s.out := rfl
@[simp] theorem regRead_inp (s : State) : regRead .inp s = s.inReg := rfl

end Sys2Proof.Machine
end

