-- ==== Sys2Proof/Laws/Memory.lean ====
section
/-! SUPPORT. The staged buffer: a read after a store, every operation keeps the canonical form and the range, and the
canonical form makes memories that read alike equal. -/

namespace Sys2Proof.Machine

theorem Memory.read_of_lt_all {m : Memory} {a : Nat} (h : ∀ c ∈ m, a < c.1) :
    Memory.read m a = Memory.unlisted := by
  induction m with
  | nil => rfl
  | cons c m ih =>
    have hc := h c (by simp)
    have : c.1 ≠ a := by omega
    simp [Memory.read, this, ih fun d hd => h d (by simp [hd])]

/-- The byte stored is read back. -/
theorem Memory.read_write_same {m : Memory} (hm : Memory.wf m) (a : Nat) (b : Byte) :
    Memory.read (Memory.write m a b) a = b := by
  induction m with
  | nil => by_cases hb : b = Memory.unlisted <;> simp [Memory.write, Memory.read, hb]
  | cons c m ih =>
    obtain ⟨k, v⟩ := c
    obtain ⟨hp, hz⟩ := hm
    rw [List.pairwise_cons] at hp
    have htail : Memory.wf m := ⟨hp.2, fun c hc => hz c (by simp [hc])⟩
    rcases Nat.lt_trichotomy a k with h | h | h
    · have hread : Memory.read ((k, v) :: m) a = Memory.unlisted := by
        apply Memory.read_of_lt_all
        intro c hc
        rcases List.mem_cons.1 hc with rfl | hc
        · exact h
        · exact Nat.lt_trans h (hp.1 c hc)
      by_cases hb : b = Memory.unlisted
      · simp [Memory.write, h, hb, hread]
      · simp [Memory.write, h, hb, Memory.read]
    · subst h
      by_cases hb : b = Memory.unlisted
      · have := Memory.read_of_lt_all (m := m) (a := a) hp.1
        simp [Memory.write, hb, this]
      · simp [Memory.write, hb, Memory.read]
    · have h1 : ¬ a < k := by omega
      have h2 : a ≠ k := by omega
      simp [Memory.write, h1, h2, Memory.read, Ne.symm h2, ih htail]

/-- Every other byte is as before. -/
theorem Memory.read_write_other (m : Memory) {a a' : Nat} (b : Byte) (h : a' ≠ a) :
    Memory.read (Memory.write m a b) a' = Memory.read m a' := by
  induction m with
  | nil => by_cases hb : b = Memory.unlisted <;> simp [Memory.write, Memory.read, hb, h.symm]
  | cons c m ih =>
    obtain ⟨k, v⟩ := c
    rcases Nat.lt_trichotomy a k with hk | hk | hk
    · by_cases hb : b = Memory.unlisted <;> simp [Memory.write, hk, hb, Memory.read, h.symm]
    · subst hk
      by_cases hb : b = Memory.unlisted <;> simp [Memory.write, hb, Memory.read, h.symm]
    · have h1 : ¬ a < k := by omega
      have h2 : a ≠ k := by omega
      simp [Memory.write, h1, h2, Memory.read, ih]

theorem Memory.mem_write {m : Memory} {a : Nat} {b : Byte} {c : Host.Cell} (h : c ∈ Memory.write m a b) :
    c = (a, b) ∧ b ≠ Memory.unlisted ∨ c ∈ m := by
  induction m with
  | nil =>
    by_cases hb : b = Memory.unlisted
    · simp [Memory.write, hb] at h
    · simp [Memory.write, hb] at h
      exact .inl ⟨h, hb⟩
  | cons d m ih =>
    obtain ⟨k, v⟩ := d
    unfold Memory.write at h
    split at h
    · split at h
      · exact .inr h
      · rename_i hb
        rcases List.mem_cons.1 h with rfl | h
        · exact .inl ⟨rfl, hb⟩
        · exact .inr h
    · split at h
      · split at h
        · exact .inr (List.mem_cons_of_mem _ h)
        · rename_i hb
          rcases List.mem_cons.1 h with rfl | h
          · exact .inl ⟨rfl, hb⟩
          · exact .inr (List.mem_cons_of_mem _ h)
      · rcases List.mem_cons.1 h with rfl | h
        · exact .inr (by simp)
        · rcases ih h with h | h
          · exact .inl h
          · exact .inr (List.mem_cons_of_mem _ h)

/-- A store keeps the canonical form. -/
theorem Memory.wf_write {m : Memory} (hm : Memory.wf m) (a : Nat) (b : Byte) :
    Memory.wf (Memory.write m a b) := by
  refine ⟨?_, fun c hc => ?_⟩
  · induction m with
    | nil => by_cases hb : b = Memory.unlisted <;> simp [Memory.write, hb]
    | cons d m ih =>
      obtain ⟨k, v⟩ := d
      obtain ⟨hp, hz⟩ := hm
      rw [List.pairwise_cons] at hp
      have htail : Memory.wf m := ⟨hp.2, fun c hc => hz c (by simp [hc])⟩
      unfold Memory.write
      split
      · rename_i hak
        split
        · exact List.pairwise_cons.2 hp
        · refine List.pairwise_cons.2 ⟨fun c hc => ?_, List.pairwise_cons.2 hp⟩
          rcases List.mem_cons.1 hc with rfl | hc
          · exact hak
          · exact Nat.lt_trans hak (hp.1 c hc)
      · split
        · rename_i hak
          split
          · exact hp.2
          · exact List.pairwise_cons.2 ⟨fun c hc => hak ▸ hp.1 c hc, hp.2⟩
        · refine List.pairwise_cons.2 ⟨fun c hc => ?_, ih htail⟩
          rcases Memory.mem_write hc with ⟨rfl, -⟩ | hc
          · show k < a
            omega
          · exact hp.1 c hc
  · rcases Memory.mem_write hc with ⟨rfl, hb⟩ | hc
    · exact hb
    · exact hm.2 c hc

/-- Storing bytes keeps the canonical form. -/
theorem Memory.wf_store {m : Memory} (hm : Memory.wf m) (a : Nat) (bs : List Byte) :
    Memory.wf (Memory.store m a bs) := by
  induction bs generalizing m a with
  | nil => exact hm
  | cons b bs ih => exact ih (Memory.wf_write hm a b) (a + 1)

/-- Storing bytes below an address adds no cell at or above it. -/
theorem Memory.store_in_range {m : Memory} {n : Nat} (hm : ∀ c ∈ m, c.1 < n) (a : Nat) (bs : List Byte)
    (h : a + bs.length ≤ n) : ∀ c ∈ Memory.store m a bs, c.1 < n := by
  induction bs generalizing m a with
  | nil => exact hm
  | cons b bs ih =>
    simp only [List.length_cons] at h
    refine ih (fun c hc => ?_) (a + 1) (by omega)
    rcases Memory.mem_write hc with ⟨rfl, -⟩ | hc
    · show a < n
      omega
    · exact hm c hc

/-- What is read after bytes were stored at `a`: the stored byte inside, the old byte outside. -/
theorem Memory.read_store {m : Memory} (hm : Memory.wf m) (a : Nat) (bs : List Byte) (i : Nat) :
    Memory.read (Memory.store m a bs) i =
      if a ≤ i ∧ i < a + bs.length then bs.getD (i - a) 0 else Memory.read m i := by
  induction bs generalizing m a with
  | nil =>
    simp [Memory.store]
  | cons b bs ih =>
    rw [Memory.store, ih (Memory.wf_write hm a b)]
    by_cases h1 : i = a
    · subst h1
      have : ¬ (i + 1 ≤ i ∧ i < i + 1 + bs.length) := by omega
      simp [Memory.read_write_same hm]
    · by_cases h2 : a + 1 ≤ i ∧ i < a + 1 + bs.length
      · have h3 : a ≤ i ∧ i < a + (bs.length + 1) := by omega
        have h4 : i - a = (i - (a + 1)) + 1 := by omega
        simp [h2, h3, h4]
      · have h3 : ¬ (a ≤ i ∧ i < a + (bs.length + 1)) := by omega
        rw [if_neg h2, Memory.read_write_other m b h1, List.length_cons, if_neg h3]

/-- Nothing staged is a memory in canonical form. -/
theorem Memory.wf_empty : Memory.wf [] := ⟨.nil, by simp⟩

/-- Memories in canonical form that read alike are equal. -/
theorem Memory.ext_of_read {m m' : Memory} (hm : Memory.wf m) (hm' : Memory.wf m')
    (h : ∀ a, Memory.read m a = Memory.read m' a) : m = m' := by
  induction m generalizing m' with
  | nil =>
    rcases m' with _ | ⟨⟨k, v⟩, m'⟩
    · rfl
    · have := h k
      simp only [Memory.read, ↓reduceIte] at this
      exact absurd this.symm (hm'.2 (k, v) (by simp))
  | cons c m ih =>
    obtain ⟨k, v⟩ := c
    have hv : v ≠ Memory.unlisted := hm.2 (k, v) (by simp)
    have hp := List.pairwise_cons.1 hm.1
    rcases m' with _ | ⟨⟨k', v'⟩, m'⟩
    · exact absurd (by simpa [Memory.read] using h k) hv
    have hv' : v' ≠ Memory.unlisted := hm'.2 (k', v') (by simp)
    have hp' := List.pairwise_cons.1 hm'.1
    have hk : k = k' := by
      rcases Nat.lt_trichotomy k k' with hlt | heq | hlt
      · refine absurd ((by simpa [Memory.read] using h k : v = _).trans (Memory.read_of_lt_all (m := (k', v') :: m') ?_)) hv
        intro c hc
        rcases List.mem_cons.1 hc with rfl | hc
        · exact hlt
        · exact Nat.lt_trans hlt (hp'.1 c hc)
      · exact heq
      · refine absurd ((by simpa [Memory.read] using (h k').symm : v' = _).trans
          (Memory.read_of_lt_all (m := (k, v) :: m) ?_)) hv'
        intro c hc
        rcases List.mem_cons.1 hc with rfl | hc
        · exact hlt
        · exact Nat.lt_trans hlt (hp.1 c hc)
    subst hk
    have hvv : v = v' := by simpa [Memory.read] using h k
    subst hvv
    congr 1
    refine ih ⟨hp.2, fun c hc => hm.2 c (by simp [hc])⟩ ⟨hp'.2, fun c hc => hm'.2 c (by simp [hc])⟩ fun a => ?_
    by_cases ha : k = a
    · subst ha
      rw [Memory.read_of_lt_all hp.1, Memory.read_of_lt_all hp'.1]
    · simpa [Memory.read, ha] using h a

/-- A byte at or beyond every cell was never stored. -/
theorem Memory.read_of_all_lt {m : Memory} {n a : Nat} (h : ∀ c ∈ m, c.1 < n) (ha : n ≤ a) :
    Memory.read m a = Memory.unlisted := by
  induction m with
  | nil => rfl
  | cons c m ih =>
    have hc := h c (by simp)
    have : c.1 ≠ a := by omega
    simp [Memory.read, this, ih fun d hd => h d (by simp [hd])]

/-- The snapshot has the length asked for. -/
@[simp] theorem Memory.snapshot_length (m : Memory) (len : Nat) : (m.snapshot len).length = len := by
  simp [Memory.snapshot]

theorem Memory.lt_extent {m : Memory} {c : Host.Cell} (h : c ∈ m) : c.1 < m.extent := by
  induction m with
  | nil => cases h
  | cons d m ih =>
    simp only [Memory.extent]
    rcases List.mem_cons.1 h with rfl | h
    · omega
    · have := ih h
      omega

theorem Memory.extent_le {m : Memory} {n : Nat} (h : ∀ c ∈ m, c.1 < n) : m.extent ≤ n := by
  induction m with
  | nil => exact Nat.zero_le n
  | cons d m ih =>
    have h1 := h d (by simp)
    have h2 := ih fun c hc => h c (by simp [hc])
    simp only [Memory.extent]
    omega

/-- Staging again what is staged changes nothing. -/
theorem Memory.store_snapshot {m : Memory} {n : Nat} (hm : Memory.wf m) (h : ∀ c ∈ m, c.1 < n) :
    Memory.store [] 0 (m.snapshot n) = m := by
  refine Memory.ext_of_read (Memory.wf_store Memory.wf_empty _ _) hm fun a => ?_
  rw [Memory.read_store Memory.wf_empty]
  by_cases ha : a < n
  · simp [ha, Memory.snapshot]
  · rw [if_neg (by simpa using ha), Memory.read_of_all_lt h (by omega), Memory.read]

end Sys2Proof.Machine
end

