-- ==== Sys2Proof/Laws/PinBank.lean ====
section
/-! SUPPORT. PinBank: what `pin_set` and `pin_get` do to each bit, to the trace and to the environment's answers, and
that they change nothing else (40_pinbank.md R122 to R124). -/

namespace Sys2Proof

/-! ### Bits of masks -/

@[simp] theorem testBit_andNot (a b : Word) (k : Nat) : (andNot a b).testBit k = (a.testBit k && !b.testBit k) := by
  unfold andNot
  rw [Nat.testBit_xor, Nat.testBit_and]
  cases a.testBit k <;> cases b.testBit k <;> rfl

theorem andNot_lt {a b n : Nat} (h : a < 2 ^ n) : andNot a b < 2 ^ n := by
  unfold andNot
  exact Nat.xor_lt_two_pow h (Nat.lt_of_le_of_lt Nat.and_le_left h)

@[simp] theorem testBit_mRs (c : Config) (k : Nat) : c.mRs.testBit k = decide (c.rsPin = k) := by
  simp [Config.mRs, Nat.testBit_two_pow]

@[simp] theorem testBit_mRw (c : Config) (k : Nat) : c.mRw.testBit k = decide (c.rwPin = k) := by
  simp [Config.mRw, Nat.testBit_two_pow]

@[simp] theorem testBit_mE (c : Config) (k : Nat) : c.mE.testBit k = decide (c.ePin = k) := by
  simp [Config.mE, Nat.testBit_two_pow]

theorem testBit_fifteen (i : Nat) : (15 : Nat).testBit i = decide (i < 4) := by
  have : (15 : Nat) = 2 ^ 4 - 1 := rfl
  rw [this, Nat.testBit_two_pow_sub_one]

@[simp] theorem testBit_mData (c : Config) (k : Nat) :
    c.mData.testBit k = (decide (c.dataShift ≤ k) && decide (k < c.dataShift + 4)) := by
  simp only [Config.mData, Nat.testBit_shiftLeft, testBit_fifteen]
  by_cases h : c.dataShift ≤ k
  · have : (k - c.dataShift < 4) = (k < c.dataShift + 4) := by rw [eq_iff_iff]; omega
    simp [h, this]
  · simp [h]

theorem testBit_mUsed (c : Config) (k : Nat) :
    c.mUsed.testBit k =
      (decide (c.rsPin = k) || decide (c.rwPin = k) || decide (c.ePin = k) ||
        (decide (c.dataShift ≤ k) && decide (k < c.dataShift + 4))) := by
  simp [Config.mUsed, Nat.testBit_or]

end Sys2Proof

namespace Sys2Proof.Machine

theorem testBit_nibbleSet (c : Config) (n : Nibble) (k : Nat) :
    (nibbleSet c n).testBit k = (decide (c.dataShift ≤ k) && n.getLsbD (k - c.dataShift)) := by
  simp [nibbleSet, Nat.testBit_shiftLeft, BitVec.testBit_toNat]

theorem testBit_nibbleClear (c : Config) (n : Nibble) (k : Nat) :
    (nibbleClear c n).testBit k =
      (decide (c.dataShift ≤ k) && (decide (k < c.dataShift + 4) && !n.getLsbD (k - c.dataShift))) := by
  simp only [nibbleClear, Nat.testBit_shiftLeft, BitVec.testBit_toNat, BitVec.getLsbD_not]
  by_cases h : c.dataShift ≤ k
  · have : (k - c.dataShift < 4) = (k < c.dataShift + 4) := by rw [eq_iff_iff]; omega
    simp [h, this]
  · simp [h]

/-! ### The environment's answers -/

theorem sampleAt_zero (s : State) : sampleAt s 0 = nextSample s := by
  unfold sampleAt nextSample
  cases h : s.samples <;> simp

/-- The answers to come after `n` samples were taken are the later ones. -/
theorem sampleAt_shift {s t : State} (n k : Nat) (hs : t.samples = s.samples.drop n)
    (hc : t.sampleCount = s.sampleCount + n) (hw : t.cfg = s.cfg) : sampleAt t k = sampleAt s (n + k) := by
  unfold sampleAt
  rw [hs, hc, hw, List.drop_drop, Nat.add_assoc]

theorem sampleAt_lt (s : State) (k : Nat) : sampleAt s k < 2 ^ s.cfg.regW := Nat.mod_lt _ (by positivity)

/-! ### Other consumers' moves -/

theorem foreignMove_frame (s : State) :
    (foreignMove s).cfg = s.cfg ∧ (foreignMove s).inReg = s.inReg ∧ (foreignMove s).cursor = s.cursor ∧
    (foreignMove s).displayOn = s.displayOn ∧ (foreignMove s).cursorVisible = s.cursorVisible ∧
    (foreignMove s).blinkOn = s.blinkOn ∧ (foreignMove s).parseMode = s.parseMode ∧
    (foreignMove s).session = s.session ∧ (foreignMove s).life = s.life ∧
    (foreignMove s).timeoutSeen = s.timeoutSeen ∧ (foreignMove s).assertOow = s.assertOow ∧
    (foreignMove s).seq = s.seq ∧ (foreignMove s).buf = s.buf ∧ (foreignMove s).trace = s.trace ∧
    (foreignMove s).response = s.response ∧ (foreignMove s).requests = s.requests ∧
    (foreignMove s).reserveOk = s.reserveOk ∧ (foreignMove s).bufOk = s.bufOk ∧
    (foreignMove s).samples = s.samples ∧ (foreignMove s).sampleCount = s.sampleCount ∧
    (foreignMove s).foreign = s.foreign.tail := by
  unfold foreignMove
  split <;> simp_all

theorem foreignMove_of_nil {s : State} (h : s.foreign = []) : foreignMove s = s := by simp [foreignMove, h]

theorem testBit_mergeForeign (w : Nat) (g old new : Word) (k : Nat) (h : g.testBit k = true) :
    (mergeForeign w g old new).testBit k = old.testBit k := by
  simp [mergeForeign, Nat.testBit_or, Nat.testBit_and, h]

/-- While the block is up, its seven bits survive other consumers' moves. -/
theorem foreignMove_used {s : State} (hr : s.life = .ready) {k : Nat} (hk : s.cfg.mUsed.testBit k = true) :
    (foreignMove s).out.testBit k = s.out.testBit k ∧ (foreignMove s).dir.testBit k = s.dir.testBit k := by
  unfold foreignMove
  split
  · exact ⟨rfl, rfl⟩
  · exact ⟨rfl, rfl⟩
  · have hg : (guardedBits s).testBit k = true := by simp [guardedBits, hr, hk]
    exact ⟨testBit_mergeForeign _ _ _ _ _ hg, testBit_mergeForeign _ _ _ _ _ hg⟩

theorem mergeForeign_lt {w : Nat} {g old new : Word} (h : old < 2 ^ w) : mergeForeign w g old new < 2 ^ w := by
  unfold mergeForeign
  exact Nat.or_lt_two_pow (Nat.lt_of_le_of_lt Nat.and_le_left h)
    (andNot_lt (Nat.mod_lt _ (by positivity)))

theorem foreignMove_lt {s : State} (ho : s.out < 2 ^ s.cfg.regW) (hd : s.dir < 2 ^ s.cfg.regW) :
    (foreignMove s).out < 2 ^ s.cfg.regW ∧ (foreignMove s).dir < 2 ^ s.cfg.regW := by
  unfold foreignMove
  split
  · exact ⟨ho, hd⟩
  · exact ⟨ho, hd⟩
  · exact ⟨mergeForeign_lt ho, mergeForeign_lt hd⟩

/-! ### `pin_set` -/

/-- All that `pin_set` does to the registers (R122). -/
theorem pinSet_regs (a b : Word) (s : State) :
    (pinSet a b s).out = andNot ((foreignMove s).out ||| a) b ∧
    (pinSet a b s).dir = (foreignMove s).dir ||| a ||| b := by
  simp [pinSet, pinSetSection]

/-- All that `pin_set` does besides: its event; everything else is as before. -/
theorem pinSet_frame (a b : Word) (s : State) :
    (pinSet a b s).cfg = s.cfg ∧ (pinSet a b s).inReg = s.inReg ∧ (pinSet a b s).cursor = s.cursor ∧
    (pinSet a b s).displayOn = s.displayOn ∧ (pinSet a b s).cursorVisible = s.cursorVisible ∧
    (pinSet a b s).blinkOn = s.blinkOn ∧ (pinSet a b s).parseMode = s.parseMode ∧
    (pinSet a b s).session = s.session ∧ (pinSet a b s).life = s.life ∧
    (pinSet a b s).timeoutSeen = s.timeoutSeen ∧ (pinSet a b s).assertOow = s.assertOow ∧
    (pinSet a b s).seq = s.seq ∧ (pinSet a b s).buf = s.buf ∧
    (pinSet a b s).trace = s.trace ++ [.set a b] ∧
    (pinSet a b s).response = s.response ∧ (pinSet a b s).requests = s.requests ∧
    (pinSet a b s).reserveOk = s.reserveOk ∧ (pinSet a b s).bufOk = s.bufOk ∧
    (pinSet a b s).samples = s.samples ∧ (pinSet a b s).sampleCount = s.sampleCount ∧
    (pinSet a b s).foreign = s.foreign.tail := by
  have h := foreignMove_frame s
  simp [pinSet, pinSetSection, h]

@[simp] theorem pinSet_cfg (a b : Word) (s : State) : (pinSet a b s).cfg = s.cfg := (pinSet_frame a b s).1
@[simp] theorem pinSet_inReg (a b : Word) (s : State) : (pinSet a b s).inReg = s.inReg := by simp [pinSet_frame]
@[simp] theorem pinSet_cursor (a b : Word) (s : State) : (pinSet a b s).cursor = s.cursor := by simp [pinSet_frame]
@[simp] theorem pinSet_life (a b : Word) (s : State) : (pinSet a b s).life = s.life := by simp [pinSet_frame]
@[simp] theorem pinSet_trace (a b : Word) (s : State) :
    (pinSet a b s).trace = s.trace ++ [.set a b] := by simp [pinSet_frame]
@[simp] theorem pinSet_samples (a b : Word) (s : State) : (pinSet a b s).samples = s.samples := by
  simp [pinSet_frame]
@[simp] theorem pinSet_sampleCount (a b : Word) (s : State) : (pinSet a b s).sampleCount = s.sampleCount := by
  simp [pinSet_frame]
@[simp] theorem pinSet_timeoutSeen (a b : Word) (s : State) : (pinSet a b s).timeoutSeen = s.timeoutSeen := by
  simp [pinSet_frame]

/-- `pin_set` on one of the block's bits while it is up: "or first, and-out second: clear wins", and every touched pin
becomes an output. -/
theorem pinSet_bit (a b : Word) {s : State} (hr : s.life = .ready) {k : Nat} (hk : s.cfg.mUsed.testBit k = true) :
    (pinSet a b s).out.testBit k = ((s.out.testBit k || a.testBit k) && !b.testBit k) ∧
    (pinSet a b s).dir.testBit k = (s.dir.testBit k || a.testBit k || b.testBit k) := by
  obtain ⟨ho, hd⟩ := foreignMove_used hr hk
  obtain ⟨h1, h2⟩ := pinSet_regs a b s
  simp [h1, h2, Nat.testBit_or, ho, hd]

/-- `pin_set` on any bit when no other consumer interferes. -/
theorem pinSet_bit_alone (a b : Word) {s : State} (hf : s.foreign = []) (k : Nat) :
    (pinSet a b s).out.testBit k = ((s.out.testBit k || a.testBit k) && !b.testBit k) ∧
    (pinSet a b s).dir.testBit k = (s.dir.testBit k || a.testBit k || b.testBit k) := by
  obtain ⟨h1, h2⟩ := pinSet_regs a b s
  simp [h1, h2, foreignMove_of_nil hf, Nat.testBit_or]

theorem pinSet_lt {a b : Word} {s : State} (ho : s.out < 2 ^ s.cfg.regW) (hd : s.dir < 2 ^ s.cfg.regW)
    (ha : a < 2 ^ s.cfg.regW) (hb : b < 2 ^ s.cfg.regW) :
    (pinSet a b s).out < 2 ^ s.cfg.regW ∧ (pinSet a b s).dir < 2 ^ s.cfg.regW := by
  obtain ⟨h1, h2⟩ := pinSet_regs a b s
  obtain ⟨h3, h4⟩ := foreignMove_lt ho hd
  rw [h1, h2]
  exact ⟨andNot_lt (Nat.or_lt_two_pow h3 ha), Nat.or_lt_two_pow (Nat.or_lt_two_pow h4 ha) hb⟩

/-! ### `pin_get` -/

/-- The value of `pin_get`: the sample under the mask (R123). -/
@[simp] theorem pinGet_value (m : Word) (s : State) : (pinGet m s).1 = nextSample s &&& m := by
  have h := foreignMove_frame s
  simp [pinGet, pinGetSection, nextSample, h]

/-- All that `pin_get` does to the registers (R123). -/
theorem pinGet_regs (m : Word) (s : State) :
    (pinGet m s).2.out = (foreignMove s).out ∧ (pinGet m s).2.dir = andNot (foreignMove s).dir m ∧
    (pinGet m s).2.inReg = nextSample s := by
  have h := foreignMove_frame s
  simp [pinGet, pinGetSection, nextSample, h]

/-- All that `pin_get` does besides: one answer is used, and its event. -/
theorem pinGet_frame (m : Word) (s : State) :
    (pinGet m s).2.cfg = s.cfg ∧ (pinGet m s).2.cursor = s.cursor ∧
    (pinGet m s).2.displayOn = s.displayOn ∧ (pinGet m s).2.cursorVisible = s.cursorVisible ∧
    (pinGet m s).2.blinkOn = s.blinkOn ∧ (pinGet m s).2.parseMode = s.parseMode ∧
    (pinGet m s).2.session = s.session ∧ (pinGet m s).2.life = s.life ∧
    (pinGet m s).2.timeoutSeen = s.timeoutSeen ∧ (pinGet m s).2.assertOow = s.assertOow ∧
    (pinGet m s).2.seq = s.seq ∧ (pinGet m s).2.buf = s.buf ∧
    (pinGet m s).2.trace = s.trace ++ [.get m (nextSample s &&& m)] ∧
    (pinGet m s).2.response = s.response ∧ (pinGet m s).2.requests = s.requests ∧
    (pinGet m s).2.reserveOk = s.reserveOk ∧ (pinGet m s).2.bufOk = s.bufOk ∧
    (pinGet m s).2.samples = s.samples.drop 1 ∧ (pinGet m s).2.sampleCount = s.sampleCount + 1 ∧
    (pinGet m s).2.foreign = s.foreign.tail := by
  have h := foreignMove_frame s
  simp [pinGet, pinGetSection, nextSample, h]

/-- `pin_get` on one of the block's bits while it is up: `OUT` is not changed, the masked pins become inputs. -/
theorem pinGet_bit (m : Word) {s : State} (hr : s.life = .ready) {k : Nat} (hk : s.cfg.mUsed.testBit k = true) :
    (pinGet m s).2.out.testBit k = s.out.testBit k ∧
    (pinGet m s).2.dir.testBit k = (s.dir.testBit k && !m.testBit k) := by
  obtain ⟨ho, hd⟩ := foreignMove_used hr hk
  obtain ⟨h1, h2, -⟩ := pinGet_regs m s
  simp [h1, h2, ho, hd]

theorem pinGet_lt {m : Word} {s : State} (ho : s.out < 2 ^ s.cfg.regW) (hd : s.dir < 2 ^ s.cfg.regW) :
    (pinGet m s).2.out < 2 ^ s.cfg.regW ∧ (pinGet m s).2.dir < 2 ^ s.cfg.regW ∧
    (pinGet m s).2.inReg < 2 ^ s.cfg.regW := by
  obtain ⟨h1, h2, h3⟩ := pinGet_regs m s
  obtain ⟨h4, h5⟩ := foreignMove_lt ho hd
  rw [h1, h2, h3]
  exact ⟨h4, andNot_lt h5, by rw [← sampleAt_zero]; exact sampleAt_lt s 0⟩

end Sys2Proof.Machine
end

