-- ==== Sys2Proof/Laws/Frames.lean ====
section
/-! SUPPORT. The frames compose, and the small operations have them. -/

namespace Sys2Proof.Machine

variable {s t u : State}

theorem ForeignBitsKept.refl (s : State) : ForeignBitsKept s s := fun h => ⟨h, fun _ _ => ⟨rfl, rfl⟩⟩

theorem ForeignBitsKept.trans (hc : t.cfg = s.cfg) (h₁ : ForeignBitsKept s t) (h₂ : ForeignBitsKept t u) :
    ForeignBitsKept s u := by
  intro hf
  obtain ⟨hf', h⟩ := h₁ hf
  obtain ⟨hf'', h'⟩ := h₂ hf'
  refine ⟨hf'', fun k hk => ?_⟩
  have := h k hk
  have := h' k (by rw [hc]; exact hk)
  simp_all

theorem HostFrame.refl (s : State) : HostFrame s s :=
  ⟨rfl, rfl, rfl, rfl, rfl, rfl, fun _ => rfl, ForeignBitsKept.refl s⟩

theorem HostFrame.trans (h₁ : HostFrame s t) (h₂ : HostFrame t u) : HostFrame s u :=
  ⟨h₂.cfg.trans h₁.cfg, h₂.session.trans h₁.session, h₂.life.trans h₁.life, h₂.requests.trans h₁.requests,
    h₂.reserveOk.trans h₁.reserveOk, h₂.bufOk.trans h₁.bufOk, fun a => (h₂.bufBytes a).trans (h₁.bufBytes a),
    h₁.foreignBits.trans h₁.cfg h₂.foreignBits⟩

theorem MoveFrame.refl (s : State) : MoveFrame s s := ⟨HostFrame.refl s, rfl, rfl, rfl, rfl⟩

theorem MoveFrame.trans (h₁ : MoveFrame s t) (h₂ : MoveFrame t u) : MoveFrame s u :=
  ⟨h₁.toHostFrame.trans h₂.toHostFrame, h₂.displayOn.trans h₁.displayOn,
    h₂.cursorVisible.trans h₁.cursorVisible, h₂.blinkOn.trans h₁.blinkOn, h₂.parseMode.trans h₁.parseMode⟩

theorem BusFrame.refl (s : State) : BusFrame s s := ⟨MoveFrame.refl s, rfl, rfl⟩

theorem BusFrame.trans (h₁ : BusFrame s t) (h₂ : BusFrame t u) : BusFrame s u :=
  ⟨h₁.toMoveFrame.trans h₂.toMoveFrame, h₂.cursor.trans h₁.cursor, h₂.assertOow.trans h₁.assertOow⟩

/-! ### Masks of the block's own bits -/

/-- A mask within `M_RS | M_RW | M_E | M_DATA` (40_pinbank.md R124). -/
def UsedMask (c : Config) (m : Word) : Prop := ∀ k, c.mUsed.testBit k = false → m.testBit k = false

theorem UsedMask.zero (c : Config) : UsedMask c 0 := fun _ _ => Nat.zero_testBit _

theorem UsedMask.or {c : Config} {a b : Word} (ha : UsedMask c a) (hb : UsedMask c b) : UsedMask c (a ||| b) :=
  fun k hk => by rw [Nat.testBit_or, ha k hk, hb k hk]; rfl

theorem UsedMask.mRs (c : Config) : UsedMask c c.mRs := by
  intro k hk
  rw [testBit_mUsed] at hk
  simp only [testBit_mRs]
  simp_all

theorem UsedMask.mRw (c : Config) : UsedMask c c.mRw := by
  intro k hk
  rw [testBit_mUsed] at hk
  simp only [testBit_mRw]
  simp_all

theorem UsedMask.mE (c : Config) : UsedMask c c.mE := by
  intro k hk
  rw [testBit_mUsed] at hk
  simp only [testBit_mE]
  simp_all

theorem UsedMask.of_data {c : Config} {m : Word}
    (h : ∀ k, m.testBit k = true → c.dataShift ≤ k ∧ k < c.dataShift + 4) : UsedMask c m := by
  intro k hk
  rw [testBit_mUsed] at hk
  by_contra hm
  have := h k (by simpa using hm)
  simp_all

theorem UsedMask.mData (c : Config) : UsedMask c c.mData :=
  UsedMask.of_data fun k hk => by simpa using hk

theorem UsedMask.nibbleSet (c : Config) (n : Nibble) : UsedMask c (nibbleSet c n) :=
  UsedMask.of_data fun k hk => by
    simp only [testBit_nibbleSet, Bool.and_eq_true, decide_eq_true_eq] at hk
    have := BitVec.lt_of_getLsbD hk.2
    omega

theorem UsedMask.nibbleClear (c : Config) (n : Nibble) : UsedMask c (nibbleClear c n) :=
  UsedMask.of_data fun k hk => by
    simp only [testBit_nibbleClear, Bool.and_eq_true, decide_eq_true_eq] at hk
    exact ⟨hk.1, hk.2.1⟩

theorem UsedMask.writeSelect (c : Config) (rs : RegSel) :
    UsedMask c (writeSelect c rs).1 ∧ UsedMask c (writeSelect c rs).2 := by
  cases rs
  · exact ⟨UsedMask.zero c, (UsedMask.mRw c).or (UsedMask.mRs c)⟩
  · exact ⟨UsedMask.mRs c, UsedMask.mRw c⟩

theorem UsedMask.readSelect (c : Config) (rs : RegSel) :
    UsedMask c (readSelect c rs).1 ∧ UsedMask c (readSelect c rs).2 := by
  cases rs
  · exact ⟨UsedMask.mRw c, UsedMask.mRs c⟩
  · exact ⟨(UsedMask.mRw c).or (UsedMask.mRs c), UsedMask.zero c⟩

/-- A mask of the block's own bits fits the register (00_scope.md R9). -/
theorem UsedMask.lt {c : Config} (hp : c.PinsOk) {m : Word} (hm : UsedMask c m) : m < 2 ^ c.regW := by
  apply Nat.lt_pow_two_of_testBit
  intro k hk
  apply hm
  rw [testBit_mUsed]
  obtain ⟨⟨h1, h2, h3, h4⟩, -⟩ := hp
  have : c.rsPin ≠ k ∧ c.rwPin ≠ k ∧ c.ePin ≠ k ∧ ¬ (k < c.dataShift + 4) := by omega
  simp [this]

/-! ### The small operations -/

theorem emit_busFrame (e : Event) (s : State) : BusFrame s (emit e s) :=
  ⟨⟨⟨rfl, rfl, rfl, rfl, rfl, rfl, fun _ => rfl, fun h => ⟨h, fun _ _ => ⟨rfl, rfl⟩⟩⟩, rfl, rfl, rfl, rfl⟩, rfl, rfl⟩

theorem delay_busFrame (d : DelayName) (s : State) : BusFrame s (delay d s) := emit_busFrame _ s

theorem log_busFrame (e : LogEvent) (s : State) : BusFrame s (log e s) := emit_busFrame _ s

theorem markTimeout_busFrame (s : State) : BusFrame s (markTimeout s) :=
  ⟨⟨⟨rfl, rfl, rfl, rfl, rfl, rfl, fun _ => rfl, fun h => ⟨h, fun _ _ => ⟨rfl, rfl⟩⟩⟩, rfl, rfl, rfl, rfl⟩, rfl, rfl⟩

theorem pinSet_busFrame {a b : Word} {s : State} (ha : UsedMask s.cfg a) (hb : UsedMask s.cfg b) :
    BusFrame s (pinSet a b s) := by
  have h := pinSet_frame a b s
  refine ⟨⟨⟨?_, ?_, ?_, ?_, ?_, ?_, fun _ => ?_, fun hf => ⟨?_, fun k hk => ?_⟩⟩, ?_, ?_, ?_, ?_⟩, ?_, ?_⟩
  case refine_9 => simp [pinSet_bit_alone a b hf, ha k hk, hb k hk]
  all_goals simp_all

theorem pinGet_busFrame {m : Word} {s : State} (hm : UsedMask s.cfg m) : BusFrame s (pinGet m s).2 := by
  have h := pinGet_frame m s
  refine ⟨⟨⟨?_, ?_, ?_, ?_, ?_, ?_, fun _ => ?_, fun hf => ⟨?_, fun k hk => ?_⟩⟩, ?_, ?_, ?_, ?_⟩, ?_, ?_⟩
  case refine_9 => simp [pinGet_regs, foreignMove_of_nil hf, hm k hk]
  all_goals simp_all

/-- The response and the sequencer are outside every frame. -/
theorem respond_busFrame (c : Code) (v : BitVec 32) (s : State) : BusFrame s (respond c v s) :=
  ⟨⟨⟨rfl, rfl, rfl, rfl, rfl, rfl, fun _ => rfl, fun h => ⟨h, fun _ _ => ⟨rfl, rfl⟩⟩⟩, rfl, rfl, rfl, rfl⟩, rfl, rfl⟩

theorem setCursor_moveFrame (a : Addr) (s : State) : MoveFrame s (setCursor a s) :=
  ⟨⟨rfl, rfl, rfl, rfl, rfl, rfl, fun _ => rfl, fun h => ⟨h, fun _ _ => ⟨rfl, rfl⟩⟩⟩, rfl, rfl, rfl, rfl⟩

theorem markOutOfWindow_moveFrame (p : Addr) (s : State) : MoveFrame s (markOutOfWindow p s) :=
  ⟨⟨rfl, rfl, rfl, rfl, rfl, rfl, fun _ => rfl, fun h => ⟨h, fun _ _ => ⟨rfl, rfl⟩⟩⟩, rfl, rfl, rfl, rfl⟩

theorem setDisplayFlags_hostFrame (d c b : Bool) (s : State) : HostFrame s (setDisplayFlags d c b s) :=
  ⟨rfl, rfl, rfl, rfl, rfl, rfl, fun _ => rfl, fun h => ⟨h, fun _ _ => ⟨rfl, rfl⟩⟩⟩

theorem setParseMode_hostFrame (m : ParseMode) (s : State) : HostFrame s (setParseMode m s) :=
  ⟨rfl, rfl, rfl, rfl, rfl, rfl, fun _ => rfl, fun h => ⟨h, fun _ _ => ⟨rfl, rfl⟩⟩⟩

end Sys2Proof.Machine
end

