-- ==== Sys2Proof/Laws/Bus.lean ====
section
/-! SUPPORT. BusTransport: for each transfer and for the wait, one lemma for each thing it does: the frame, the trace,
the answers used, the pins it leaves, the registers' width (41_bus_transport.md R131 to R137). -/

namespace Sys2Proof.Machine

/-! ### Masks and traces -/

theorem nibbleClear_eq (c : Config) (n : Nibble) : nibbleClear c n = (0xF - n.toNat) <<< c.dataShift := by
  simp [nibbleClear, BitVec.toNat_not]

theorem upperNibble_eq (b : Byte) : upperNibble b = BitVec.ofNat 4 (b.toNat / 16) := by
  apply BitVec.eq_of_toNat_eq
  simp [upperNibble, Nat.shiftRight_eq_div_pow]

theorem lowerNibble_eq (b : Byte) : lowerNibble b = BitVec.ofNat 4 (b.toNat % 16) := by
  apply BitVec.eq_of_toNat_eq
  simp [lowerNibble]

theorem getElem_ofNat_four (x i : Nat) (h : i < 4) : (BitVec.ofNat 4 x)[i] = x.testBit i := by
  rw [← BitVec.getLsbD_eq_getElem, BitVec.getLsbD_ofNat]
  simp [h]

/-- The nibble of a sample is that of its masked value. -/
theorem sampledNibble_masked (c : Config) (v : Word) :
    sampledNibble c (v &&& c.mData) = BitVec.ofNat 4 (v >>> c.dataShift) := by
  apply BitVec.eq_of_getLsbD_eq
  intro i hi
  have h1 : c.dataShift ≤ c.dataShift + i := by omega
  have h2 : c.dataShift + i < c.dataShift + 4 := by omega
  simp [sampledNibble, getElem_ofNat_four, hi, Nat.testBit_and]

/-! ### `write_nibble` -/

theorem writeNibble_busFrame (rs : RegSel) (n : Nibble) (s : State) : BusFrame s (writeNibble rs n s) := by
  have hw := UsedMask.writeSelect s.cfg rs
  unfold writeNibble
  dsimp only
  refine (pinSet_busFrame hw.1 hw.2).trans ?_
  refine (pinSet_busFrame (by simpa using UsedMask.mE _) (UsedMask.zero _)).trans ?_
  refine (delay_busFrame .wSetup _).trans ?_
  refine (pinSet_busFrame (a := nibbleSet s.cfg n) (b := nibbleClear s.cfg n)
    (by simpa using UsedMask.nibbleSet _ _) (by simpa using UsedMask.nibbleClear _ _)).trans ?_
  refine (delay_busFrame .wHold _).trans ((delay_busFrame .cap _).trans ?_)
  exact (pinSet_busFrame (UsedMask.zero _) (by simpa using UsedMask.mE _)).trans (delay_busFrame _ _)

@[simp] theorem writeNibble_cfg (rs : RegSel) (n : Nibble) (s : State) : (writeNibble rs n s).cfg = s.cfg :=
  (writeNibble_busFrame rs n s).cfg

@[simp] theorem writeNibble_life (rs : RegSel) (n : Nibble) (s : State) : (writeNibble rs n s).life = s.life :=
  (writeNibble_busFrame rs n s).life

@[simp] theorem writeNibble_timeoutSeen (rs : RegSel) (n : Nibble) (s : State) :
    (writeNibble rs n s).timeoutSeen = s.timeoutSeen := by simp [writeNibble]

@[simp] theorem writeNibble_samples (rs : RegSel) (n : Nibble) (s : State) :
    (writeNibble rs n s).samples = s.samples := by simp [writeNibble]

@[simp] theorem writeNibble_sampleCount (rs : RegSel) (n : Nibble) (s : State) :
    (writeNibble rs n s).sampleCount = s.sampleCount := by simp [writeNibble]

@[simp] theorem writeNibble_inReg (rs : RegSel) (n : Nibble) (s : State) :
    (writeNibble rs n s).inReg = s.inReg := by simp [writeNibble]

/-- The eight events of R131. -/
theorem writeNibble_trace (rs : RegSel) (n : Nibble) (s : State) :
    (writeNibble rs n s).trace = s.trace ++ writeNibbleTrace s.cfg rs n := by
  cases rs <;> simp [writeNibble, writeNibbleTrace, writeSelect, nibbleSet, nibbleClear_eq]

/-- What W1 to W7 leave on one of the block's bits. -/
theorem writeNibble_bit (rs : RegSel) (n : Nibble) {s : State} (hr : s.life = .ready) {k : Nat}
    (hk : s.cfg.mUsed.testBit k = true) :
    (writeNibble rs n s).out.testBit k =
      ((((((s.out.testBit k || (writeSelect s.cfg rs).1.testBit k) && !(writeSelect s.cfg rs).2.testBit k) ||
        s.cfg.mE.testBit k) || (nibbleSet s.cfg n).testBit k) && !(nibbleClear s.cfg n).testBit k) &&
        !s.cfg.mE.testBit k) ∧
    (writeNibble rs n s).dir.testBit k =
      (s.dir.testBit k || (writeSelect s.cfg rs).1.testBit k || (writeSelect s.cfg rs).2.testBit k ||
        s.cfg.mE.testBit k || (nibbleSet s.cfg n).testBit k || (nibbleClear s.cfg n).testBit k) := by
  simp only [writeNibble, delay_out, delay_dir]
  rw [(pinSet_bit _ _ (by simpa using hr) (by simpa using hk)).1,
    (pinSet_bit _ _ (by simpa using hr) (by simpa using hk)).2]
  simp only [delay_out, delay_dir]
  rw [(pinSet_bit _ _ (by simpa using hr) (by simpa using hk)).1,
    (pinSet_bit _ _ (by simpa using hr) (by simpa using hk)).2]
  simp only [delay_out, delay_dir]
  rw [(pinSet_bit _ _ (by simpa using hr) (by simpa using hk)).1,
    (pinSet_bit _ _ (by simpa using hr) (by simpa using hk)).2]
  rw [(pinSet_bit _ _ hr hk).1, (pinSet_bit _ _ hr hk).2]
  simp only [Nat.zero_testBit, Bool.or_false, Bool.not_false, Bool.and_true]
  refine ⟨trivial, ?_⟩
  cases s.cfg.mE.testBit k <;> simp

/-- A bit of the mask of the seven. -/
theorem used_rs (c : Config) : c.mUsed.testBit c.rsPin = true := by simp [testBit_mUsed]
theorem used_rw (c : Config) : c.mUsed.testBit c.rwPin = true := by simp [testBit_mUsed]
theorem used_e (c : Config) : c.mUsed.testBit c.ePin = true := by simp [testBit_mUsed]
theorem used_data (c : Config) {i : Nat} (hi : i < 4) : c.mUsed.testBit (c.dataShift + i) = true := by
  simp [testBit_mUsed, hi]

/-- The pins after a write transfer (R131, corner case 2). -/
theorem writeNibble_pins (rs : RegSel) (n : Nibble) {s : State} (hr : s.life = .ready) (hp : s.cfg.PinsOk) :
    SelectLines (writeNibble rs n s) false (selectLevel rs) ∧ DataPinsCarry (writeNibble rs n s) n := by
  obtain ⟨-, ⟨h12, h13, h23⟩, h4, h5, h6⟩ := hp
  have b1 := writeNibble_bit rs n hr (used_rs s.cfg)
  have b2 := writeNibble_bit rs n hr (used_rw s.cfg)
  have b3 := writeNibble_bit rs n hr (used_e s.cfg)
  have n1 : ¬ (s.cfg.dataShift ≤ s.cfg.rsPin ∧ s.cfg.rsPin < s.cfg.dataShift + 4) := by omega
  have n2 : ¬ (s.cfg.dataShift ≤ s.cfg.rwPin ∧ s.cfg.rwPin < s.cfg.dataShift + 4) := by omega
  have k1 : (nibbleSet s.cfg n).testBit s.cfg.rsPin = false := by
    by_contra h
    simp only [Bool.not_eq_false, testBit_nibbleSet, Bool.and_eq_true, decide_eq_true_eq] at h
    have := BitVec.lt_of_getLsbD h.2
    omega
  have k2 : (nibbleSet s.cfg n).testBit s.cfg.rwPin = false := by
    by_contra h
    simp only [Bool.not_eq_false, testBit_nibbleSet, Bool.and_eq_true, decide_eq_true_eq] at h
    have := BitVec.lt_of_getLsbD h.2
    omega
  have k3 : (nibbleClear s.cfg n).testBit s.cfg.rsPin = false := by
    by_contra h
    simp only [Bool.not_eq_false, testBit_nibbleClear, Bool.and_eq_true, decide_eq_true_eq] at h
    omega
  have k4 : (nibbleClear s.cfg n).testBit s.cfg.rwPin = false := by
    by_contra h
    simp only [Bool.not_eq_false, testBit_nibbleClear, Bool.and_eq_true, decide_eq_true_eq] at h
    omega
  refine ⟨⟨?_, ?_, ?_, ?_, ?_, ?_⟩, fun i hi => ?_⟩
  · rw [writeNibble_cfg, b1.2]; cases rs <;> simp [writeSelect, Nat.testBit_or]
  · rw [writeNibble_cfg, b2.2]; cases rs <;> simp [writeSelect, Nat.testBit_or]
  · rw [writeNibble_cfg, b3.2]; simp
  · rw [writeNibble_cfg, b2.1]; cases rs <;> simp [writeSelect, Nat.testBit_or, h23.symm, k2]
  · rw [writeNibble_cfg, b1.1]
    cases rs <;> simp [writeSelect, Nat.testBit_or, h13.symm, k1, k3, selectLevel, h12.symm]
  · rw [writeNibble_cfg, b3.1]; simp
  · have b := writeNibble_bit rs n hr (used_data s.cfg hi)
    have e : s.cfg.ePin ≠ s.cfg.dataShift + i := by omega
    rw [writeNibble_cfg, b.1, b.2]
    constructor
    · cases h : n[i] <;> simp [testBit_nibbleSet, testBit_nibbleClear, h, hi]
    · cases h : n[i] <;> simp [testBit_nibbleSet, testBit_nibbleClear, h, hi, e]

/-! ### Register width -/

/-- The three registers have `REG_W` bits. -/
def RegsFit (s : State) : Prop :=
  s.out < 2 ^ s.cfg.regW ∧ s.dir < 2 ^ s.cfg.regW ∧ s.inReg < 2 ^ s.cfg.regW

theorem pinSet_regsFit {a b : Word} {s : State} (hp : s.cfg.PinsOk) (ha : UsedMask s.cfg a)
    (hb : UsedMask s.cfg b) (h : RegsFit s) : RegsFit (pinSet a b s) := by
  obtain ⟨h1, h2⟩ := pinSet_lt h.1 h.2.1 (ha.lt hp) (hb.lt hp)
  exact ⟨by simpa using h1, by simpa using h2, by simpa using h.2.2⟩

theorem pinGet_regsFit {m : Word} {s : State} (h : RegsFit s) : RegsFit (pinGet m s).2 := by
  have hc := (pinGet_frame m s).1
  obtain ⟨h1, h2, h3⟩ := pinGet_lt (m := m) h.1 h.2.1
  exact ⟨by rw [hc]; exact h1, by rw [hc]; exact h2, by rw [hc]; exact h3⟩

theorem delay_regsFit (d : DelayName) {s : State} (h : RegsFit s) : RegsFit (delay d s) := h

theorem writeNibble_regsFit (rs : RegSel) (n : Nibble) {s : State} (hp : s.cfg.PinsOk) (h : RegsFit s) :
    RegsFit (writeNibble rs n s) := by
  have hw := UsedMask.writeSelect s.cfg rs
  unfold writeNibble
  refine delay_regsFit _ (pinSet_regsFit (by simpa using hp) (UsedMask.zero _) (by simpa using UsedMask.mE _) ?_)
  refine delay_regsFit _ (delay_regsFit _ ?_)
  refine pinSet_regsFit (by simpa using hp) (by simpa using UsedMask.nibbleSet _ _)
    (by simpa using UsedMask.nibbleClear _ _) ?_
  refine delay_regsFit _ (pinSet_regsFit (by simpa using hp) (by simpa using UsedMask.mE _) (UsedMask.zero _) ?_)
  exact pinSet_regsFit hp hw.1 hw.2 h

/-! ### `read_nibble` -/

theorem readNibble_busFrame (rs : RegSel) (s : State) : BusFrame s (readNibble rs s).2 := by
  have hw := UsedMask.readSelect s.cfg rs
  unfold readNibble
  dsimp only
  refine (pinSet_busFrame hw.1 hw.2).trans ?_
  refine (pinSet_busFrame (by simpa using UsedMask.mE _) (UsedMask.zero _)).trans ?_
  refine (delay_busFrame .rSetup _).trans ?_
  refine (pinGet_busFrame (by simpa using UsedMask.mData _)).trans ?_
  refine (delay_busFrame .rHold _).trans ?_
  refine (pinSet_busFrame (UsedMask.zero _) ?_).trans (delay_busFrame _ _)
  simpa [pinGet_frame] using UsedMask.mE _

@[simp] theorem readNibble_cfg (rs : RegSel) (s : State) : (readNibble rs s).2.cfg = s.cfg :=
  (readNibble_busFrame rs s).cfg

@[simp] theorem readNibble_life (rs : RegSel) (s : State) : (readNibble rs s).2.life = s.life :=
  (readNibble_busFrame rs s).life

@[simp] theorem readNibble_timeoutSeen (rs : RegSel) (s : State) :
    (readNibble rs s).2.timeoutSeen = s.timeoutSeen := by simp [readNibble, pinGet_frame]

@[simp] theorem readNibble_samples (rs : RegSel) (s : State) :
    (readNibble rs s).2.samples = s.samples.drop 1 := by simp [readNibble, pinGet_frame]

@[simp] theorem readNibble_sampleCount (rs : RegSel) (s : State) :
    (readNibble rs s).2.sampleCount = s.sampleCount + 1 := by simp [readNibble, pinGet_frame]

@[simp] theorem readNibble_inReg (rs : RegSel) (s : State) : (readNibble rs s).2.inReg = sampleAt s 0 := by
  simp only [readNibble, delay_inReg, pinSet_inReg, pinGet_regs, sampleAt_zero]
  simp [nextSample]

theorem nextSample_congr {s t : State} (h₁ : t.samples = s.samples) (h₂ : t.sampleCount = s.sampleCount)
    (h₃ : t.cfg = s.cfg) : nextSample t = nextSample s := by simp [nextSample, h₁, h₂, h₃]

/-- The nibble read is the sample's (R132). -/
@[simp] theorem readNibble_value (rs : RegSel) (s : State) :
    (readNibble rs s).1 = BitVec.ofNat 4 (sampleAt s 0 >>> s.cfg.dataShift) := by
  simp only [readNibble, pinGet_value]
  rw [sampledNibble_masked, sampleAt_zero, nextSample_congr (s := s) (by simp) (by simp) (by simp)]

/-- The seven events of R132. -/
theorem readNibble_trace (rs : RegSel) (s : State) :
    (readNibble rs s).2.trace = s.trace ++ readNibbleTrace s.cfg rs (sampleAt s 0) := by
  have h : nextSample (delay .rSetup (pinSet s.cfg.mE 0 (pinSet (readSelect s.cfg rs).1 (readSelect s.cfg rs).2 s))) =
      nextSample s := nextSample_congr (by simp) (by simp) (by simp)
  cases rs <;>
    simp_all [readNibble, readNibbleTrace, readSelect, pinGet_frame, sampleAt_zero]

/-- What R1 to R7 leave on one of the block's bits. -/
theorem readNibble_bit (rs : RegSel) {s : State} (hr : s.life = .ready) {k : Nat}
    (hk : s.cfg.mUsed.testBit k = true) :
    (readNibble rs s).2.out.testBit k =
      ((((s.out.testBit k || (readSelect s.cfg rs).1.testBit k) && !(readSelect s.cfg rs).2.testBit k) ||
        s.cfg.mE.testBit k) && !s.cfg.mE.testBit k) ∧
    (readNibble rs s).2.dir.testBit k =
      (((s.dir.testBit k || (readSelect s.cfg rs).1.testBit k || (readSelect s.cfg rs).2.testBit k ||
        s.cfg.mE.testBit k) && !s.cfg.mData.testBit k) || s.cfg.mE.testBit k) := by
  simp only [readNibble, delay_out, delay_dir]
  rw [(pinSet_bit _ _ (by simpa [pinGet_frame] using hr) (by simpa [pinGet_frame] using hk)).1,
    (pinSet_bit _ _ (by simpa [pinGet_frame] using hr) (by simpa [pinGet_frame] using hk)).2]
  simp only [delay_out, delay_dir]
  rw [(pinGet_bit _ (by simpa using hr) (by simpa using hk)).1,
    (pinGet_bit _ (by simpa using hr) (by simpa using hk)).2]
  simp only [delay_out, delay_dir]
  rw [(pinSet_bit _ _ (by simpa using hr) (by simpa using hk)).1,
    (pinSet_bit _ _ (by simpa using hr) (by simpa using hk)).2]
  rw [(pinSet_bit _ _ hr hk).1, (pinSet_bit _ _ hr hk).2]
  simp only [Nat.zero_testBit, Bool.or_false, Bool.not_false, Bool.and_true, and_self]

/-- The pins after a read transfer (R132, corner case 2); `OUT` keeps the data pins' levels. -/
theorem readNibble_pins (rs : RegSel) {s : State} (hr : s.life = .ready) (hp : s.cfg.PinsOk) :
    SelectLines (readNibble rs s).2 true (selectLevel rs) ∧ DataPinsAreInputs (readNibble rs s).2 ∧
    ∀ i, i < 4 → (readNibble rs s).2.out.testBit (s.cfg.dataShift + i) = s.out.testBit (s.cfg.dataShift + i) := by
  obtain ⟨-, ⟨h12, h13, h23⟩, h4, h5, h6⟩ := hp
  have b1 := readNibble_bit rs hr (used_rs s.cfg)
  have b2 := readNibble_bit rs hr (used_rw s.cfg)
  have b3 := readNibble_bit rs hr (used_e s.cfg)
  have d1 : s.cfg.mData.testBit s.cfg.rsPin = false := by simp; omega
  have d2 : s.cfg.mData.testBit s.cfg.rwPin = false := by simp; omega
  refine ⟨⟨?_, ?_, ?_, ?_, ?_, ?_⟩, fun i hi => ?_, fun i hi => ?_⟩
  · rw [readNibble_cfg, b1.2, d1]; cases rs <;> simp [readSelect, Nat.testBit_or]
  · rw [readNibble_cfg, b2.2, d2]; cases rs <;> simp [readSelect, Nat.testBit_or]
  · rw [readNibble_cfg, b3.2]; simp
  · rw [readNibble_cfg, b2.1]; cases rs <;> simp [readSelect, Nat.testBit_or, h23.symm, h12]
  · rw [readNibble_cfg, b1.1]; cases rs <;> simp [readSelect, Nat.testBit_or, h13.symm, selectLevel]
  · rw [readNibble_cfg, b3.1]; simp
  · have b := readNibble_bit rs hr (used_data s.cfg hi)
    have e : s.cfg.ePin ≠ s.cfg.dataShift + i := by omega
    rw [readNibble_cfg, b.2]
    simp [hi, e]
  · have b := readNibble_bit rs hr (used_data s.cfg hi)
    have e : s.cfg.ePin ≠ s.cfg.dataShift + i := by omega
    have e1 : s.cfg.rsPin ≠ s.cfg.dataShift + i := by omega
    have e2 : s.cfg.rwPin ≠ s.cfg.dataShift + i := by omega
    rw [b.1]
    cases rs <;> simp [readSelect, Nat.testBit_or, e, e1, e2]

theorem readNibble_regsFit (rs : RegSel) {s : State} (hp : s.cfg.PinsOk) (h : RegsFit s) :
    RegsFit (readNibble rs s).2 := by
  have hw := UsedMask.readSelect s.cfg rs
  unfold readNibble
  refine delay_regsFit _ (pinSet_regsFit (by simpa [pinGet_frame] using hp) (UsedMask.zero _)
    (by simpa [pinGet_frame] using UsedMask.mE _) ?_)
  refine delay_regsFit _ (pinGet_regsFit (delay_regsFit _ ?_))
  refine pinSet_regsFit (by simpa using hp) (by simpa using UsedMask.mE _) (UsedMask.zero _) ?_
  exact pinSet_regsFit hp hw.1 hw.2 h

/-! ### Bytes -/

theorem writeByte_busFrame (rs : RegSel) (b : Byte) (s : State) : BusFrame s (writeByte rs b s) :=
  (writeNibble_busFrame _ _ _).trans (writeNibble_busFrame _ _ _)

@[simp] theorem writeByte_cfg (rs : RegSel) (b : Byte) (s : State) : (writeByte rs b s).cfg = s.cfg :=
  (writeByte_busFrame rs b s).cfg

@[simp] theorem writeByte_timeoutSeen (rs : RegSel) (b : Byte) (s : State) :
    (writeByte rs b s).timeoutSeen = s.timeoutSeen := by simp [writeByte]

@[simp] theorem writeByte_samples (rs : RegSel) (b : Byte) (s : State) :
    (writeByte rs b s).samples = s.samples := by simp [writeByte]

@[simp] theorem writeByte_sampleCount (rs : RegSel) (b : Byte) (s : State) :
    (writeByte rs b s).sampleCount = s.sampleCount := by simp [writeByte]

/-- "Always sends ... the upper nibble first" (R133). -/
theorem writeByte_trace (rs : RegSel) (b : Byte) (s : State) :
    (writeByte rs b s).trace = s.trace ++ writeByteTrace s.cfg rs b := by
  simp [writeByte, writeNibble_trace, writeByteTrace, upperNibble_eq, lowerNibble_eq]

theorem writeByte_pins (rs : RegSel) (b : Byte) {s : State} (hr : s.life = .ready) (hp : s.cfg.PinsOk) :
    SelectLines (writeByte rs b s) false (selectLevel rs) ∧
    DataPinsCarry (writeByte rs b s) (BitVec.ofNat 4 (b.toNat % 16)) := by
  rw [← lowerNibble_eq]
  exact writeNibble_pins rs _ (by simpa using hr) (by simpa using hp)

theorem writeByte_regsFit (rs : RegSel) (b : Byte) {s : State} (hp : s.cfg.PinsOk) (h : RegsFit s) :
    RegsFit (writeByte rs b s) :=
  writeNibble_regsFit _ _ (by simpa using hp) (writeNibble_regsFit _ _ hp h)

theorem readByte_busFrame (rs : RegSel) (s : State) : BusFrame s (readByte rs s).2 :=
  (readNibble_busFrame _ _).trans (readNibble_busFrame _ _)

@[simp] theorem readByte_cfg (rs : RegSel) (s : State) : (readByte rs s).2.cfg = s.cfg :=
  (readByte_busFrame rs s).cfg

@[simp] theorem readByte_life (rs : RegSel) (s : State) : (readByte rs s).2.life = s.life :=
  (readByte_busFrame rs s).life

@[simp] theorem readByte_timeoutSeen (rs : RegSel) (s : State) :
    (readByte rs s).2.timeoutSeen = s.timeoutSeen := by simp [readByte]

@[simp] theorem readByte_samples (rs : RegSel) (s : State) :
    (readByte rs s).2.samples = s.samples.drop 2 := by simp [readByte]

@[simp] theorem readByte_sampleCount (rs : RegSel) (s : State) :
    (readByte rs s).2.sampleCount = s.sampleCount + 2 := by simp [readByte]

/-! ### Answers used -/

theorem SamplesUsed.refl (s : State) : SamplesUsed s s 0 := ⟨rfl, rfl, rfl⟩

theorem SamplesUsed.trans {s t u : State} {j k : Nat} (h : SamplesUsed s t j) (h' : SamplesUsed t u k)
    (hc : t.cfg = s.cfg) : SamplesUsed s u (j + k) := by
  refine ⟨by rw [h'.samples, h.samples, List.drop_drop], by rw [h'.sampleCount, h.sampleCount]; omega, ?_⟩
  rw [h'.inReg, h.inReg]
  rcases k with _ | k
  · simp
  · rw [if_neg (by omega), if_neg (by omega), sampleAt_shift j _ h.samples h.sampleCount hc]
    congr 1

/-- A state that differs in neither answers nor `IN`. -/
theorem SamplesUsed.congr {s t u : State} {k : Nat} (h : SamplesUsed s t k) (h₁ : u.samples = t.samples)
    (h₂ : u.sampleCount = t.sampleCount) (h₃ : u.inReg = t.inReg) : SamplesUsed s u k :=
  ⟨h₁.trans h.samples, h₂.trans h.sampleCount, h₃.trans h.inReg⟩

theorem writeNibble_used (rs : RegSel) (n : Nibble) (s : State) : SamplesUsed s (writeNibble rs n s) 0 :=
  (SamplesUsed.refl s).congr (by simp) (by simp) (by simp)

theorem writeByte_used (rs : RegSel) (b : Byte) (s : State) : SamplesUsed s (writeByte rs b s) 0 :=
  (writeNibble_used _ _ s).trans (writeNibble_used _ _ _) (by simp)

theorem readNibble_used (rs : RegSel) (s : State) : SamplesUsed s (readNibble rs s).2 1 :=
  ⟨by simp, by simp, by simp⟩

theorem readByte_used (rs : RegSel) (s : State) : SamplesUsed s (readByte rs s).2 2 :=
  (readNibble_used rs s).trans (readNibble_used rs _) (by simp)

theorem readNibble_sampleAt (rs : RegSel) (s : State) (k : Nat) :
    sampleAt (readNibble rs s).2 k = sampleAt s (1 + k) :=
  sampleAt_shift 1 k (by simp) (by simp) (by simp)

/-- `{hi, lo}` (R134). -/
theorem readByte_value (rs : RegSel) (s : State) :
    (readByte rs s).1 = BitVec.ofNat 4 (sampleAt s 0 >>> s.cfg.dataShift) ++
      BitVec.ofNat 4 (sampleAt s 1 >>> s.cfg.dataShift) := by
  simp only [readByte, readNibble_value, readNibble_sampleAt, readNibble_cfg]

/-- The byte read is that of its two samples. -/
theorem readByte_toNat (rs : RegSel) (s : State) : (readByte rs s).1.toNat = byteOfSamples s.cfg (statusAt s 0) := by
  rw [readByte_value, BitVec.toNat_append, BitVec.toNat_ofNat, BitVec.toNat_ofNat, byteOfSamples, statusAt,
    ← Nat.shiftLeft_add_eq_or_of_lt (Nat.mod_lt _ (by decide)), Nat.shiftLeft_eq]

/-- "The busy flag is bit 3 of the first nibble sampled" (R98). -/
theorem readByte_busy (s : State) : statusBusy (readByte .cmd s).1 = busyAnswer s.cfg (statusAt s 0) := by
  rw [readByte_value, statusBusy, busyAnswer, statusAt, BitVec.getLsbD_append]
  simp [getElem_ofNat_four]

theorem readByte_trace (rs : RegSel) (s : State) :
    (readByte rs s).2.trace = s.trace ++ readByteTrace s.cfg rs (statusAt s 0) := by
  simp [readByte, readNibble_trace, readByteTrace, statusAt, readNibble_sampleAt]

theorem readByte_pins (rs : RegSel) {s : State} (hr : s.life = .ready) (hp : s.cfg.PinsOk) :
    SelectLines (readByte rs s).2 true (selectLevel rs) ∧ DataPinsAreInputs (readByte rs s).2 ∧
    ∀ i, i < 4 → (readByte rs s).2.out.testBit (s.cfg.dataShift + i) = s.out.testBit (s.cfg.dataShift + i) := by
  obtain ⟨-, -, h1⟩ := readNibble_pins rs hr hp
  obtain ⟨h2, h3, h4⟩ := readNibble_pins rs (s := (readNibble rs s).2) (by simpa using hr) (by simpa using hp)
  refine ⟨h2, h3, fun i hi => ?_⟩
  have h5 := h4 i hi
  rw [readNibble_cfg] at h5
  exact h5.trans (h1 i hi)

theorem readByte_regsFit (rs : RegSel) {s : State} (hp : s.cfg.PinsOk) (h : RegsFit s) :
    RegsFit (readByte rs s).2 :=
  readNibble_regsFit _ (by simpa using hp) (readNibble_regsFit _ hp h)

end Sys2Proof.Machine
end

