-- ==== Sys2Proof/Laws/Wait.lean ====
section
/-! SUPPORT. The busy poll and the command pattern (41_bus_transport.md R136, 42_display_commands.md R161): how many
status reads, which events, which answers are used, and what stays. -/

namespace Sys2Proof.Machine

theorem statusAt_shift {s t : State} (n j : Nat) (hs : t.samples = s.samples.drop (2 * n))
    (hc : t.sampleCount = s.sampleCount + 2 * n) (hw : t.cfg = s.cfg) : statusAt t j = statusAt s (n + j) := by
  unfold statusAt
  rw [sampleAt_shift (2 * n) _ hs hc hw, sampleAt_shift (2 * n) _ hs hc hw]
  congr 2 <;> omega

/-- One round of the poll loop's events. -/
def loopTrace (s : State) (q j : Nat) : List Event :=
  readByteTrace s.cfg .cmd (statusAt s j) ++ if j + 1 < q then [.delay .poll] else []

/-- All that the poll loop does with `rest` poll delays left. -/
theorem pollLoop_spec (rest : Nat) (s : State) : ∃ q, 1 ≤ q ∧ q ≤ rest + 1 ∧
    (∀ j, j + 1 < q → busyAnswer s.cfg (statusAt s j) = true) ∧
    (pollLoop rest s).1 = !busyAnswer s.cfg (statusAt s (q - 1)) ∧
    (busyAnswer s.cfg (statusAt s (q - 1)) = true → q = rest + 1) ∧
    (pollLoop rest s).2.trace = s.trace ++ (List.range q).flatMap (loopTrace s q) ∧
    SamplesUsed s (pollLoop rest s).2 (2 * q) := by
  induction rest generalizing s with
  | zero =>
    refine ⟨1, Nat.le_refl 1, Nat.le_refl 1, fun j hj => by omega, ?_, fun _ => rfl, ?_, readByte_used .cmd s⟩
    · simp [pollLoop, readByte_busy]
    · simp [pollLoop, readByte_trace, loopTrace]
  | succ rest ih =>
    by_cases hb : statusBusy (readByte .cmd s).1 = true
    · have hb' := hb
      rw [readByte_busy] at hb'
      obtain ⟨q, h1, h2, h3, h4, h5, h6, h7⟩ := ih (delay .poll (readByte .cmd s).2)
      have hst : ∀ j, statusAt (delay .poll (readByte .cmd s).2) j = statusAt s (1 + j) := fun j =>
        statusAt_shift 1 j (by simp) (by simp) (by simp)
      simp only [hst, delay_cfg, readByte_cfg] at h3 h4 h5 h6
      have hq : 1 + (q - 1) = q := by omega
      rw [hq] at h4 h5
      have hp : pollLoop (rest + 1) s = pollLoop rest (delay .poll (readByte .cmd s).2) := by
        simp [pollLoop, hb]
      rw [hp]
      refine ⟨q + 1, by omega, by omega, fun j hj => ?_, h4, fun h => by rw [h5 h], ?_, ?_⟩
      · rcases j with _ | j
        · exact hb'
        · rw [Nat.add_comm j 1]
          exact h3 j (by omega)
      · have hl : ∀ j, loopTrace (delay .poll (readByte .cmd s).2) q j = loopTrace s (q + 1) (j + 1) := by
          intro j
          have : (j + 1 < q) = (j + 1 + 1 < q + 1) := by rw [eq_iff_iff]; omega
          simp only [loopTrace, hst, delay_cfg, readByte_cfg, this, Nat.add_comm 1 j]
        have h0 : loopTrace s (q + 1) 0 = readByteTrace s.cfg .cmd (statusAt s 0) ++ [.delay .poll] := by
          have : 0 + 1 < q + 1 := by omega
          simp only [loopTrace, if_pos this]
        rw [h6, List.range_succ_eq_map, List.flatMap_cons, h0, List.flatMap_map]
        rw [funext hl]
        simp [readByte_trace]
      · have h8 := ((readByte_used .cmd s).congr (u := delay .poll (readByte .cmd s).2) rfl rfl rfl).trans h7
          (by simp)
        rwa [show 2 * (q + 1) = 2 + 2 * q by omega]
    · have hb' := hb
      rw [readByte_busy] at hb'
      refine ⟨1, by omega, by omega, fun j hj => by omega, ?_, fun h => absurd h hb', ?_, ?_⟩
      · simp only [Bool.not_eq_true] at hb'
        simp [pollLoop, hb, hb']
      · simp [pollLoop, hb, readByte_trace, loopTrace]
      · simpa [pollLoop, hb] using readByte_used .cmd s

theorem pollLoop_busFrame (rest : Nat) (s : State) : BusFrame s (pollLoop rest s).2 := by
  induction rest generalizing s with
  | zero => exact readByte_busFrame .cmd s
  | succ rest ih =>
    unfold pollLoop
    dsimp only
    split
    · exact ((readByte_busFrame _ _).trans (delay_busFrame .poll _)).trans (ih _)
    · exact readByte_busFrame _ _

@[simp] theorem pollLoop_timeoutSeen (rest : Nat) (s : State) :
    (pollLoop rest s).2.timeoutSeen = s.timeoutSeen := by
  induction rest generalizing s with
  | zero => simp [pollLoop]
  | succ rest ih =>
    unfold pollLoop
    dsimp only
    split <;> simp [ih]

theorem pollLoop_pins (rest : Nat) {s : State} (hr : s.life = .ready) (hp : s.cfg.PinsOk) :
    SelectLines (pollLoop rest s).2 true false := by
  induction rest generalizing s with
  | zero => exact (readByte_pins .cmd hr hp).1
  | succ rest ih =>
    unfold pollLoop
    dsimp only
    split
    · exact ih (by simpa using hr) (by simpa using hp)
    · exact (readByte_pins .cmd hr hp).1

theorem pollLoop_regsFit (rest : Nat) {s : State} (hp : s.cfg.PinsOk) (h : RegsFit s) :
    RegsFit (pollLoop rest s).2 := by
  induction rest generalizing s with
  | zero => exact readByte_regsFit .cmd hp h
  | succ rest ih =>
    unfold pollLoop
    dsimp only
    split
    · exact ih (by simpa using hp) (delay_regsFit _ (readByte_regsFit .cmd hp h))
    · exact readByte_regsFit .cmd hp h

theorem recheck_busFrame (s : State) : BusFrame s (recheck s).2 := by
  unfold recheck
  dsimp only
  split
  · exact (readByte_busFrame _ _).trans (markTimeout_busFrame _)
  · exact readByte_busFrame _ _

theorem waitReady_busFrame (s : State) : BusFrame s (waitReady s).2 := by
  unfold waitReady
  dsimp only
  split
  · exact pollLoop_busFrame _ _
  · exact (pollLoop_busFrame _ _).trans (recheck_busFrame _)

@[simp] theorem waitReady_cfg (s : State) : (waitReady s).2.cfg = s.cfg := (waitReady_busFrame s).cfg

@[simp] theorem waitReady_life (s : State) : (waitReady s).2.life = s.life := (waitReady_busFrame s).life

theorem waitReady_pins {s : State} (hr : s.life = .ready) (hp : s.cfg.PinsOk) :
    SelectLines (waitReady s).2 true false := by
  unfold waitReady recheck
  dsimp only
  have hf := pollLoop_busFrame s.cfg.pollCount s
  split
  · exact pollLoop_pins _ hr hp
  · have h := (readByte_pins .cmd (s := (pollLoop s.cfg.pollCount s).2) (hf.life.trans hr) (by rw [hf.cfg]; exact hp)).1
    split
    · exact h
    · exact h

theorem waitReady_regsFit {s : State} (hp : s.cfg.PinsOk) (h : RegsFit s) : RegsFit (waitReady s).2 := by
  unfold waitReady recheck
  dsimp only
  have hf := pollLoop_busFrame s.cfg.pollCount s
  split
  · exact pollLoop_regsFit _ hp h
  · have h := readByte_regsFit .cmd (s := (pollLoop s.cfg.pollCount s).2) (by rw [hf.cfg]; exact hp)
      (pollLoop_regsFit _ hp h)
    split
    · exact h
    · exact h

/-- All that a wait does: how many status reads it makes, whether it times out, its events, the answers it uses, and the
sticky flag (R136). -/
theorem waitReady_spec (s : State) : ∃ q, WaitRun s q (waitReady s).1 ∧
    (waitReady s).2.trace = s.trace ++ waitTrace s q (waitReady s).1 ∧
    (waitReady s).2.timeoutSeen = (s.timeoutSeen || (waitReady s).1) ∧
    SamplesUsed s (waitReady s).2 (2 * q) := by
  obtain ⟨q, h1, h2, h3, h4, h5, h6, h7⟩ := pollLoop_spec s.cfg.pollCount s
  have hf := pollLoop_busFrame s.cfg.pollCount s
  by_cases hb : busyAnswer s.cfg (statusAt s (q - 1)) = true
  · have hq := h5 hb
    have hp : (pollLoop s.cfg.pollCount s).1 = false := by rw [h4, hb]; rfl
    have hst : ∀ j, statusAt (pollLoop s.cfg.pollCount s).2 j = statusAt s (q + j) := fun j =>
      statusAt_shift q j h7.samples h7.sampleCount hf.cfg
    have hbusy : statusBusy (readByte .cmd (pollLoop s.cfg.pollCount s).2).1 =
        busyAnswer s.cfg (statusAt s q) := by rw [readByte_busy, hst, hf.cfg]; rfl
    have htr : (List.range q).flatMap (loopTrace s q) ++ readByteTrace s.cfg .cmd (statusAt s q) =
        (List.range (q + 1)).flatMap (pollTrace s (q + 1)) := by
      rw [List.range_succ, List.flatMap_append]
      have h9 : pollTrace s (q + 1) q = readByteTrace s.cfg .cmd (statusAt s q) := by
        have : ¬ (q + 1 < q + 1 ∧ q < s.cfg.pollCount) := by omega
        simp only [pollTrace, if_neg this, List.append_nil]
      have h10 : (List.range q).flatMap (loopTrace s q) = (List.range q).flatMap (pollTrace s (q + 1)) := by
        apply List.flatMap_congr
        intro j hj
        have hj := List.mem_range.1 hj
        have : (j + 1 < q) = (j + 1 < q + 1 ∧ j < s.cfg.pollCount) := by rw [eq_iff_iff]; omega
        simp only [loopTrace, pollTrace, this]
      simp only [h10, List.flatMap_cons, List.flatMap_nil, List.append_nil, h9]
    have hu : SamplesUsed s (readByte .cmd (pollLoop s.cfg.pollCount s).2).2 (2 * (q + 1)) :=
      h7.trans (readByte_used _ _) hf.cfg
    have hbb : ∀ j, j + 1 < q + 1 → busyAnswer s.cfg (statusAt s j) = true := by
      intro j hj
      by_cases hjq : j + 1 < q
      · exact h3 j hjq
      · have : j = q - 1 := by omega
        rw [this]; exact hb
    by_cases hb2 : busyAnswer s.cfg (statusAt s q) = true
    · have hw : waitReady s = (true, markTimeout (readByte .cmd (pollLoop s.cfg.pollCount s).2).2) := by
        simp [waitReady, recheck, hp, hbusy, hb2]
      rw [hw]
      refine ⟨q + 1, ⟨by omega, by omega, hbb, hb2, fun _ => by omega⟩, ?_, ?_, hu.congr rfl rfl rfl⟩
      · simp only [markTimeout_trace, readByte_trace, h6, hst, hf.cfg, waitTrace, if_true, ← htr]
        simp
      · simp
    · have hb3 : busyAnswer s.cfg (statusAt s q) = false := by simpa using hb2
      have hw : waitReady s = (false, (readByte .cmd (pollLoop s.cfg.pollCount s).2).2) := by
        simp [waitReady, recheck, hp, hbusy, hb3]
      rw [hw]
      refine ⟨q + 1, ⟨by omega, by omega, hbb, hb3, fun h => by simp at h⟩, ?_, ?_, hu⟩
      · simp only [readByte_trace, h6, hst, hf.cfg, waitTrace, ← htr]
        simp
      · simp
  · have hb3 : busyAnswer s.cfg (statusAt s (q - 1)) = false := by simpa using hb
    have hp : (pollLoop s.cfg.pollCount s).1 = true := by rw [h4, hb3]; rfl
    have hw : waitReady s = (false, (pollLoop s.cfg.pollCount s).2) := by simp [waitReady, hp]
    rw [hw]
    refine ⟨q, ⟨h1, by omega, h3, hb3, fun h => by simp at h⟩, ?_, ?_, h7⟩
    · have h10 : (List.range q).flatMap (loopTrace s q) = (List.range q).flatMap (pollTrace s q) := by
        apply List.flatMap_congr
        intro j hj
        have hj := List.mem_range.1 hj
        have : (j + 1 < q) = (j + 1 < q ∧ j < s.cfg.pollCount) := by rw [eq_iff_iff]; omega
        simp only [loopTrace, pollTrace, ← this]
      simp only [h6, waitTrace, h10]
      simp
    · simp

/-- The status reads of a wait are determined by the answers. -/
theorem WaitRun.unique {s : State} {q q' : Nat} {b b' : Bool} (h : WaitRun s q b) (h' : WaitRun s q' b') :
    q = q' ∧ b = b' := by
  have key : ∀ {q q' : Nat} {b b' : Bool}, WaitRun s q b → WaitRun s q' b' → ¬ q < q' := by
    intro q q' b b' h h' hlt
    have h1 := h'.busy_before (q - 1) (by have := h.one_le; omega)
    rw [h.last] at h1
    have := h.timeout_at_bound h1
    have := h'.le_bound
    omega
  have hq : q = q' := by
    have := key h h'
    have := key h' h
    omega
  subst hq
  exact ⟨rfl, h.last.symm.trans h'.last⟩

/-- With a ready LCD a wait costs exactly one status read (R136, corner case 3). -/
theorem waitRun_of_ready {s : State} (h : busyAnswer s.cfg (statusAt s 0) = false) : WaitRun s 1 false :=
  ⟨Nat.le_refl 1, by omega, fun j hj => by omega, h, fun h => by simp at h⟩

theorem waitReady_of_ready {s : State} (h : busyAnswer s.cfg (statusAt s 0) = false) :
    (waitReady s).1 = false ∧ (waitReady s).2.trace = s.trace ++ readByteTrace s.cfg .cmd (statusAt s 0) ∧
    (waitReady s).2.timeoutSeen = s.timeoutSeen ∧ SamplesUsed s (waitReady s).2 2 := by
  obtain ⟨q, hq, h1, h2, h3⟩ := waitReady_spec s
  obtain ⟨rfl, hb⟩ := hq.unique (waitRun_of_ready h)
  rw [hb] at h1 h2
  refine ⟨hb, ?_, by simpa using h2, h3⟩
  rw [h1]
  simp [waitTrace, pollTrace]

/-! ### The command pattern -/

theorem command_busFrame (b : Byte) (s : State) : BusFrame s (command b s) :=
  (waitReady_busFrame s).trans (writeByte_busFrame _ _ _)

@[simp] theorem command_cfg (b : Byte) (s : State) : (command b s).cfg = s.cfg := (command_busFrame b s).cfg
@[simp] theorem command_life (b : Byte) (s : State) : (command b s).life = s.life := (command_busFrame b s).life
@[simp] theorem command_cursor (b : Byte) (s : State) : (command b s).cursor = s.cursor :=
  (command_busFrame b s).cursor

/-- A byte sent after a wait: commands and characters alike (R161). -/
theorem waited_byteSent (rs : RegSel) (b : Byte) {s : State} (hr : s.life = .ready) (hp : s.cfg.PinsOk) :
    ByteSent s (writeByte rs b (waitReady s).2) rs b := by
  obtain ⟨q, hq, h1, h2, h3⟩ := waitReady_spec s
  obtain ⟨h4, h5⟩ := writeByte_pins rs b (s := (waitReady s).2) (by simpa using hr) (by simpa using hp)
  exact ⟨⟨q, _, hq, by simp [writeByte_trace, h1], by simp [h2], h3.trans (writeByte_used rs b _) (by simp)⟩, h4, h5⟩

/-- The command pattern: the wait, then the byte on the command side (R161). -/
theorem command_sent (b : Byte) {s : State} (hr : s.life = .ready) (hp : s.cfg.PinsOk) :
    ByteSent s (command b s) .cmd b := waited_byteSent .cmd b hr hp

/-- A byte sent to a ready LCD: 30 events, two answers used. -/
theorem waited_of_ready (rs : RegSel) (b : Byte) {s : State} (h : busyAnswer s.cfg (statusAt s 0) = false) :
    (writeByte rs b (waitReady s).2).trace =
      s.trace ++ readByteTrace s.cfg .cmd (statusAt s 0) ++ writeByteTrace s.cfg rs b ∧
    (writeByte rs b (waitReady s).2).timeoutSeen = s.timeoutSeen ∧
    SamplesUsed s (writeByte rs b (waitReady s).2) 2 := by
  obtain ⟨-, h1, h2, h3⟩ := waitReady_of_ready h
  exact ⟨by simp [writeByte_trace, h1], by simp [h2], h3.trans (writeByte_used rs b _) (by simp)⟩

/-- A command to a ready LCD. -/
theorem command_of_ready (b : Byte) {s : State} (h : busyAnswer s.cfg (statusAt s 0) = false) :
    (command b s).trace = s.trace ++ commandTrace s.cfg (statusAt s 0) b ∧
    (command b s).timeoutSeen = s.timeoutSeen ∧ SamplesUsed s (command b s) 2 := by
  obtain ⟨h1, h2, h3⟩ := waited_of_ready .cmd b h
  exact ⟨by rw [command, h1, commandTrace, List.append_assoc], h2, h3⟩

theorem command_pins (b : Byte) {s : State} (hr : s.life = .ready) (hp : s.cfg.PinsOk) :
    SelectLines (command b s) false false ∧ DataPinsCarry (command b s) (BitVec.ofNat 4 (b.toNat % 16)) :=
  writeByte_pins .cmd b (by simpa using hr) (by simpa using hp)

theorem command_regsFit (b : Byte) {s : State} (hp : s.cfg.PinsOk) (h : RegsFit s) : RegsFit (command b s) :=
  writeByte_regsFit _ _ (by simpa using hp) (waitReady_regsFit hp h)

end Sys2Proof.Machine
end

