-- ==== Sys2Proof/Laws/Moves.lean ====
section
/-! SUPPORT. What the operations above the bus are made of, said once: commands, characters and writes of the mirror.
Every property that these keep is kept by all of them (43_position.md, 44_terminal.md, 45_host.md). -/

namespace Sys2Proof.Machine

/-- `t` is reached from `s` by commands, characters, writes of `CURSOR` and assertions. -/
inductive Moves (s : State) : State → Prop where
  | refl : Moves s s
  | command {t : State} (h : Moves s t) (b : Byte) : Moves s (command b t)
  | character {t : State} (h : Moves s t) (b : Byte) : Moves s (writeByte .data b (waitReady t).2)
  | cursor {t : State} (h : Moves s t) (a : Addr) : Moves s (setCursor a t)
  | outOfWindow {t : State} (h : Moves s t) (p : Addr) : Moves s (markOutOfWindow p t)

/-- `t` is reached from `s` by moves, writes of the display flags and of the parser's state, and logs of unknown escape codes. -/
inductive Edits (s : State) : State → Prop where
  | refl : Edits s s
  | moves {t u : State} (h : Edits s t) (h' : Moves t u) : Edits s u
  | flags {t : State} (h : Edits s t) (d c b : Bool) : Edits s (setDisplayFlags d c b t)
  | parse {t : State} (h : Edits s t) (m : ParseMode) : Edits s (setParseMode m t)
  | unknown {t : State} (h : Edits s t) (b : Byte) : Edits s (log (.unknownEsc b) t)

theorem Moves.trans {s t u : State} (h : Moves s t) (h' : Moves t u) : Moves s u := by
  induction h' with
  | refl => exact h
  | command _ b ih => exact ih.command b
  | character _ b ih => exact ih.character b
  | cursor _ a ih => exact ih.cursor a
  | outOfWindow _ p ih => exact ih.outOfWindow p

theorem Edits.trans {s t u : State} (h : Edits s t) (h' : Edits t u) : Edits s u := by
  induction h' with
  | refl => exact h
  | moves _ h' ih => exact ih.moves h'
  | flags _ d c b ih => exact ih.flags d c b
  | parse _ m ih => exact ih.parse m
  | unknown _ b ih => exact ih.unknown b

theorem Moves.edits {s t : State} (h : Moves s t) : Edits s t := Edits.refl.moves h

/-! ### What they keep -/

/-- The three control pins are outputs and enable is 0 (10_state.md R42). -/
def ControlDriven (s : State) : Prop :=
  s.dir.testBit s.cfg.rsPin = true ∧ s.dir.testBit s.cfg.rwPin = true ∧ s.dir.testBit s.cfg.ePin = true ∧
  s.out.testBit s.cfg.ePin = false

theorem SelectLines.driven {s : State} {rw rs : Bool} (h : SelectLines s rw rs) : ControlDriven s :=
  ⟨h.1, h.2.1, h.2.2.1, h.2.2.2.2.2⟩

/-- The pins' part of the invariant while the block is up. -/
structure PinsGood (s : State) : Prop where
  pinsOk : s.cfg.PinsOk
  ready : s.life = .ready
  fit : RegsFit s
  driven : ControlDriven s

theorem command_pinsGood (b : Byte) {s : State} (h : PinsGood s) : PinsGood (command b s) :=
  ⟨by simpa using h.pinsOk, by simpa using h.ready, command_regsFit b h.pinsOk h.fit,
    (command_pins b h.ready h.pinsOk).1.driven⟩

theorem character_pinsGood (b : Byte) {s : State} (h : PinsGood s) :
    PinsGood (writeByte .data b (waitReady s).2) :=
  ⟨by simpa using h.pinsOk, (writeByte_busFrame _ _ _).life.trans (by simpa using h.ready),
    writeByte_regsFit _ _ (by simpa using h.pinsOk) (waitReady_regsFit h.pinsOk h.fit),
    (writeByte_pins .data b (by simpa using h.ready) (by simpa using h.pinsOk)).1.driven⟩

theorem Moves.pinsGood {s t : State} (h : Moves s t) (hs : PinsGood s) : PinsGood t := by
  induction h with
  | refl => exact hs
  | command _ b ih => exact command_pinsGood b ih
  | character _ b ih => exact character_pinsGood b ih
  | cursor _ a ih => exact ⟨ih.pinsOk, ih.ready, ih.fit, ih.driven⟩
  | outOfWindow _ p ih => exact ⟨ih.pinsOk, ih.ready, ih.fit, ih.driven⟩

theorem Edits.pinsGood {s t : State} (h : Edits s t) (hs : PinsGood s) : PinsGood t := by
  induction h with
  | refl => exact hs
  | moves _ h' ih => exact h'.pinsGood ih
  | flags _ d c b ih => exact ⟨ih.pinsOk, ih.ready, ih.fit, ih.driven⟩
  | parse _ m ih => exact ⟨ih.pinsOk, ih.ready, ih.fit, ih.driven⟩
  | unknown _ b ih => exact ⟨ih.pinsOk, ih.ready, ih.fit, ih.driven⟩

theorem Moves.frame {s t : State} (h : Moves s t) : MoveFrame s t := by
  induction h with
  | refl => exact MoveFrame.refl s
  | command _ b ih => exact ih.trans (command_busFrame b _).toMoveFrame
  | character _ b ih =>
    exact ih.trans ((waitReady_busFrame _).trans (writeByte_busFrame _ _ _)).toMoveFrame
  | cursor _ a ih => exact ih.trans (setCursor_moveFrame a _)
  | outOfWindow _ p ih => exact ih.trans (markOutOfWindow_moveFrame p _)

theorem Edits.frame {s t : State} (h : Edits s t) : HostFrame s t := by
  induction h with
  | refl => exact HostFrame.refl s
  | moves _ h' ih => exact ih.trans h'.frame.toHostFrame
  | flags _ d c b ih => exact ih.trans (setDisplayFlags_hostFrame d c b _)
  | parse _ m ih => exact ih.trans (setParseMode_hostFrame m _)
  | unknown _ b ih => exact ih.trans (log_busFrame _ _).toHostFrame

/-- The buffer itself, and so its canonical form, is untouched by the bus. -/
theorem pinSet_buf (a b : Word) (s : State) : (pinSet a b s).buf = s.buf := by simp [pinSet_frame]

theorem writeNibble_buf (rs : RegSel) (n : Nibble) (s : State) : (writeNibble rs n s).buf = s.buf := by
  simp [writeNibble, pinSet_buf]

theorem readNibble_buf (rs : RegSel) (s : State) : (readNibble rs s).2.buf = s.buf := by
  simp [readNibble, pinSet_buf, pinGet_frame]

theorem writeByte_buf (rs : RegSel) (b : Byte) (s : State) : (writeByte rs b s).buf = s.buf := by
  simp [writeByte, writeNibble_buf]

theorem readByte_buf (rs : RegSel) (s : State) : (readByte rs s).2.buf = s.buf := by
  simp [readByte, readNibble_buf]

theorem waitReady_buf (s : State) : (waitReady s).2.buf = s.buf := by
  have hl : ∀ n s, (pollLoop n s).2.buf = s.buf := by
    intro n
    induction n with
    | zero => intro s; exact readByte_buf _ _
    | succ n ih =>
      intro s
      unfold pollLoop
      dsimp only
      split
      · rw [ih]; exact readByte_buf _ _
      · exact readByte_buf _ _
  unfold waitReady recheck
  dsimp only
  split
  · exact hl _ _
  · split
    · simp [readByte_buf, hl]
    · simp [readByte_buf, hl]

theorem Moves.buf {s t : State} (h : Moves s t) : t.buf = s.buf := by
  induction h with
  | refl => rfl
  | command _ b ih => rw [← ih]; exact (writeByte_buf _ _ _).trans (waitReady_buf _)
  | character _ b ih => rw [← ih]; exact (writeByte_buf _ _ _).trans (waitReady_buf _)
  | cursor _ a ih => exact ih
  | outOfWindow _ p ih => exact ih

theorem Edits.buf {s t : State} (h : Edits s t) : t.buf = s.buf := by
  induction h with
  | refl => rfl
  | moves _ h' ih => exact h'.buf.trans ih
  | flags _ d c b ih => exact ih
  | parse _ m ih => exact ih
  | unknown _ b ih => exact ih

/-- Events are only appended (20_memory.md R71), and a sticky flag once set stays set (10_state.md R39). -/
structure Grows (s t : State) : Prop where
  trace : ∃ es, t.trace = s.trace ++ es
  timeoutSeen : s.timeoutSeen = true → t.timeoutSeen = true
  assertOow : s.assertOow = true → t.assertOow = true

theorem Grows.refl (s : State) : Grows s s := ⟨⟨[], by simp⟩, id, id⟩

theorem Grows.trans {s t u : State} (h : Grows s t) (h' : Grows t u) : Grows s u := by
  obtain ⟨es, he⟩ := h.trace
  obtain ⟨es', he'⟩ := h'.trace
  exact ⟨⟨es ++ es', by rw [he', he, List.append_assoc]⟩, h'.timeoutSeen ∘ h.timeoutSeen,
    h'.assertOow ∘ h.assertOow⟩

theorem waitReady_grows (s : State) : Grows s (waitReady s).2 := by
  obtain ⟨q, -, h1, h2, -⟩ := waitReady_spec s
  exact ⟨⟨_, h1⟩, fun h => by simp [h2, h], fun h => by rw [(waitReady_busFrame s).assertOow]; exact h⟩

theorem writeByte_grows (rs : RegSel) (b : Byte) (s : State) : Grows s (writeByte rs b s) :=
  ⟨⟨_, writeByte_trace rs b s⟩, fun h => by simpa using h, fun h => by
    rw [(writeByte_busFrame rs b s).assertOow]; exact h⟩

theorem Moves.grows {s t : State} (h : Moves s t) : Grows s t := by
  induction h with
  | refl => exact Grows.refl s
  | command _ b ih => exact ih.trans ((waitReady_grows _).trans (writeByte_grows _ _ _))
  | character _ b ih => exact ih.trans ((waitReady_grows _).trans (writeByte_grows _ _ _))
  | cursor _ a ih => exact ih.trans ⟨⟨[], by simp⟩, id, id⟩
  | outOfWindow _ p ih => exact ih.trans ⟨⟨_, rfl⟩, id, fun _ => rfl⟩

theorem Edits.grows {s t : State} (h : Edits s t) : Grows s t := by
  induction h with
  | refl => exact Grows.refl s
  | moves _ h' ih => exact ih.trans h'.grows
  | flags _ d c b ih => exact ih.trans ⟨⟨[], by simp⟩, id, id⟩
  | parse _ m ih => exact ih.trans ⟨⟨[], by simp⟩, id, id⟩
  | unknown _ b ih => exact ih.trans ⟨⟨_, rfl⟩, id, id⟩

/-! ### Which operations are made of them -/

theorem setAddress_moves (a : Addr) (s : State) : Moves s (setAddress a s) := (Moves.refl.command _).cursor _

theorem clear_moves (s : State) : Moves s (clear s) := (Moves.refl.command _).cursor _

theorem home_moves (s : State) : Moves s (home s) := (Moves.refl.command _).cursor _

theorem noteLine_moves (s : State) : Moves s (noteLine s) := by
  unfold noteLine
  split
  · exact Moves.refl
  · exact Moves.refl.outOfWindow _

theorem advance_moves (s : State) : Moves s (advance s) := by
  unfold advance
  dsimp only
  split
  · exact (noteLine_moves s).trans (setAddress_moves _ _)
  · exact (noteLine_moves s).cursor _

theorem retreat_moves (s : State) : Moves s (retreat s) := by
  unfold retreat
  dsimp only
  split
  · exact (noteLine_moves s).trans (setAddress_moves _ _)
  · exact (noteLine_moves s).cursor _

theorem repeatOp_moves {op : State → State} (h : ∀ s, Moves s (op s)) (n : Nat) (s : State) :
    Moves s (repeatOp op n s) := by
  induction n generalizing s with
  | zero => exact Moves.refl
  | succ n ih => exact (h s).trans (ih (op s))

theorem stepBy_moves (d : Int) (s : State) : Moves s (stepBy d s) := by
  unfold stepBy
  split
  · exact repeatOp_moves advance_moves _ _
  · exact repeatOp_moves retreat_moves _ _

theorem moveBy_moves (d : Int) (s : State) : Moves s (moveBy d s) := by
  unfold moveBy
  dsimp only
  split
  · exact stepBy_moves d s
  · exact (stepBy_moves d s).trans (setAddress_moves _ _)

theorem gotoXy_moves (x y : Int) (m : Mode) (s : State) : Moves s (gotoXy x y m s).2 := by
  unfold gotoXy
  dsimp only
  split
  · split
    · exact (home_moves s).trans (moveBy_moves _ _)
    · exact Moves.refl
  · exact moveBy_moves _ _
  · exact Moves.refl

theorem putChar_moves (b : Byte) (s : State) : Moves s (putChar b s) :=
  (Moves.refl.character b).trans (advance_moves _)

theorem putChars_moves (bs : List Byte) (s : State) : Moves s (putChars bs s) := by
  induction bs generalizing s with
  | nil => exact Moves.refl
  | cons b bs ih => exact (putChar_moves b s).trans (ih _)

theorem putString_moves (bs : List Byte) (s : State) : Moves s (putString bs s) := putChars_moves _ s

theorem getXy_moves (s : State) : Moves s (getXy s).2 := noteLine_moves s

theorem tabLoop_moves (n : Nat) (s : State) : Moves s (tabLoop n s) := by
  induction n generalizing s with
  | zero => exact Moves.refl
  | succ n ih =>
    unfold tabLoop
    dsimp only
    split
    · exact (putChar_moves _ s).trans (getXy_moves _)
    · exact ((putChar_moves _ s).trans (getXy_moves _)).trans (ih _)

theorem moveCursor_moves (x y : Int) (m : Mode) (s : State) : Moves s (moveCursor x y m s) := gotoXy_moves x y m s

theorem displayControl_edits (d c b : Bool) (s : State) : Edits s (displayControl d c b s) :=
  (Moves.refl.command _).edits.flags _ _ _

theorem escapeCode_edits (b : Byte) (s : State) : Edits s (escapeCode b s) := by
  unfold escapeCode
  split
  · exact displayControl_edits _ _ _ _
  split
  · exact displayControl_edits _ _ _ _
  split
  · exact displayControl_edits _ _ _ _
  split
  · exact displayControl_edits _ _ _ _
  split
  · exact (moveCursor_moves _ _ _ _).edits
  split
  · exact ((clear_moves _).trans (moveCursor_moves _ _ _ _)).edits
  iterate 4
    split
    · exact (moveCursor_moves _ _ _ _).edits
  exact Edits.refl.unknown _

theorem normalByte_edits (b : Byte) (s : State) : Edits s (normalByte b s) := by
  unfold normalByte
  split
  · exact Edits.refl.parse _
  split
  · exact (moveCursor_moves _ _ _ _).edits
  split
  · exact ((getXy_moves s).trans (moveCursor_moves _ _ _ _)).edits
  split
  · exact (moveCursor_moves _ _ _ _).edits
  split
  · exact (tabLoop_moves _ _).edits
  exact (putChar_moves _ _).edits

theorem termByte_edits (b : Byte) (s : State) : Edits s (termByte b s) := by
  unfold termByte
  split
  · exact (Edits.refl.parse _).trans (escapeCode_edits _ _)
  · exact normalByte_edits _ _

theorem feedBytes_edits (bs : List Byte) (s : State) : Edits s (feedBytes bs s) := by
  induction bs generalizing s with
  | nil => exact Edits.refl
  | cons b bs ih =>
    unfold feedBytes
    split
    · exact Edits.refl
    · exact (termByte_edits b s).trans (ih _)

/-- The part of the power-on sequence after the handshake (R172, P6 to P10). -/
theorem powerOn_edits (s : State) : Edits (handshake s) (powerOnSequence s) := by
  unfold powerOnSequence
  exact ((((Moves.refl.command _).edits.trans (displayControl_edits _ _ _ _)).moves (clear_moves _)).moves
    (Moves.refl.command _)).trans (displayControl_edits _ _ _ _)

end Sys2Proof.Machine
end

