-- ==== Sys2Proof/Laws/Position.lean ====
section
/-! SUPPORT. The position model under the geometry's well-formedness: lines, columns, cells, and what the steps do to
`CURSOR` (43_position.md R190 to R197, 20_memory.md R69). -/

namespace Sys2Proof.Machine

variable {c : Config}

/-! ### Windows -/

theorem baseOf_mem (hg : c.GeometryOk) {l : Nat} (hl : l < c.nLines) : c.baseOf l ∈ c.base := by
  have hlen : l < c.base.length := by rw [hg.1.2.2.2]; exact hl
  rw [Config.baseOf, List.getD_eq_getElem _ _ hlen]
  exact List.getElem_mem hlen

theorem window_le (hg : c.GeometryOk) {l : Nat} (hl : l < c.nLines) : c.baseOf l + c.lineLen ≤ 128 :=
  hg.2.1 _ (baseOf_mem hg hl)

theorem windows_apart (hg : c.GeometryOk) {l l' : Nat} (h : l < l') (hl' : l' < c.nLines) :
    c.baseOf l + c.lineLen ≤ c.baseOf l' ∨ c.baseOf l' + c.lineLen ≤ c.baseOf l := by
  have hlen : c.base.length = c.nLines := hg.1.2.2.2
  have h1 : l < c.base.length := by omega
  have h2 : l' < c.base.length := by omega
  have := List.pairwise_iff_getElem.1 hg.2.2.1 l l' h1 h2 h
  rw [Config.baseOf, Config.baseOf, List.getD_eq_getElem _ _ h1, List.getD_eq_getElem _ _ h2]
  exact this

theorem line_unique (hg : c.GeometryOk) {l l' p : Nat} (hl : l < c.nLines) (hl' : l' < c.nLines)
    (h : InWindow c l p) (h' : InWindow c l' p) : l = l' := by
  rcases Nat.lt_trichotomy l l' with h1 | h1 | h1
  · have := windows_apart hg h1 hl'; omega
  · exact h1
  · have := windows_apart hg h1 hl; omega

theorem lineOf?_of_window (hg : c.GeometryOk) {l p : Nat} (hl : l < c.nLines) (h : InWindow c l p) :
    lineOf? c p = some l := by
  unfold lineOf?
  cases hf : (List.range c.nLines).find? fun l => decide (InWindow c l p) with
  | none =>
    have := List.find?_eq_none.1 hf l (List.mem_range.2 hl)
    simp only [decide_eq_true_eq] at this
    exact absurd h this
  | some l' =>
    have h1 := List.find?_some hf
    have h2 := List.mem_range.1 (List.mem_of_find?_eq_some hf)
    simp only [decide_eq_true_eq] at h1
    rw [line_unique hg hl h2 h h1]

theorem lineOf?_of_out {p : Nat} (h : ¬ Windowed c p) : lineOf? c p = none := by
  unfold lineOf?
  rw [List.find?_eq_none]
  intro l hl hw
  exact h ⟨l, List.mem_range.1 hl, of_decide_eq_true hw⟩

theorem lineOf_of_window (hg : c.GeometryOk) {l p : Nat} (hl : l < c.nLines) (h : InWindow c l p) :
    lineOf c p = l := by rw [lineOf, lineOf?_of_window hg hl h]; rfl

theorem lineOf_of_out {p : Nat} (h : ¬ Windowed c p) : lineOf c p = 0 := by rw [lineOf, lineOf?_of_out h]; rfl

/-- "By WF5 this equals `p - BASE[line_of(p)]` for every windowed `p`" (R191). -/
theorem colOf_of_window (hg : c.GeometryOk) {l p : Nat} (hl : l < c.nLines) (h : InWindow c l p) :
    colOf c p = p - c.baseOf l := by
  obtain ⟨k, hk⟩ := Nat.dvd_of_mod_eq_zero (hg.2.2.2.2 _ (baseOf_mem hg hl))
  calc p % c.lineLen = ((p - c.baseOf l) + c.lineLen * k) % c.lineLen := by
        rw [← hk, Nat.sub_add_cancel h.1]
    _ = p - c.baseOf l := by
        rw [Nat.add_mul_mod_self_left]
        exact Nat.mod_eq_of_lt (by have := h.1; have := h.2; omega)

theorem base_zero (hg : c.GeometryOk) : c.baseOf 0 = 0 := hg.2.2.2.1

theorem lines_pos (hg : c.GeometryOk) : 0 < c.nLines := hg.1.1

theorem lineLen_pos (hg : c.GeometryOk) : 0 < c.lineLen := hg.1.2.2.1

theorem total_pos (hg : c.GeometryOk) : 0 < c.total := Nat.mul_pos (lines_pos hg) (lineLen_pos hg)

theorem windowed_zero (hg : c.GeometryOk) : Windowed c 0 :=
  ⟨0, lines_pos hg, by rw [base_zero hg], by rw [base_zero hg]; have := lineLen_pos hg; omega⟩

/-! ### Cells -/

theorem cellOf_of_window (hg : c.GeometryOk) {l p : Nat} (hl : l < c.nLines) (h : InWindow c l p) :
    cellOf c p = l * c.lineLen + (p - c.baseOf l) := by
  rw [cellOf, lineOf_of_window hg hl h, colOf_of_window hg hl h]

theorem cellOf_lt (hg : c.GeometryOk) {p : Nat} (h : Windowed c p) : cellOf c p < c.total := by
  obtain ⟨l, hl, hw⟩ := h
  rw [cellOf_of_window hg hl hw, Config.total]
  have : (l + 1) * c.lineLen ≤ c.nLines * c.lineLen := Nat.mul_le_mul_right _ hl
  rw [Nat.add_mul] at this
  omega

theorem row_col_of_lt {i : Nat} (hi : i < c.total) : i / c.lineLen < c.nLines ∧ i % c.lineLen < c.lineLen := by
  have hpos : 0 < c.lineLen := by
    rcases Nat.eq_zero_or_pos c.lineLen with h | h
    · simp [Config.total, h] at hi
    · exact h
  exact ⟨Nat.div_lt_of_lt_mul (by rw [Nat.mul_comm]; exact hi), Nat.mod_lt _ hpos⟩

theorem physOf_inWindow {i : Nat} (hi : i < c.total) : InWindow c (i / c.lineLen) (physOf c i) := by
  have := (row_col_of_lt hi).2
  simp only [InWindow, physOf]
  omega

theorem physOf_windowed {i : Nat} (hi : i < c.total) : Windowed c (physOf c i) :=
  ⟨_, (row_col_of_lt hi).1, physOf_inWindow hi⟩

theorem physOf_lt (hg : c.GeometryOk) {i : Nat} (hi : i < c.total) : physOf c i < 128 := by
  have := window_le hg (row_col_of_lt hi).1
  have := (physOf_inWindow (c := c) hi).2
  omega

theorem cellOf_physOf (hg : c.GeometryOk) {i : Nat} (hi : i < c.total) : cellOf c (physOf c i) = i := by
  rw [cellOf_of_window hg (row_col_of_lt hi).1 (physOf_inWindow hi), physOf, Nat.add_sub_cancel_left]
  have := Nat.div_add_mod i c.lineLen
  rw [Nat.mul_comm] at this
  omega

theorem physOf_cellOf (hg : c.GeometryOk) {p : Nat} (h : Windowed c p) : physOf c (cellOf c p) = p := by
  obtain ⟨l, hl, hw⟩ := h
  rw [cellOf_of_window hg hl hw, physOf]
  have h1 : p - c.baseOf l < c.lineLen := by omega
  have h2 : (l * c.lineLen + (p - c.baseOf l)) / c.lineLen = l := by
    rw [Nat.mul_comm, Nat.mul_add_div (lineLen_pos hg), Nat.div_eq_of_lt h1, Nat.add_zero]
  rw [h2, Nat.mul_comm, Nat.mul_add_mod, Nat.mod_eq_of_lt h1]
  omega

theorem windowed_lt (hg : c.GeometryOk) {p : Nat} (h : Windowed c p) : p < 128 := by
  obtain ⟨l, hl, hw⟩ := h
  have := window_le hg hl
  omega

theorem cellOf_zero (hg : c.GeometryOk) : cellOf c 0 = 0 := by
  have h : InWindow c 0 0 := by
    have := lineLen_pos hg
    simp only [InWindow, base_zero hg]
    omega
  rw [cellOf_of_window hg (lines_pos hg) h, base_zero hg]
  simp

theorem addrOf_toNat {p : Nat} (h : p < 128) : (addrOf p).toNat = p := by
  rw [addrOf, BitVec.toNat_ofNat]
  exact Nat.mod_eq_of_lt h

/-! ### One step -/

theorem noteLine_of_windowed {s : State} (hg : s.cfg.GeometryOk) (h : CursorWindowed s) : noteLine s = s := by
  obtain ⟨l, hl, hw⟩ := h
  simp [noteLine, lineOf?_of_window hg hl hw]

theorem noteLine_of_out {s : State} (h : ¬ CursorWindowed s) : noteLine s = markOutOfWindow s.cursor s := by
  simp [noteLine, lineOf?_of_out h]

@[simp] theorem noteLine_cfg (s : State) : (noteLine s).cfg = s.cfg := (noteLine_moves s).frame.cfg

@[simp] theorem noteLine_cursor (s : State) : (noteLine s).cursor = s.cursor := by
  unfold noteLine
  split <;> rfl

@[simp] theorem setAddress_cursor (a : Addr) (s : State) : (setAddress a s).cursor = a := rfl

@[simp] theorem setAddress_cfg (a : Addr) (s : State) : (setAddress a s).cfg = s.cfg := (setAddress_moves a s).frame.cfg

/-- Inside a line `advance` only increments (R192). -/
theorem advance_inside {s : State} (hg : s.cfg.GeometryOk) {l : Nat} (hl : l < s.cfg.nLines)
    (hw : InWindow s.cfg l s.cursor.toNat) (h : s.cursor.toNat + 1 ≠ s.cfg.baseOf l + s.cfg.lineLen) :
    advance s = setCursor (s.cursor + 1) s := by
  have h1 : addrOf (s.cursor.toNat + 1) = s.cursor + 1 := by
    apply BitVec.eq_of_toNat_eq
    simp [addrOf, BitVec.toNat_add]
  simp only [advance, lineOf_of_window hg hl hw, if_neg h, noteLine_of_windowed hg ⟨l, hl, hw⟩, h1]

/-- At the end of a line `advance` programs the next line's base (R192). -/
theorem advance_boundary {s : State} (hg : s.cfg.GeometryOk) {l : Nat} (hl : l < s.cfg.nLines)
    (h : s.cursor.toNat + 1 = s.cfg.baseOf l + s.cfg.lineLen) :
    advance s = setAddress (addrOf (s.cfg.baseOf ((l + 1) % s.cfg.nLines))) s := by
  have := lineLen_pos hg
  have hw : InWindow s.cfg l s.cursor.toNat := by simp only [InWindow]; omega
  simp only [advance, lineOf_of_window hg hl hw, if_pos h, noteLine_of_windowed hg ⟨l, hl, hw⟩]

/-- Out of every window `advance` asserts and increments modulo 128 (R192, corner case 4). -/
theorem advance_out {s : State} (hg : s.cfg.GeometryOk) (h : ¬ CursorWindowed s) :
    advance s = setCursor (s.cursor + 1) (markOutOfWindow s.cursor s) := by
  have h1 : addrOf (s.cursor.toNat + 1) = s.cursor + 1 := by
    apply BitVec.eq_of_toNat_eq
    simp [addrOf, BitVec.toNat_add]
  have h2 : s.cursor.toNat + 1 ≠ s.cfg.baseOf 0 + s.cfg.lineLen := by
    intro h3
    rw [base_zero hg] at h3
    exact h ⟨0, lines_pos hg, by simp only [InWindow, base_zero hg]; omega⟩
  simp only [advance, lineOf_of_out h, if_neg h2, noteLine_of_out h, h1]

/-- Off a line's base `retreat` only decrements (R193). -/
theorem retreat_inside {s : State} (hg : s.cfg.GeometryOk) {l : Nat} (hl : l < s.cfg.nLines)
    (hw : InWindow s.cfg l s.cursor.toNat) (h : s.cursor.toNat ≠ s.cfg.baseOf l) :
    retreat s = setCursor (s.cursor - 1) s := by
  have h1 : addrOf (s.cursor.toNat - 1) = s.cursor - 1 := by
    apply BitVec.eq_of_toNat_eq
    have := s.cursor.isLt
    have : (1 : Addr).toNat = 1 := rfl
    simp only [addrOf, BitVec.toNat_ofNat, BitVec.toNat_sub]
    simp only [InWindow] at hw
    omega
  simp only [retreat, lineOf_of_window hg hl hw, if_neg h, noteLine_of_windowed hg ⟨l, hl, hw⟩, h1]

/-- At a line's base `retreat` programs the last column of the previous line (R193). -/
theorem retreat_boundary {s : State} (hg : s.cfg.GeometryOk) {l : Nat} (hl : l < s.cfg.nLines)
    (h : s.cursor.toNat = s.cfg.baseOf l) :
    retreat s = setAddress (addrOf (s.cfg.baseOf (previousLine s.cfg l) + s.cfg.lineLen - 1)) s := by
  have := lineLen_pos hg
  have hw : InWindow s.cfg l s.cursor.toNat := by simp only [InWindow]; omega
  simp only [retreat, lineOf_of_window hg hl hw, if_pos h, noteLine_of_windowed hg ⟨l, hl, hw⟩]

/-- Out of every window `retreat` asserts and decrements (R193, corner case 1). -/
theorem retreat_out {s : State} (hg : s.cfg.GeometryOk) (h : ¬ CursorWindowed s) :
    retreat s = setCursor (s.cursor - 1) (markOutOfWindow s.cursor s) := by
  have h0 : s.cursor.toNat ≠ 0 := by
    intro h0
    apply h
    simp only [CursorWindowed, h0]
    exact windowed_zero hg
  have h1 : addrOf (s.cursor.toNat - 1) = s.cursor - 1 := by
    apply BitVec.eq_of_toNat_eq
    have := s.cursor.isLt
    have : (1 : Addr).toNat = 1 := rfl
    simp only [addrOf, BitVec.toNat_ofNat, BitVec.toNat_sub]
    omega
  have h2 : s.cursor.toNat ≠ s.cfg.baseOf 0 := by rw [base_zero hg]; exact h0
  simp only [retreat, lineOf_of_out h, if_neg h2, noteLine_of_out h, h1]

/-- The line before, `(l - 1) mod N_LINES` (R193). -/
theorem previousLine_lt (hg : c.GeometryOk) (l : Nat) : previousLine c l < c.nLines := Nat.mod_lt _ (lines_pos hg)

theorem previousLine_zero (hg : c.GeometryOk) : previousLine c 0 = c.nLines - 1 := by
  have := lines_pos hg
  rw [previousLine, Nat.zero_add]
  exact Nat.mod_eq_of_lt (by omega)

theorem previousLine_succ {l : Nat} (h : l + 1 < c.nLines) : previousLine c (l + 1) = l := by
  rw [previousLine, show l + 1 + c.nLines - 1 = l + c.nLines by omega, Nat.add_mod_right]
  exact Nat.mod_eq_of_lt (by omega)

/-! ### Cells after steps (R194) -/

/-- The next cell, when the row has one. -/
theorem physOf_next (hg : c.GeometryOk) {l p : Nat} (hl : l < c.nLines) (hw : InWindow c l p)
    (h : p + 1 ≠ c.baseOf l + c.lineLen) : physOf c ((cellOf c p + 1) % c.total) = p + 1 := by
  have hw' : InWindow c l (p + 1) := by simp only [InWindow] at hw ⊢; omega
  have h1 : cellOf c p + 1 = cellOf c (p + 1) := by
    rw [cellOf_of_window hg hl hw, cellOf_of_window hg hl hw']
    simp only [InWindow] at hw
    omega
  rw [h1, Nat.mod_eq_of_lt (cellOf_lt hg ⟨l, hl, hw'⟩), physOf_cellOf hg ⟨l, hl, hw'⟩]

/-- The first cell of the next row. -/
theorem physOf_wrap (hg : c.GeometryOk) {l p : Nat} (hl : l < c.nLines)
    (h : p + 1 = c.baseOf l + c.lineLen) :
    physOf c ((cellOf c p + 1) % c.total) = c.baseOf ((l + 1) % c.nLines) := by
  have hpos := lineLen_pos hg
  have hw : InWindow c l p := by simp only [InWindow]; omega
  have h1 : cellOf c p + 1 = (l + 1) * c.lineLen := by
    rw [cellOf_of_window hg hl hw, Nat.add_mul]
    omega
  have h2 : (cellOf c p + 1) % c.total = (l + 1) % c.nLines * c.lineLen := by
    rw [h1, Config.total, Nat.mul_mod_mul_right]
  rw [h2, physOf, Nat.mul_div_cancel _ hpos, Nat.mul_mod_left, Nat.add_zero]

/-- The cell before, when the row has one. -/
theorem physOf_back (hg : c.GeometryOk) {l p : Nat} (hl : l < c.nLines) (hw : InWindow c l p)
    (h : p ≠ c.baseOf l) : physOf c ((cellOf c p + (c.total - 1)) % c.total) = p - 1 := by
  have hw' : InWindow c l (p - 1) := by simp only [InWindow] at hw ⊢; omega
  have h1 : cellOf c p = cellOf c (p - 1) + 1 := by
    rw [cellOf_of_window hg hl hw, cellOf_of_window hg hl hw']
    simp only [InWindow] at hw
    omega
  have h2 := cellOf_lt hg ⟨l, hl, hw'⟩
  have h3 : cellOf c p + (c.total - 1) = cellOf c (p - 1) + c.total := by omega
  rw [h3, Nat.add_mod_right, Nat.mod_eq_of_lt h2, physOf_cellOf hg ⟨l, hl, hw'⟩]

/-- The last cell of the row before. -/
theorem physOf_wrapBack (hg : c.GeometryOk) {l p : Nat} (hl : l < c.nLines) (h : p = c.baseOf l) :
    physOf c ((cellOf c p + (c.total - 1)) % c.total) = c.baseOf (previousLine c l) + c.lineLen - 1 := by
  have hpos := lineLen_pos hg
  have hn := lines_pos hg
  have hw : InWindow c l p := by simp only [InWindow]; omega
  have h1 : cellOf c p = l * c.lineLen := by rw [cellOf_of_window hg hl hw, h]; simp
  have h2 : (cellOf c p + (c.total - 1)) % c.total = previousLine c l * c.lineLen + (c.lineLen - 1) := by
    rw [h1]
    rcases l with _ | l
    · rw [previousLine_zero hg, Nat.zero_mul, Nat.zero_add, Nat.mod_eq_of_lt (by have := total_pos hg; omega),
        Config.total]
      have : (c.nLines - 1) * c.lineLen + c.lineLen = c.nLines * c.lineLen := by
        rw [← Nat.succ_mul]
        congr 1
        omega
      omega
    · have h3 : (l + 1) * c.lineLen + (c.total - 1) = l * c.lineLen + (c.lineLen - 1) + c.total := by
        have := total_pos hg
        rw [Nat.add_mul]
        omega
      have h4 : l * c.lineLen + (c.lineLen - 1) < c.total := by
        have : (l + 1) * c.lineLen ≤ c.nLines * c.lineLen := Nat.mul_le_mul_right _ (by omega)
        rw [Nat.add_mul] at this
        simp only [Config.total]
        omega
      rw [previousLine_succ hl, h3, Nat.add_mod_right, Nat.mod_eq_of_lt h4]
  have h5 : c.lineLen - 1 < c.lineLen := by omega
  rw [h2, physOf, Nat.mul_comm, Nat.mul_add_div hpos, Nat.div_eq_of_lt h5, Nat.add_zero, Nat.mul_add_mod,
    Nat.mod_eq_of_lt h5]
  omega

/-- `advance` from a windowed position moves one cell on, last to first (R194). -/
theorem advance_cell {s : State} (hg : s.cfg.GeometryOk) (h : CursorWindowed s) :
    (advance s).cursor.toNat = physOf s.cfg ((cellOf s.cfg s.cursor.toNat + 1) % s.cfg.total) := by
  obtain ⟨l, hl, hw⟩ := h
  have h7 := window_le hg hl
  by_cases hb : s.cursor.toNat + 1 = s.cfg.baseOf l + s.cfg.lineLen
  · rw [advance_boundary hg hl hb, setAddress_cursor, physOf_wrap hg hl hb]
    have := window_le hg (Nat.mod_lt (l + 1) (lines_pos hg))
    have := lineLen_pos hg
    exact addrOf_toNat (by omega)
  · rw [advance_inside hg hl hw hb, physOf_next hg hl hw hb]
    have : (1 : Addr).toNat = 1 := rfl
    simp only [InWindow] at hw
    simp only [setCursor_cursor, BitVec.toNat_add]
    omega

/-- `retreat` from a windowed position moves one cell back, first to last (R194). -/
theorem retreat_cell {s : State} (hg : s.cfg.GeometryOk) (h : CursorWindowed s) :
    (retreat s).cursor.toNat =
      physOf s.cfg ((cellOf s.cfg s.cursor.toNat + (s.cfg.total - 1)) % s.cfg.total) := by
  obtain ⟨l, hl, hw⟩ := h
  have h7 := window_le hg hl
  by_cases hb : s.cursor.toNat = s.cfg.baseOf l
  · rw [retreat_boundary hg hl hb, setAddress_cursor, physOf_wrapBack hg hl hb]
    have := window_le hg (previousLine_lt hg l)
    have := lineLen_pos hg
    exact addrOf_toNat (by omega)
  · rw [retreat_inside hg hl hw hb, physOf_back hg hl hw hb]
    have : (1 : Addr).toNat = 1 := rfl
    have := s.cursor.isLt
    simp only [InWindow] at hw
    simp only [setCursor_cursor, BitVec.toNat_sub]
    omega

@[simp] theorem advance_cfg (s : State) : (advance s).cfg = s.cfg := (advance_moves s).frame.cfg
@[simp] theorem retreat_cfg (s : State) : (retreat s).cfg = s.cfg := (retreat_moves s).frame.cfg

theorem Windowed.of_phys {s : State} {i : Nat} (hg : s.cfg.GeometryOk)
    (h : s.cursor.toNat = physOf s.cfg (i % s.cfg.total)) : CursorWindowed s := by
  simp only [CursorWindowed, h]
  exact physOf_windowed (Nat.mod_lt _ (total_pos hg))

/-- A walk of single-cell steps is one move (R194). -/
theorem repeatOp_cell {op : State → State} (d : Config → Nat)
    (hc : ∀ s, (op s).cfg = s.cfg)
    (ho : ∀ s, s.cfg.GeometryOk → CursorWindowed s →
      (op s).cursor.toNat = physOf s.cfg ((cellOf s.cfg s.cursor.toNat + d s.cfg) % s.cfg.total))
    (k : Nat) {s : State} (hg : s.cfg.GeometryOk) (h : CursorWindowed s) :
    (repeatOp op k s).cursor.toNat = physOf s.cfg ((cellOf s.cfg s.cursor.toNat + k * d s.cfg) % s.cfg.total) := by
  induction k generalizing s with
  | zero =>
    rw [Nat.zero_mul, Nat.add_zero, Nat.mod_eq_of_lt (cellOf_lt hg h), physOf_cellOf hg h]
    rfl
  | succ k ih =>
    have h1 := ho s hg h
    have hg' : (op s).cfg.GeometryOk := by rw [hc]; exact hg
    have h2 := ih hg' (Windowed.of_phys hg' (by rw [h1, hc]))
    rw [repeatOp, h2, h1, hc, cellOf_physOf hg (Nat.mod_lt _ (total_pos hg)), Nat.mod_add_mod]
    congr 2
    rw [Nat.succ_mul]
    omega

theorem advances_cell (k : Nat) {s : State} (hg : s.cfg.GeometryOk) (h : CursorWindowed s) :
    (repeatOp advance k s).cursor.toNat = physOf s.cfg ((cellOf s.cfg s.cursor.toNat + k) % s.cfg.total) := by
  simpa using repeatOp_cell (fun _ => 1) advance_cfg (fun _ hg h => advance_cell hg h) k hg h

theorem retreats_cell (k : Nat) {s : State} (hg : s.cfg.GeometryOk) (h : CursorWindowed s) :
    (repeatOp retreat k s).cursor.toNat =
      physOf s.cfg ((cellOf s.cfg s.cursor.toNat + k * (s.cfg.total - 1)) % s.cfg.total) :=
  repeatOp_cell (fun c => c.total - 1) retreat_cfg (fun _ hg h => retreat_cell hg h) k hg h

theorem cellPlus_lt (hg : c.GeometryOk) (i : Nat) (d : Int) : cellPlus c i d < c.total := by
  have := Int.emod_lt_of_pos ((i : Int) + d) (b := c.total) (by exact_mod_cast total_pos hg)
  have := Int.emod_nonneg ((i : Int) + d) (b := c.total) (by have := total_pos hg; omega)
  simp only [cellPlus]
  omega

theorem cellPlus_ofNat (i k : Nat) : cellPlus c i k = (i + k) % c.total := by
  simp only [cellPlus]
  norm_cast

theorem cellPlus_neg (hg : c.GeometryOk) (i k : Nat) :
    cellPlus c i (-(k : Int)) = (i + k * (c.total - 1)) % c.total := by
  have hp := total_pos hg
  simp only [cellPlus]
  have h1 : ((i + k * (c.total - 1) : Nat) : Int) = ((i : Int) + -(k : Int)) + k * c.total := by
    push_cast [Nat.cast_sub (show 1 ≤ c.total from hp)]
    ring
  have h2 : (((i + k * (c.total - 1)) % c.total : Nat) : Int) = ((i : Int) + -(k : Int)) % c.total := by
    rw [Int.natCast_mod, h1, Int.add_mul_emod_self_right]
  rw [← h2, Int.toNat_natCast]

/-- The walk of a signed delta (R194, R196). -/
theorem stepBy_cell (d : Int) {s : State} (hg : s.cfg.GeometryOk) (h : CursorWindowed s) :
    (stepBy d s).cursor.toNat = physOf s.cfg (cellPlus s.cfg (cellOf s.cfg s.cursor.toNat) d) := by
  cases d with
  | ofNat k =>
    rw [show (Int.ofNat k) = (k : Int) from rfl, cellPlus_ofNat]
    exact advances_cell k hg h
  | negSucc k =>
    rw [Int.negSucc_eq, show ((k : Int) + 1) = ((k + 1 : Nat) : Int) by push_cast; rfl, cellPlus_neg hg]
    exact retreats_cell (k + 1) hg h

theorem moveBy_cell (d : Int) {s : State} (hg : s.cfg.GeometryOk) (h : CursorWindowed s) :
    (moveBy d s).cursor.toNat = physOf s.cfg (cellPlus s.cfg (cellOf s.cfg s.cursor.toNat) d) := by
  rw [← stepBy_cell d hg h]
  unfold moveBy
  dsimp only
  split <;> rfl

/-! ### Out-of-window asserts only -/

/-- The line is asked for only at windowed positions, so nothing is asserted (R39, R43). -/
theorem advance_noAssert {s : State} (hg : s.cfg.GeometryOk) (h : CursorWindowed s) :
    CursorWindowed (advance s) ∧ (advance s).assertOow = s.assertOow := by
  refine ⟨Windowed.of_phys (by simpa using hg) (by rw [advance_cell hg h, advance_cfg]), ?_⟩
  obtain ⟨l, hl, hw⟩ := h
  by_cases hb : s.cursor.toNat + 1 = s.cfg.baseOf l + s.cfg.lineLen
  · rw [advance_boundary hg hl hb]
    exact (command_busFrame _ s).assertOow
  · rw [advance_inside hg hl hw hb]
    rfl

theorem retreat_noAssert {s : State} (hg : s.cfg.GeometryOk) (h : CursorWindowed s) :
    CursorWindowed (retreat s) ∧ (retreat s).assertOow = s.assertOow := by
  refine ⟨Windowed.of_phys (by simpa using hg) (by rw [retreat_cell hg h, retreat_cfg]), ?_⟩
  obtain ⟨l, hl, hw⟩ := h
  by_cases hb : s.cursor.toNat = s.cfg.baseOf l
  · rw [retreat_boundary hg hl hb]
    exact (command_busFrame _ s).assertOow
  · rw [retreat_inside hg hl hw hb]
    rfl

end Sys2Proof.Machine
end

