-- ==== Sys2Proof/Laws/Exec.lean ====
section
/-! SUPPORT. What an operation can do, said once: its answer, and the effect it is the answer to (60_exceptions.md R298,
R305; 10_state.md R33 to R39). -/

namespace Sys2Proof.Machine

/-- What carrying out an operation does before its response, by the kind of its effect. -/
inductive Effect (s : State) : State → Prop where
  /-- Nothing. -/
  | nothing : Effect s s
  /-- A transfer on the bus, `LIFE` being READY. -/
  | bus {t : State} (hr : s.life = .ready) (hf : BusFrame s t) (hg : Grows s t) (hb : t.buf = s.buf)
      (hp : s.cfg.PinsOk → RegsFit s → RegsFit t ∧ ControlDriven t) : Effect s t
  /-- Commands, characters and writes of the mirror. -/
  | edits {t : State} (hr : s.life = .ready) (he : Edits s t) : Effect s t
  /-- The session opens. -/
  | opened (hr : s.life = .ready) : Effect s (setParseMode .normal (setSession true s))
  /-- The session ends. -/
  | closed (hr : s.life = .ready) : Effect s (setSession false s)
  /-- The register windows are released. -/
  | released (hr : s.life = .ready) (hs : s.session = false) : Effect s (setLife .down s)
  /-- The block starts up. -/
  | started (hd : s.life = .down) (ho : s.reserveOk = true) : Effect s (startUp s)

/-- An operation always answers, an error having had no effect and value 0 (R298). -/
structure Answers (s : State) (r : Result) : Prop where
  eq : ∃ t code value, r = .next (respond code value t) ∧ Effect s t ∧ (code ≠ .ok → t = s ∧ value = 0)

theorem Answers.ofFail (s : State) (c : Code) : Answers s (.next (fail c s)) :=
  ⟨s, c, 0, rfl, .nothing, fun _ => ⟨rfl, rfl⟩⟩

theorem Answers.ofOk {s t : State} (v : BitVec 32) (h : Effect s t) : Answers s (.next (respond .ok v t)) :=
  ⟨t, .ok, v, rfl, h, fun h => absurd rfl h⟩

theorem whenReady_down {s : State} (h : s.life = .down) (op : State → State) : whenReady s op = fail .errState s := by
  simp [whenReady, h]

theorem whenReady_up {s : State} (h : s.life = .ready) (op : State → State) : whenReady s op = op s := by
  simp [whenReady, h]

theorem whenSession_on {s : State} (h : s.life = .ready) (h' : s.session = true) (op : State → State) :
    whenSession s op = op s := by simp [whenSession, whenReady, h, h']

theorem whenSession_off {s : State} (h : s.life = .ready) (h' : s.session = false) (op : State → State) :
    whenSession s op = fail .errState s := by simp [whenSession, whenReady, h, h']

theorem Answers.whenReady {s : State} {op : State → State} (h : s.life = .ready → Answers s (.next (op s))) :
    Answers s (.next (whenReady s op)) := by
  cases hl : s.life with
  | down => rw [whenReady_down hl]; exact Answers.ofFail s _
  | ready => rw [whenReady_up hl]; exact h hl

theorem Answers.whenSession {s : State} {op : State → State} (h : s.life = .ready → Answers s (.next (op s))) :
    Answers s (.next (whenSession s op)) := by
  refine Answers.whenReady fun hl => ?_
  split
  · exact h hl
  · exact Answers.ofFail s _

/-! ### Transfers -/

theorem writeNibble_grows (rs : RegSel) (n : Nibble) (s : State) : Grows s (writeNibble rs n s) :=
  ⟨⟨_, writeNibble_trace rs n s⟩, fun h => by simpa using h, fun h => by
    rw [(writeNibble_busFrame rs n s).assertOow]; exact h⟩

theorem readNibble_grows (rs : RegSel) (s : State) : Grows s (readNibble rs s).2 :=
  ⟨⟨_, readNibble_trace rs s⟩, fun h => by simpa using h, fun h => by
    rw [(readNibble_busFrame rs s).assertOow]; exact h⟩

theorem readByte_grows (rs : RegSel) (s : State) : Grows s (readByte rs s).2 :=
  (readNibble_grows rs s).trans (readNibble_grows rs _)

theorem writeNibble_effect (rs : RegSel) (n : Nibble) {s : State} (hr : s.life = .ready) :
    Effect s (writeNibble rs n s) :=
  .bus hr (writeNibble_busFrame rs n s) (writeNibble_grows rs n s) (writeNibble_buf rs n s)
    fun hp h => ⟨writeNibble_regsFit rs n hp h, (writeNibble_pins rs n hr hp).1.driven⟩

theorem readNibble_effect (rs : RegSel) {s : State} (hr : s.life = .ready) : Effect s (readNibble rs s).2 :=
  .bus hr (readNibble_busFrame rs s) (readNibble_grows rs s) (readNibble_buf rs s)
    fun hp h => ⟨readNibble_regsFit rs hp h, (readNibble_pins rs hr hp).1.driven⟩

theorem writeByte_effect (rs : RegSel) (b : Byte) {s : State} (hr : s.life = .ready) :
    Effect s (writeByte rs b s) :=
  .bus hr (writeByte_busFrame rs b s) (writeByte_grows rs b s) (writeByte_buf rs b s)
    fun hp h => ⟨writeByte_regsFit rs b hp h, (writeByte_pins rs b hr hp).1.driven⟩

theorem readByte_effect (rs : RegSel) {s : State} (hr : s.life = .ready) : Effect s (readByte rs s).2 :=
  .bus hr (readByte_busFrame rs s) (readByte_grows rs s) (readByte_buf rs s)
    fun hp h => ⟨readByte_regsFit rs hp h, (readByte_pins rs hr hp).1.driven⟩

theorem waitReady_effect {s : State} (hr : s.life = .ready) : Effect s (waitReady s).2 :=
  .bus hr (waitReady_busFrame s) (waitReady_grows s) (waitReady_buf s)
    fun hp h => ⟨waitReady_regsFit hp h, (waitReady_pins hr hp).driven⟩

/-! ### Every operation -/

theorem respondIndex_answers {s t : State} (hr : s.life = .ready) (h : Moves s t) :
    Answers s (.next (respondIndex t)) := .ofOk _ (.edits hr (h.trans (getXy_moves t)).edits)

theorem execGotoXy_answers (x y : Int) (m : Mode) (s : State) : Answers s (execGotoXy x y m s) := by
  refine Answers.whenReady fun hr => ?_
  unfold gotoXy
  cases m with
  | abs =>
    dsimp only
    split
    · exact .ofOk _ (.edits hr ((home_moves s).trans (moveBy_moves _ _)).edits)
    · exact Answers.ofFail s _
  | rel => exact .ofOk _ (.edits hr (moveBy_moves _ _).edits)
  | fromEnd => exact Answers.ofFail s _

theorem execSeek_answers (o : Int) (m : Mode) (s : State) : Answers s (execSeek o m s) := by
  refine Answers.whenSession fun hr => ?_
  cases m with
  | abs =>
    dsimp only
    split
    · exact respondIndex_answers hr (gotoXy_moves _ _ _ _)
    · exact Answers.ofFail s _
  | rel =>
    dsimp only
    split
    · exact respondIndex_answers hr (gotoXy_moves _ _ _ _)
    · exact Answers.ofFail s _
  | fromEnd => exact Answers.ofFail s _

theorem execPutString_answers (len : Nat) (s : State) : Answers s (execPutString len s) := by
  refine Answers.whenReady fun hr => ?_
  split
  · exact .ofOk _ (.edits hr (putString_moves _ _).edits)
  · exact Answers.ofFail s _

theorem execWrite_answers (len : Nat) (s : State) : Answers s (execWrite len s) := by
  refine Answers.whenSession fun hr => ?_
  split
  · exact .ofOk _ (.edits hr (feedBytes_edits _ _))
  · exact Answers.ofFail s _

theorem execStartup_answers (s : State) : Answers s (execStartup s) := by
  unfold execStartup
  cases hl : s.life with
  | ready => exact Answers.ofFail s _
  | down =>
    dsimp only
    split
    · exact .ofOk _ (.started hl ‹_›)
    · exact Answers.ofFail s _

theorem execShutdown_answers (s : State) : Answers s (execShutdown s) := by
  unfold execShutdown
  cases hl : s.life with
  | down => exact .ofOk _ .nothing
  | ready =>
    dsimp only
    split
    · exact Answers.ofFail s _
    · next h => exact .ofOk _ (.released hl (by simpa using h))

theorem execOpen_answers (s : State) : Answers s (execOpen s) := by
  refine Answers.whenReady fun hr => ?_
  split
  · exact Answers.ofFail s _
  · exact .ofOk _ (.opened hr)

/-- What every operation does: an answer to an effect; an error has had none (R298). -/
theorem exec_answers (i : Instr) (s : State) : Answers s (exec i s) := by
  cases i with
  | wrNib rs n => exact Answers.whenReady fun hr => .ofOk _ (writeNibble_effect rs n hr)
  | rdNib rs => exact Answers.whenReady fun hr => .ofOk _ (readNibble_effect rs hr)
  | wrByte rs b => exact Answers.whenReady fun hr => .ofOk _ (writeByte_effect rs b hr)
  | rdByte rs => exact Answers.whenReady fun hr => .ofOk _ (readByte_effect rs hr)
  | waitReady => exact Answers.whenReady fun hr => .ofOk _ (waitReady_effect hr)
  | functionSet lines font => exact Answers.whenReady fun hr => .ofOk _ (.edits hr (Moves.refl.command _).edits)
  | displayControl d c b => exact Answers.whenReady fun hr => .ofOk _ (.edits hr (displayControl_edits d c b s))
  | clear => exact Answers.whenReady fun hr => .ofOk _ (.edits hr (clear_moves s).edits)
  | home => exact Answers.whenReady fun hr => .ofOk _ (.edits hr (home_moves s).edits)
  | entryMode dir shift => exact Answers.whenReady fun hr => .ofOk _ (.edits hr (Moves.refl.command _).edits)
  | setAddress a => exact Answers.whenReady fun hr => .ofOk _ (.edits hr (setAddress_moves a s).edits)
  | advance => exact Answers.whenReady fun hr => .ofOk _ (.edits hr (advance_moves s).edits)
  | retreat => exact Answers.whenReady fun hr => .ofOk _ (.edits hr (retreat_moves s).edits)
  | getXy => exact Answers.whenReady fun hr => .ofOk _ (.edits hr (getXy_moves s).edits)
  | gotoXy x y m => exact execGotoXy_answers x y m s
  | putChar b => exact Answers.whenReady fun hr => .ofOk _ (.edits hr (putChar_moves b s).edits)
  | putString len => exact execPutString_answers len s
  | termByte b => exact Answers.whenSession fun hr => .ofOk _ (.edits hr (termByte_edits b s))
  | startup => exact execStartup_answers s
  | shutdown => exact execShutdown_answers s
  | openSession => exact execOpen_answers s
  | closeSession => exact Answers.whenReady fun hr => .ofOk _ (.closed hr)
  | write len => exact execWrite_answers len s
  | seek o m => exact execSeek_answers o m s

/-! ### Start-up -/

theorem handshake_trace (s : State) : (handshake s).trace = s.trace ++ handshakeTrace s.cfg := by
  simp [handshake, handshakeTrace, writeNibble_trace]

theorem handshake_cfg (s : State) : (handshake s).cfg = s.cfg := by simp [handshake]

theorem handshake_busFrame (s : State) : BusFrame s (handshake s) := by
  have h0 : BusFrame s (pinSet 0 (s.cfg.mRs ||| s.cfg.mRw ||| s.cfg.mE) s) :=
    pinSet_busFrame (UsedMask.zero _) (((UsedMask.mRs _).or (UsedMask.mRw _)).or (UsedMask.mE _))
  unfold handshake
  exact ((((((((h0.trans (delay_busFrame _ _)).trans (writeNibble_busFrame _ _ _)).trans (delay_busFrame _ _)).trans
    (writeNibble_busFrame _ _ _)).trans (delay_busFrame _ _)).trans (writeNibble_busFrame _ _ _)).trans
    (delay_busFrame _ _)).trans (writeNibble_busFrame _ _ _)).trans (delay_busFrame _ _)

theorem handshake_used (s : State) : SamplesUsed s (handshake s) 0 :=
  (SamplesUsed.refl s).congr (by simp [handshake]) (by simp [handshake]) (by simp [handshake])

theorem handshake_timeoutSeen (s : State) : (handshake s).timeoutSeen = s.timeoutSeen := by simp [handshake]

theorem handshake_buf (s : State) : (handshake s).buf = s.buf := by simp [handshake, writeNibble_buf, pinSet_buf]

theorem handshake_pins {s : State} (hr : s.life = .ready) (hp : s.cfg.PinsOk) :
    SelectLines (handshake s) false false ∧ DataPinsCarry (handshake s) 0x2 := by
  unfold handshake
  exact writeNibble_pins .cmd 0x2 (by simpa using hr) (by simpa using hp)

theorem displayControl_pins (d c b : Bool) {s : State} (hr : s.life = .ready) (hp : s.cfg.PinsOk) :
    SelectLines (displayControl d c b s) false false ∧
    DataPinsCarry (displayControl d c b s) (BitVec.ofNat 4 ((displayControlByte d c b).toNat % 16)) :=
  command_pins _ hr hp

/-- The pins after the power-on sequence: those of its last byte, 0x0C (R332). -/
theorem powerOnSequence_pins {s : State} (hr : s.life = .ready) (hp : s.cfg.PinsOk) :
    SelectLines (powerOnSequence s) false false ∧ DataPinsCarry (powerOnSequence s) 0xC := by
  have h1 : (handshake s).life = .ready := (handshake_busFrame s).life.trans hr
  have h2 : (handshake s).cfg.PinsOk := by rw [handshake_cfg]; exact hp
  unfold powerOnSequence
  generalize handshake s = u at h1 h2
  exact displayControl_pins true false false (by simp [entryMode, clear, displayControl, functionSet, h1])
    (by simpa [entryMode, clear, displayControl, functionSet] using h2)

theorem handshake_regsFit {s : State} (hp : s.cfg.PinsOk) (h : RegsFit s) : RegsFit (handshake s) := by
  have h0 : RegsFit (pinSet 0 (s.cfg.mRs ||| s.cfg.mRw ||| s.cfg.mE) s) :=
    pinSet_regsFit hp (UsedMask.zero _) (((UsedMask.mRs _).or (UsedMask.mRw _)).or (UsedMask.mE _)) h
  unfold handshake
  refine delay_regsFit _ (writeNibble_regsFit _ _ (by simpa using hp) (delay_regsFit _ (writeNibble_regsFit _ _
    (by simpa using hp) (delay_regsFit _ (writeNibble_regsFit _ _ (by simpa using hp) (delay_regsFit _
    (writeNibble_regsFit _ _ (by simpa using hp) (delay_regsFit _ h0))))))))

/-- STARTUP after its acquisition and its handshake is commands and characters only (R262, R172). -/
theorem startUp_edits (s : State) : Edits (handshake (acquire s)) (startUp s) :=
  (powerOn_edits (acquire s)).moves (putString_moves _ _)

theorem acquire_regsFit {s : State} (h : RegsFit s) : RegsFit (acquire s) := by
  have := foreignMove_lt h.1 h.2.1
  have hf := foreignMove_frame s
  simp only [RegsFit, acquire, clearMirror_cfg, clearMirror_dir, clearMirror_out, clearMirror_inReg, setLife_cfg,
    setLife_dir, setLife_out, setLife_inReg] at *
  simp_all

/-- STARTUP leaves the pins as every state between two operations has them. -/
theorem startUp_pinsGood {s : State} (hp : s.cfg.PinsOk) (h : RegsFit s) : PinsGood (startUp s) := by
  have hc : (acquire s).cfg = s.cfg := by simp [acquire, foreignMove_frame]
  have hr : (acquire s).life = .ready := rfl
  have hp' : (acquire s).cfg.PinsOk := by rw [hc]; exact hp
  refine (startUp_edits s).pinsGood ⟨by rw [handshake_cfg]; exact hp', (handshake_busFrame _).life.trans hr,
    handshake_regsFit hp' (acquire_regsFit h), (handshake_pins hr hp').1.driven⟩

end Sys2Proof.Machine
end

