-- ==== Sys2Proof/Laws/Durations.lean ====
section
/-! SUPPORT. Event counts and least durations of what transfers, waits and commands append to the trace
(70_reset_and_hazards.md R351), and the rows of R340 that one transfer must meet. -/

namespace Sys2Proof.Machine

variable {c : Config} {s : State}

theorem minDuration_append (c : Config) (a b : List Event) :
    minDuration c (a ++ b) = minDuration c a + minDuration c b := by
  induction a with
  | nil => simp [minDuration]
  | cons e a ih => cases e <;> simp [minDuration, ih, Nat.add_assoc]

/-! ### Transfers -/

theorem writeNibbleTrace_time (c : Config) (rs : RegSel) (n : Nibble) :
    minDuration c (writeNibbleTrace c rs n) = writeTime c := by
  simp [writeNibbleTrace, minDuration, Config.duration, writeTime]
  omega

theorem readNibbleTrace_time (c : Config) (rs : RegSel) (v : Word) :
    minDuration c (readNibbleTrace c rs v) = readTime c := by
  simp [readNibbleTrace, minDuration, Config.duration, readTime]
  omega

theorem writeByteTrace_length (c : Config) (rs : RegSel) (b : Byte) : (writeByteTrace c rs b).length = 16 := rfl

theorem writeByteTrace_time (c : Config) (rs : RegSel) (b : Byte) :
    minDuration c (writeByteTrace c rs b) = 2 * writeTime c := by
  rw [writeByteTrace, minDuration_append, writeNibbleTrace_time, writeNibbleTrace_time]
  omega

theorem readByteTrace_length (c : Config) (rs : RegSel) (a : Word × Word) : (readByteTrace c rs a).length = 14 := rfl

theorem readByteTrace_time (c : Config) (rs : RegSel) (a : Word × Word) :
    minDuration c (readByteTrace c rs a) = 2 * readTime c := by
  rw [readByteTrace, minDuration_append, readNibbleTrace_time, readNibbleTrace_time]
  omega

/-! ### Waits -/

/-- The first `m` status reads of a wait of `q`, with the poll delays after them. -/
theorem polls_cost (s : State) {m q : Nat} (h : m ≤ q) :
    ((List.range m).flatMap (pollTrace s q)).length = 14 * m + min (min m (q - 1)) s.cfg.pollCount ∧
    minDuration s.cfg ((List.range m).flatMap (pollTrace s q)) =
      2 * m * readTime s.cfg + min (min m (q - 1)) s.cfg.pollCount * s.cfg.dPoll := by
  induction m with
  | zero => simp [minDuration]
  | succ m ih =>
    obtain ⟨h1, h2⟩ := ih (by omega)
    rw [List.range_succ, List.flatMap_append, List.length_append, minDuration_append, h1, h2]
    simp only [List.flatMap_cons, List.flatMap_nil, List.append_nil, pollTrace, List.length_append,
      minDuration_append, readByteTrace_length, readByteTrace_time]
    split
    · rw [show min (min (m + 1) (q - 1)) s.cfg.pollCount = min (min m (q - 1)) s.cfg.pollCount + 1 by omega]
      exact ⟨by simp only [List.length_cons, List.length_nil]; omega, by simp [minDuration, Config.duration]; ring⟩
    · rw [show min (min (m + 1) (q - 1)) s.cfg.pollCount = min (min m (q - 1)) s.cfg.pollCount by omega]
      exact ⟨by simp only [List.length_nil]; omega, by simp [minDuration]; ring⟩

/-- A wait of `q` status reads (R351). -/
theorem waitTrace_cost (s : State) (q : Nat) (timedOut : Bool) :
    (waitTrace s q timedOut).length = waitEvents s.cfg q timedOut ∧
    minDuration s.cfg (waitTrace s q timedOut) = waitTime s.cfg q := by
  obtain ⟨h1, h2⟩ := polls_cost s (Nat.le_refl q)
  rw [waitTrace, List.length_append, minDuration_append, h1, h2, waitEvents, waitTime,
    show min (min q (q - 1)) s.cfg.pollCount = min (q - 1) s.cfg.pollCount by omega]
  cases timedOut <;> simp [minDuration]

/-- A byte sent after a wait: what a command and a character cost alike. -/
theorem waited_cost (rs : RegSel) (b : Byte) {q : Nat} {timedOut : Bool} (hq : WaitRun s q timedOut) :
    ∃ es, (writeByte rs b (waitReady s).2).trace = s.trace ++ es ∧
      es.length = waitEvents s.cfg q timedOut + 16 ∧
      minDuration s.cfg es = waitTime s.cfg q + 2 * writeTime s.cfg := by
  obtain ⟨q', hq', h1, -, -⟩ := waitReady_spec s
  obtain ⟨rfl, h⟩ := hq.unique hq'
  obtain ⟨h2, h3⟩ := waitTrace_cost s q timedOut
  refine ⟨waitTrace s q timedOut ++ writeByteTrace s.cfg rs b, ?_, ?_, ?_⟩
  · rw [writeByte_trace, h1, ← h, waitReady_cfg, List.append_assoc]
  · rw [List.length_append, h2, writeByteTrace_length]
  · rw [minDuration_append, h3, writeByteTrace_time]

/-! ### The rows of R340 -/

/-- `POLL_COUNT` poll delays just last `T_BUSY_MAX` (00_scope.md R12). -/
theorem pollCount_covers (h : 0 < c.dPoll) (hb : 0 < c.tBusyMax) :
    c.tBusyMax ≤ c.pollCount * c.dPoll ∧ (c.pollCount - 1) * c.dPoll < c.tBusyMax := by
  simp only [Config.pollCount]
  have h1 := Nat.div_add_mod (c.tBusyMax + c.dPoll - 1) c.dPoll
  have h2 := Nat.mod_lt (c.tBusyMax + c.dPoll - 1) h
  generalize (c.tBusyMax + c.dPoll - 1) / c.dPoll = x at *
  rcases x with _ | y
  · simp only [Nat.mul_zero] at h1
    omega
  · rw [Nat.add_sub_cancel, Nat.add_mul, Nat.mul_comm y, Nat.one_mul]
    rw [Nat.mul_add, Nat.mul_one] at h1
    omega

/-- The enable pin is not a select or data pin. -/
theorem enableKept_select (hp : c.PinsOk) (rs : RegSel) :
    EnableKept c (writeSelect c rs).1 (writeSelect c rs).2 ∧ EnableKept c (readSelect c rs).1 (readSelect c rs).2 := by
  obtain ⟨-, ⟨-, h1, h2⟩, -⟩ := hp
  cases rs <;> simp [EnableKept, writeSelect, readSelect, Nat.testBit_or, h1, h2]

theorem enableKept_nibble (hp : c.PinsOk) (n : Nibble) : EnableKept c (nibbleSet c n) (nibbleClear c n) := by
  obtain ⟨-, -, -, -, h⟩ := hp
  simp only [EnableKept, testBit_nibbleSet, testBit_nibbleClear]
  rcases h with h | h
  · simp [Nat.not_le.2 h]
  · have h1 : ¬ c.ePin < c.dataShift + 4 := by omega
    simp [h1, BitVec.getLsbD_of_ge n (c.ePin - c.dataShift) (by omega)]

/-- Every data pin is driven when a nibble is presented. -/
theorem nibble_all_data (c : Config) (n : Nibble) : nibbleSet c n ||| nibbleClear c n = c.mData := by
  apply Nat.eq_of_testBit_eq
  intro k
  rw [Nat.testBit_or, testBit_nibbleSet, testBit_nibbleClear, testBit_mData]
  by_cases h : k < c.dataShift + 4
  · cases n.getLsbD (k - c.dataShift) <;> simp [h]
  · by_cases h' : c.dataShift ≤ k
    · simp [h, BitVec.getLsbD_of_ge n (k - c.dataShift) (by omega)]
    · simp [h']

theorem writeNibbleTrace_rows (hp : c.PinsOk) (ht : c.TimingOk) (rs : RegSel) (n : Nibble) :
    MeetsWriteRows c (writeNibbleTrace c rs n) := by
  obtain ⟨⟨h1, h2, h3, h4, h5⟩, -⟩ := ht
  refine ⟨writeSelect c rs, (nibbleSet c n, nibbleClear c n), [.delay .wSetup], [.delay .wHold, .delay .cap],
    [.delay .wRem], ?_, (enableKept_select hp rs).1, enableKept_nibble hp n, nibble_all_data c n, by simp [OnlyDelays],
    ?_, ?_, ?_, ?_, ?_⟩
  · cases rs <;> simp [writeNibbleTrace, writeSelect, nibbleSet, nibbleClear_eq]
  all_goals simp [writeNibbleTrace, minDuration, Config.duration]
  all_goals omega

theorem readNibbleTrace_rows (hp : c.PinsOk) (ht : c.TimingOk) (rs : RegSel) (v : Word) :
    MeetsReadRows c (readNibbleTrace c rs v) := by
  obtain ⟨-, ⟨h1, h2, h3, h4⟩, -⟩ := ht
  refine ⟨readSelect c rs, v &&& c.mData, [.delay .rSetup], [.delay .rHold], [.delay .rRem], ?_,
    (enableKept_select hp rs).2, by simp [OnlyDelays], ?_, ?_, ?_, ?_⟩
  · cases rs <;> simp [readNibbleTrace, readSelect]
  all_goals simp [readNibbleTrace, minDuration, Config.duration]
  all_goals omega

end Sys2Proof.Machine
end

