-- ==== Sys2Proof/Laws/Encoding.lean ====
section
/-! SUPPORT. The masks of the opcode table say what the formats' reserved bits say (30_encoding.md R91, R94), and the operand
fields read back what is written to them (R92). -/

namespace Sys2Proof

/-- Under a mask of bits `k .. j - 1`. -/
theorem and_range (n j k : Nat) (h : k ≤ j) : n &&& (2 ^ j - 2 ^ k) = n % 2 ^ j / 2 ^ k * 2 ^ k := by
  have hm : 2 ^ j - 2 ^ k = (2 ^ (j - k) - 1) * 2 ^ k := by
    rw [Nat.sub_mul, Nat.one_mul, ← Nat.pow_add, Nat.sub_add_cancel h]
  rw [hm]
  apply Nat.eq_of_testBit_eq
  intro i
  rw [Nat.testBit_and, Nat.testBit_mul_two_pow, Nat.testBit_mul_two_pow, Nat.testBit_two_pow_sub_one,
    Nat.testBit_div_two_pow, Nat.testBit_mod_two_pow]
  by_cases hk : k ≤ i
  · have h1 : i - k + k = i := by omega
    have h2 : (i - k < j - k) = (i < j) := by rw [eq_iff_iff]; omega
    simp [hk, h1, h2, Bool.and_comm]
  · simp [hk]

/-- A mask whose only gap above bit `k` is bit 16. -/
theorem and_gap (n k : Nat) (hk : k ≤ 16) (hn : n < 2 ^ 32) :
    n &&& ((2 ^ 32 - 2 ^ 17) ||| (2 ^ 16 - 2 ^ k)) = n / 2 ^ 17 * 2 ^ 17 + n % 2 ^ 16 / 2 ^ k * 2 ^ k := by
  rw [Nat.and_or_distrib_left, and_range n 32 17 (by decide), and_range n 16 k hk, Nat.mod_eq_of_lt hn]
  have h : n % 2 ^ 16 / 2 ^ k * 2 ^ k < 2 ^ 17 :=
    lt_of_le_of_lt (Nat.div_mul_le_self _ _) (lt_trans (Nat.mod_lt _ (by decide)) (by decide))
  rw [← Nat.shiftLeft_eq (n / 2 ^ 17), ← Nat.shiftLeft_add_eq_or_of_lt h]

/-- The mask of a format (R91): every bit but those of its fields. -/
def Format.mask : Format → Nat
  | .z => 2 ^ 32 - 2 ^ 0
  | .r => (2 ^ 32 - 2 ^ 17) ||| (2 ^ 16 - 2 ^ 0)
  | .rn => (2 ^ 32 - 2 ^ 17) ||| (2 ^ 16 - 2 ^ 4)
  | .rb => (2 ^ 32 - 2 ^ 17) ||| (2 ^ 16 - 2 ^ 8)
  | .b => 2 ^ 32 - 2 ^ 8
  | .a => 2 ^ 32 - 2 ^ 7
  | .f2 => 2 ^ 32 - 2 ^ 2
  | .f3 => 2 ^ 32 - 2 ^ 3
  | .xy => 2 ^ 32 - 2 ^ 18
  | .s => 2 ^ 32 - 2 ^ 18
  | .l => 2 ^ 32 - 2 ^ 16

/-- The masks of R91's table. -/
theorem Format.mask_values :
    Format.mask .z = 0xFFFFFFFF ∧ Format.mask .r = 0xFFFEFFFF ∧ Format.mask .rn = 0xFFFEFFF0 ∧
    Format.mask .rb = 0xFFFEFF00 ∧ Format.mask .b = 0xFFFFFF00 ∧ Format.mask .a = 0xFFFFFF80 ∧
    Format.mask .f2 = 0xFFFFFFFC ∧ Format.mask .f3 = 0xFFFFFFF8 ∧ Format.mask .xy = 0xFFFC0000 ∧
    Format.mask .s = 0xFFFC0000 ∧ Format.mask .l = 0xFFFF0000 := by decide

/-- "Equivalently `cmd & mask != match` for its row" (R94). -/
theorem Format.mask_iff (f : Format) {n op : Nat} (hn : n < 2 ^ 32) (hop : op < 256) :
    n &&& f.mask = op * 2 ^ 24 ↔ slice n 31 24 = op ∧ f.clean n = true := by
  have h2 : ∀ k, k ≤ 32 → n &&& (2 ^ 32 - 2 ^ k) = n / 2 ^ k * 2 ^ k := fun k hk => by
    rw [and_range n 32 k hk, Nat.mod_eq_of_lt hn]
  cases f <;>
    simp only [Format.mask, Format.clean, Format.reserved, List.all_cons, List.all_nil, Bool.and_true, Bool.and_eq_true,
      beq_iff_eq, slice]
  case r => rw [and_gap n 0 (by decide) hn]; omega
  case rn => rw [and_gap n 4 (by decide) hn]; omega
  case rb => rw [and_gap n 8 (by decide) hn]; omega
  case z => rw [h2 0 (by decide)]; omega
  case b => rw [h2 8 (by decide)]; omega
  case a => rw [h2 7 (by decide)]; omega
  case f2 => rw [h2 2 (by decide)]; omega
  case f3 => rw [h2 3 (by decide)]; omega
  case xy => rw [h2 18 (by decide)]; omega
  case s => rw [h2 18 (by decide)]; omega
  case l => rw [h2 16 (by decide)]; omega

theorem signedField_eight {v : Int} (h : inSigned 8 v = true) : signedField 8 v < 256 ∧ sext 8 (signedField 8 v) = v := by
  simp only [inSigned, decide_eq_true_eq] at h
  norm_num at h
  simp only [signedField, sext]
  norm_num
  split <;> omega

theorem signedField_sixteen {v : Int} (h : inSigned 16 v = true) :
    signedField 16 v < 65536 ∧ sext 16 (signedField 16 v) = v := by
  simp only [inSigned, decide_eq_true_eq] at h
  norm_num at h
  simp only [signedField, sext]
  norm_num
  split <;> omega

theorem sext_eight {v : Nat} (h : v < 256) : inSigned 8 (sext 8 v) = true ∧ signedField 8 (sext 8 v) = v := by
  simp only [inSigned, signedField, sext]
  norm_num
  split <;> omega

theorem sext_sixteen {v : Nat} (h : v < 65536) : inSigned 16 (sext 16 v) = true ∧ signedField 16 (sext 16 v) = v := by
  simp only [inSigned, signedField, sext]
  norm_num
  split <;> omega

theorem slice_bit_lt (w k : Nat) : slice w k k < 2 := by
  simp only [slice, Nat.sub_self]
  omega

theorem regSelOf_code (w : Nat) : (regSelOf w).code = slice w 16 16 := by
  have h := slice_bit_lt w 16
  unfold regSelOf
  generalize slice w 16 16 = x at *
  have : x = 0 ∨ x = 1 := by omega
  rcases this with rfl | rfl <;> rfl

theorem flagOf_toNat (w k : Nat) : (flagOf w k).toNat = slice w k k := by
  have h := slice_bit_lt w k
  unfold flagOf
  generalize slice w k k = x at *
  have : x = 0 ∨ x = 1 := by omega
  rcases this with rfl | rfl <;> rfl

/-! ### What the decoder has checked -/

/-- The format of an operation (R93). -/
def Instr.format : Instr → Format
  | .wrNib _ _ => .rn
  | .rdNib _ | .rdByte _ => .r
  | .wrByte _ _ => .rb
  | .functionSet _ _ | .entryMode _ _ => .f2
  | .displayControl _ _ _ => .f3
  | .setAddress _ => .a
  | .gotoXy _ _ _ => .xy
  | .putChar _ | .termByte _ => .b
  | .putString _ | .write _ => .l
  | .seek _ _ => .s
  | .waitReady | .clear | .home | .advance | .retreat | .getXy | .startup | .shutdown | .openSession
  | .closeSession => .z

theorem checked_ok {f : Format} {w : Nat} {i j : Instr} (h : checked f w i = .ok j) : f.clean w = true ∧ i = j := by
  unfold checked at h
  split at h
  · exact ⟨‹_›, by simpa using h⟩
  · cases h

theorem checkedMode_ok {f : Format} {w : Nat} {i : Mode → Instr} {j : Instr} (h : checkedMode f w i = .ok j) :
    f.clean w = true ∧ ∃ m : Mode, m.code = slice w 17 16 ∧ i m = j := by
  unfold checkedMode at h
  split at h
  · refine ⟨‹_›, ?_⟩
    unfold modeOf at h
    split at h
    · next hm => exact ⟨.abs, hm.symm, by simpa [Except.map] using h⟩
    · next hm => exact ⟨.rel, hm.symm, by simpa [Except.map] using h⟩
    · next hm => exact ⟨.fromEnd, hm.symm, by simpa [Except.map] using h⟩
    · cases h
  · cases h

/-- A legal word has the opcode and the clean reserved bits of the operation it decodes to (R94). -/
theorem decodeNat_ok {w : Nat} {i : Instr} (h : decodeNat w = .ok i) :
    slice w 31 24 = i.opcode ∧ i.format.clean w = true := by
  unfold decodeNat at h
  split at h
  case h_25 => cases h
  case h_15 hop => obtain ⟨h1, m, -, rfl⟩ := checkedMode_ok h; exact ⟨hop, h1⟩
  case h_24 hop => obtain ⟨h1, m, -, rfl⟩ := checkedMode_ok h; exact ⟨hop, h1⟩
  all_goals
    obtain ⟨h1, rfl⟩ := checked_ok h
    exact ⟨‹_›, h1⟩

end Sys2Proof
end

