-- ==== Sys2Proof/Laws/Respond.lean ====
section
/-! SUPPORT. No operation reads the response or the sequencer: each commutes with `respond`. So operations carried out one
after the other do what one operation made of them does (30_encoding.md R96, 10_state.md R31). -/

namespace Sys2Proof.Machine

variable (c : Code) (v : BitVec 32)

@[simp] theorem respond_respond (c' : Code) (v' : BitVec 32) (s : State) :
    respond c v (respond c' v' s) = respond c v s := rfl

@[simp] theorem emit_respond (e : Event) (s : State) : emit e (respond c v s) = respond c v (emit e s) := rfl
@[simp] theorem delay_respond (d : DelayName) (s : State) : delay d (respond c v s) = respond c v (delay d s) := rfl
@[simp] theorem log_respond (e : LogEvent) (s : State) : log e (respond c v s) = respond c v (log e s) := rfl
@[simp] theorem setCursor_respond (a : Addr) (s : State) :
    setCursor a (respond c v s) = respond c v (setCursor a s) := rfl
@[simp] theorem setDisplayFlags_respond (d e b : Bool) (s : State) :
    setDisplayFlags d e b (respond c v s) = respond c v (setDisplayFlags d e b s) := rfl
@[simp] theorem setParseMode_respond (m : ParseMode) (s : State) :
    setParseMode m (respond c v s) = respond c v (setParseMode m s) := rfl
@[simp] theorem markTimeout_respond (s : State) : markTimeout (respond c v s) = respond c v (markTimeout s) := rfl
@[simp] theorem markOutOfWindow_respond (p : Addr) (s : State) :
    markOutOfWindow p (respond c v s) = respond c v (markOutOfWindow p s) := rfl
@[simp] theorem nextSample_respond (s : State) : nextSample (respond c v s) = nextSample s := rfl

@[simp] theorem foreignMove_respond (s : State) : foreignMove (respond c v s) = respond c v (foreignMove s) := by
  unfold foreignMove
  simp only [respond_foreign]
  split <;> rfl

@[simp] theorem pinSet_respond (a b : Word) (s : State) :
    pinSet a b (respond c v s) = respond c v (pinSet a b s) := by
  simp only [pinSet, foreignMove_respond]
  rfl

@[simp] theorem pinGet_respond (m : Word) (s : State) :
    pinGet m (respond c v s) = ((pinGet m s).1, respond c v (pinGet m s).2) := by
  simp only [pinGet, foreignMove_respond]
  rfl

@[simp] theorem writeNibble_respond (rs : RegSel) (n : Nibble) (s : State) :
    writeNibble rs n (respond c v s) = respond c v (writeNibble rs n s) := by
  simp [writeNibble]

@[simp] theorem readNibble_respond (rs : RegSel) (s : State) :
    readNibble rs (respond c v s) = ((readNibble rs s).1, respond c v (readNibble rs s).2) := by
  simp [readNibble]

@[simp] theorem writeByte_respond (rs : RegSel) (b : Byte) (s : State) :
    writeByte rs b (respond c v s) = respond c v (writeByte rs b s) := by simp [writeByte]

@[simp] theorem readByte_respond (rs : RegSel) (s : State) :
    readByte rs (respond c v s) = ((readByte rs s).1, respond c v (readByte rs s).2) := by simp [readByte]

@[simp] theorem pollLoop_respond (n : Nat) (s : State) :
    pollLoop n (respond c v s) = ((pollLoop n s).1, respond c v (pollLoop n s).2) := by
  induction n generalizing s with
  | zero => simp [pollLoop]
  | succ n ih =>
    simp only [pollLoop, readByte_respond, delay_respond, ih]
    split <;> rfl

@[simp] theorem recheck_respond (s : State) :
    recheck (respond c v s) = ((recheck s).1, respond c v (recheck s).2) := by
  simp only [recheck, readByte_respond]
  split <;> rfl

@[simp] theorem waitReady_respond (s : State) :
    waitReady (respond c v s) = ((waitReady s).1, respond c v (waitReady s).2) := by
  simp only [waitReady, respond_cfg, pollLoop_respond, recheck_respond]
  split <;> rfl

@[simp] theorem command_respond (b : Byte) (s : State) :
    command b (respond c v s) = respond c v (command b s) := by simp [command]

@[simp] theorem functionSet_respond (l : Nat) (f : Bool) (s : State) :
    functionSet l f (respond c v s) = respond c v (functionSet l f s) := by simp [functionSet]

@[simp] theorem entryMode_respond (d e : Bool) (s : State) :
    entryMode d e (respond c v s) = respond c v (entryMode d e s) := by simp [entryMode]

@[simp] theorem displayControl_respond (d e b : Bool) (s : State) :
    displayControl d e b (respond c v s) = respond c v (displayControl d e b s) := by simp [displayControl]

@[simp] theorem clear_respond (s : State) : clear (respond c v s) = respond c v (clear s) := by simp [clear]

@[simp] theorem home_respond (s : State) : home (respond c v s) = respond c v (home s) := by simp [home]

@[simp] theorem setAddress_respond (a : Addr) (s : State) :
    setAddress a (respond c v s) = respond c v (setAddress a s) := by simp [setAddress]

@[simp] theorem noteLine_respond (s : State) : noteLine (respond c v s) = respond c v (noteLine s) := by
  simp only [noteLine, respond_cfg, respond_cursor]
  split <;> simp

@[simp] theorem advance_respond (s : State) : advance (respond c v s) = respond c v (advance s) := by
  simp only [advance, respond_cfg, respond_cursor, noteLine_respond]
  split <;> simp

@[simp] theorem retreat_respond (s : State) : retreat (respond c v s) = respond c v (retreat s) := by
  simp only [retreat, respond_cfg, respond_cursor, noteLine_respond]
  split <;> simp

theorem repeatOp_respond {op : State → State} (h : ∀ s, op (respond c v s) = respond c v (op s)) (n : Nat)
    (s : State) : repeatOp op n (respond c v s) = respond c v (repeatOp op n s) := by
  induction n generalizing s with
  | zero => rfl
  | succ n ih => rw [repeatOp, h, ih, repeatOp]

@[simp] theorem getXy_respond (s : State) : getXy (respond c v s) = ((getXy s).1, respond c v (getXy s).2) := by
  simp [getXy]

@[simp] theorem stepBy_respond (d : Int) (s : State) : stepBy d (respond c v s) = respond c v (stepBy d s) := by
  unfold stepBy
  split
  · exact repeatOp_respond c v (advance_respond c v) _ s
  · exact repeatOp_respond c v (retreat_respond c v) _ s

@[simp] theorem moveBy_respond (d : Int) (s : State) : moveBy d (respond c v s) = respond c v (moveBy d s) := by
  simp only [moveBy, stepBy_respond, respond_cursor, setAddress_respond]
  split <;> rfl

@[simp] theorem gotoXy_respond (x y : Int) (m : Mode) (s : State) :
    gotoXy x y m (respond c v s) = ((gotoXy x y m s).1, respond c v (gotoXy x y m s).2) := by
  unfold gotoXy
  cases m with
  | abs =>
    simp only [respond_cfg, home_respond, moveBy_respond]
    split <;> rfl
  | rel => simp
  | fromEnd => rfl

@[simp] theorem putChar_respond (b : Byte) (s : State) :
    putChar b (respond c v s) = respond c v (putChar b s) := by simp [putChar]

@[simp] theorem putChars_respond (bs : List Byte) (s : State) :
    putChars bs (respond c v s) = respond c v (putChars bs s) := by
  induction bs generalizing s with
  | nil => rfl
  | cons b bs ih => simp [putChars, ih]

@[simp] theorem moveCursor_respond (x y : Int) (m : Mode) (s : State) :
    moveCursor x y m (respond c v s) = respond c v (moveCursor x y m s) := by simp [moveCursor]

@[simp] theorem carriageReturn_respond (s : State) :
    carriageReturn (respond c v s) = respond c v (carriageReturn s) := by simp [carriageReturn]

@[simp] theorem tabLoop_respond (n : Nat) (s : State) :
    tabLoop n (respond c v s) = respond c v (tabLoop n s) := by
  induction n generalizing s with
  | zero => rfl
  | succ n ih =>
    simp only [tabLoop, putChar_respond, getXy_respond, ih]
    split <;> rfl

@[simp] theorem escapeCode_respond (b : Byte) (s : State) :
    escapeCode b (respond c v s) = respond c v (escapeCode b s) := by
  simp only [escapeCode, respond_displayOn, respond_cursorVisible, respond_blinkOn, displayControl_respond,
    moveCursor_respond, clear_respond, log_respond, apply_ite (respond c v)]

@[simp] theorem normalByte_respond (b : Byte) (s : State) :
    normalByte b (respond c v s) = respond c v (normalByte b s) := by
  simp only [normalByte, setParseMode_respond, moveCursor_respond, carriageReturn_respond, tab, tabLoop_respond,
    putChar_respond, apply_ite (respond c v)]

@[simp] theorem termByte_respond (b : Byte) (s : State) :
    termByte b (respond c v s) = respond c v (termByte b s) := by
  simp only [termByte, respond_parseMode, setParseMode_respond, escapeCode_respond, normalByte_respond]
  split <;> rfl

@[simp] theorem feedBytes_respond (bs : List Byte) (s : State) :
    feedBytes bs (respond c v s) = respond c v (feedBytes bs s) := by
  induction bs generalizing s with
  | nil => rfl
  | cons b bs ih =>
    simp only [feedBytes, termByte_respond, ih]
    split <;> rfl

/-! ### Operations in sequence -/

theorem execAll_append (is js : List Instr) {s t : State} (h : execAll is s = .next t) :
    execAll (is ++ js) s = execAll js t := by
  induction is generalizing s with
  | nil =>
    have : s = t := by simpa [execAll] using h
    rw [this]
    rfl
  | cons i is ih =>
    obtain ⟨⟨u, c, v, hu, -⟩⟩ := exec_answers i s
    simp only [List.cons_append, execAll, hu] at h ⊢
    exact ih h

theorem execAll_cons {i : Instr} {is : List Instr} {s t : State} (h : exec i s = .next t) :
    execAll (i :: is) s = execAll is t := by simp only [execAll, h]

/-- A list of operations that each do one step and answer OK does the steps, and the last answer stands. -/
theorem execAll_map {α : Type} (f : α → Instr) (op : α → State → State)
    (hr : ∀ a s, s.life = .ready → exec (f a) s = .next (respond .ok 0 (op a s)))
    (hl : ∀ a s, (op a s).life = s.life)
    (hc : ∀ a s, op a (respond .ok 0 s) = respond .ok 0 (op a s)) (as : List α) {s : State} (h : s.life = .ready) :
    ∃ t, execAll (as.map f) s = .next t ∧
      ∀ c v, respond c v t = respond c v (as.foldl (fun u a => op a u) s) := by
  induction as generalizing s with
  | nil => exact ⟨s, rfl, fun _ _ => rfl⟩
  | cons a as ih =>
    obtain ⟨t, ht, he⟩ := ih (s := respond .ok 0 (op a s)) ((hl a s).trans h)
    refine ⟨t, by rw [List.map_cons, execAll_cons (hr a s h), ht], fun c v => ?_⟩
    rw [he, List.foldl_cons]
    have key : ∀ (bs : List α) (u : State), bs.foldl (fun u a => op a u) (respond .ok 0 u) =
        respond .ok 0 (bs.foldl (fun u a => op a u) u) := by
      intro bs
      induction bs with
      | nil => intro u; rfl
      | cons b bs ih => intro u; rw [List.foldl_cons, hc, ih, List.foldl_cons]
    rw [key, respond_respond]

end Sys2Proof.Machine
end

