-- ==== Sys2Proof/Laws/Windows.lean ====
section
/-! SUPPORT. From a windowed `CURSOR` every operation of the block's own leads to a windowed one and asserts nothing
(10_state.md R43); where characters and moves lead (43_position.md R194, R198). -/

namespace Sys2Proof.Machine

variable {s t u : State}

/-- From a windowed cursor to a windowed cursor, without an assertion. -/
structure StaysIn (s t : State) : Prop where
  cfg : t.cfg = s.cfg
  windowed : CursorWindowed t
  assertOow : t.assertOow = s.assertOow

theorem StaysIn.refl (h : CursorWindowed s) : StaysIn s s := ⟨rfl, h, rfl⟩

theorem StaysIn.trans (h₁ : StaysIn s t) (h₂ : StaysIn t u) : StaysIn s u :=
  ⟨h₂.cfg.trans h₁.cfg, h₂.windowed, h₂.assertOow.trans h₁.assertOow⟩

theorem StaysIn.geometry (h : StaysIn s t) (hg : s.cfg.GeometryOk) : t.cfg.GeometryOk := by
  rw [h.cfg]; exact hg

theorem BusFrame.stays (hf : BusFrame s t) (h : CursorWindowed s) : StaysIn s t :=
  ⟨hf.cfg, by simpa [CursorWindowed, hf.cfg, hf.cursor] using h, hf.assertOow⟩

theorem setAddress_stays {a : Addr} (h : Windowed s.cfg a.toNat) : StaysIn s (setAddress a s) :=
  ⟨setAddress_cfg a s, by simpa [CursorWindowed] using h, (command_busFrame _ s).assertOow⟩

theorem clear_stays (hg : s.cfg.GeometryOk) : StaysIn s (clear s) :=
  ⟨(clear_moves s).frame.cfg, by
    rw [CursorWindowed, (clear_moves s).frame.cfg]; exact windowed_zero hg,
    (command_busFrame _ s).assertOow⟩

theorem home_cursor (hg : s.cfg.GeometryOk) : (home s).cursor = 0x00 := by
  show BitVec.ofNat 7 (s.cfg.baseOf 0) = 0
  rw [base_zero hg]
  rfl

theorem home_stays (hg : s.cfg.GeometryOk) : StaysIn s (home s) :=
  ⟨(home_moves s).frame.cfg, by
    rw [CursorWindowed, home_cursor hg, (home_moves s).frame.cfg]; exact windowed_zero hg,
    (command_busFrame _ s).assertOow⟩

theorem advance_stays (hg : s.cfg.GeometryOk) (h : CursorWindowed s) : StaysIn s (advance s) :=
  ⟨advance_cfg s, (advance_noAssert hg h).1, (advance_noAssert hg h).2⟩

theorem retreat_stays (hg : s.cfg.GeometryOk) (h : CursorWindowed s) : StaysIn s (retreat s) :=
  ⟨retreat_cfg s, (retreat_noAssert hg h).1, (retreat_noAssert hg h).2⟩

theorem repeatOp_stays {op : State → State}
    (ho : ∀ s : State, s.cfg.GeometryOk → CursorWindowed s → StaysIn s (op s)) (n : Nat)
    (hg : s.cfg.GeometryOk) (h : CursorWindowed s) : StaysIn s (repeatOp op n s) := by
  induction n generalizing s with
  | zero => exact StaysIn.refl h
  | succ n ih => exact (ho s hg h).trans (ih ((ho s hg h).geometry hg) (ho s hg h).windowed)

theorem stepBy_stays (d : Int) (hg : s.cfg.GeometryOk) (h : CursorWindowed s) : StaysIn s (stepBy d s) := by
  cases d with
  | ofNat n => exact repeatOp_stays (fun _ => advance_stays) n hg h
  | negSucc n => exact repeatOp_stays (fun _ => retreat_stays) (n + 1) hg h

theorem moveBy_stays (d : Int) (hg : s.cfg.GeometryOk) (h : CursorWindowed s) : StaysIn s (moveBy d s) := by
  have hs := stepBy_stays d hg h
  unfold moveBy
  dsimp only
  split
  · exact hs
  · exact hs.trans (setAddress_stays hs.windowed)

/-- An absolute move is windowed wherever it starts; a relative one where it starts from a window. -/
theorem gotoXy_abs (x y : Int) (h : IndexOk s.cfg (flatIndex s.cfg x y)) :
    gotoXy x y .abs s = (.ok, moveBy (flatIndex s.cfg x y) (home s)) := if_pos h

theorem gotoXy_rel (x y : Int) (s : State) : gotoXy x y .rel s = (.ok, moveBy (flatIndex s.cfg x y) s) := rfl

theorem gotoXy_abs_stays (x y : Int) (hg : s.cfg.GeometryOk) (h : IndexOk s.cfg (flatIndex s.cfg x y)) :
    StaysIn s (gotoXy x y .abs s).2 := by
  rw [gotoXy_abs x y h]
  have hh := home_stays hg
  exact hh.trans (moveBy_stays _ (hh.geometry hg) hh.windowed)

theorem gotoXy_stays (x y : Int) (m : Mode) (hg : s.cfg.GeometryOk) (h : CursorWindowed s) :
    StaysIn s (gotoXy x y m s).2 := by
  cases m with
  | abs =>
    by_cases hi : IndexOk s.cfg (flatIndex s.cfg x y)
    · exact gotoXy_abs_stays x y hg hi
    · simp only [gotoXy, if_neg hi]
      exact StaysIn.refl h
  | rel => exact moveBy_stays _ hg h
  | fromEnd => exact StaysIn.refl h

theorem character_stays (b : Byte) (h : CursorWindowed s) : StaysIn s (writeByte .data b (waitReady s).2) :=
  ((waitReady_busFrame s).trans (writeByte_busFrame _ _ _)).stays h

theorem putChar_stays (b : Byte) (hg : s.cfg.GeometryOk) (h : CursorWindowed s) : StaysIn s (putChar b s) := by
  have hs := character_stays b h
  exact hs.trans (advance_stays (hs.geometry hg) hs.windowed)

theorem putChars_stays (bs : List Byte) (hg : s.cfg.GeometryOk) (h : CursorWindowed s) :
    StaysIn s (putChars bs s) := by
  induction bs generalizing s with
  | nil => exact StaysIn.refl h
  | cons b bs ih =>
    have hs := putChar_stays b hg h
    exact hs.trans (ih (hs.geometry hg) hs.windowed)

theorem getXy_stays (hg : s.cfg.GeometryOk) (h : CursorWindowed s) : StaysIn s (getXy s).2 := by
  show StaysIn s (noteLine s)
  rw [noteLine_of_windowed hg h]
  exact StaysIn.refl h

theorem tabLoop_stays (n : Nat) (hg : s.cfg.GeometryOk) (h : CursorWindowed s) : StaysIn s (tabLoop n s) := by
  induction n generalizing s with
  | zero => exact StaysIn.refl h
  | succ n ih =>
    have hp := putChar_stays 0x20 hg h
    have hs := hp.trans (getXy_stays (hp.geometry hg) hp.windowed)
    unfold tabLoop
    dsimp only
    split
    · exact hs
    · exact hs.trans (ih (hs.geometry hg) hs.windowed)

theorem displayControl_stays (d c b : Bool) (h : CursorWindowed s) : StaysIn s (displayControl d c b s) := by
  have := (command_busFrame (displayControlByte d c b) s).stays h
  exact ⟨this.cfg, this.windowed, this.assertOow⟩

theorem setParseMode_stays (m : ParseMode) (h : CursorWindowed s) : StaysIn s (setParseMode m s) := ⟨rfl, h, rfl⟩

theorem log_stays (e : LogEvent) (h : CursorWindowed s) : StaysIn s (log e s) := ⟨rfl, h, rfl⟩

theorem moveCursor_stays (x y : Int) (m : Mode) (hg : s.cfg.GeometryOk) (h : CursorWindowed s) :
    StaysIn s (moveCursor x y m s) := gotoXy_stays x y m hg h

theorem escapeCode_stays (b : Byte) (hg : s.cfg.GeometryOk) (h : CursorWindowed s) : StaysIn s (escapeCode b s) := by
  unfold escapeCode
  iterate 4
    split
    · exact displayControl_stays _ _ _ h
  split
  · exact moveCursor_stays _ _ _ hg h
  split
  · have hc := clear_stays (s := s) hg
    exact hc.trans (moveCursor_stays _ _ _ (hc.geometry hg) hc.windowed)
  iterate 4
    split
    · exact moveCursor_stays _ _ _ hg h
  exact log_stays _ h

theorem normalByte_stays (b : Byte) (hg : s.cfg.GeometryOk) (h : CursorWindowed s) : StaysIn s (normalByte b s) := by
  unfold normalByte
  split
  · exact setParseMode_stays _ h
  split
  · exact moveCursor_stays _ _ _ hg h
  split
  · have hx := getXy_stays hg h
    exact hx.trans (moveCursor_stays _ _ _ (hx.geometry hg) hx.windowed)
  split
  · exact moveCursor_stays _ _ _ hg h
  split
  · exact tabLoop_stays 4 hg h
  · exact putChar_stays b hg h

theorem termByte_stays (b : Byte) (hg : s.cfg.GeometryOk) (h : CursorWindowed s) : StaysIn s (termByte b s) := by
  unfold termByte
  split
  · exact (setParseMode_stays .normal h).trans (escapeCode_stays b hg h)
  · exact normalByte_stays b hg h

theorem feedBytes_stays (bs : List Byte) (hg : s.cfg.GeometryOk) (h : CursorWindowed s) :
    StaysIn s (feedBytes bs s) := by
  induction bs generalizing s with
  | nil => exact StaysIn.refl h
  | cons b bs ih =>
    unfold feedBytes
    split
    · exact StaysIn.refl h
    · have hs := termByte_stays b hg h
      exact hs.trans (ih (hs.geometry hg) hs.windowed)

/-! ### Where characters lead -/

theorem character_cursor (b : Byte) (s : State) : (writeByte .data b (waitReady s).2).cursor = s.cursor :=
  ((waitReady_busFrame s).trans (writeByte_busFrame _ _ _)).cursor

theorem character_cfg (b : Byte) (s : State) : (writeByte .data b (waitReady s).2).cfg = s.cfg :=
  ((waitReady_busFrame s).trans (writeByte_busFrame _ _ _)).cfg

/-- `advance` moves the cursor as it does from any state with this cursor (R192 reads nothing else). -/
theorem advance_cursor_congr (hc : t.cfg = s.cfg) (h : t.cursor = s.cursor) :
    (advance t).cursor = (advance s).cursor := by
  unfold advance
  simp only [hc, h]
  split <;> rfl

theorem putChar_cursor (b : Byte) (s : State) : (putChar b s).cursor = (advance s).cursor :=
  advance_cursor_congr (character_cfg b s) (character_cursor b s)

theorem putChar_cell (b : Byte) (hg : s.cfg.GeometryOk) (h : CursorWindowed s) :
    (putChar b s).cursor.toNat = physOf s.cfg ((cellOf s.cfg s.cursor.toNat + 1) % s.cfg.total) := by
  rw [putChar_cursor, advance_cell hg h]

theorem repeatOp_advance_congr (n : Nat) (hc : t.cfg = s.cfg) (h : t.cursor = s.cursor) :
    (repeatOp advance n t).cursor = (repeatOp advance n s).cursor := by
  induction n generalizing s t with
  | zero => exact h
  | succ n ih => exact ih (by simp [hc]) (advance_cursor_congr hc h)

theorem putChars_cursor (bs : List Byte) (s : State) :
    (putChars bs s).cursor = (repeatOp advance bs.length s).cursor := by
  induction bs generalizing s with
  | nil => rfl
  | cons b bs ih =>
    rw [putChars, ih, List.length_cons, repeatOp]
    exact repeatOp_advance_congr _ (by rw [(putChar_moves b s).frame.cfg, advance_cfg]) (putChar_cursor b s)

theorem putChars_snoc (bs : List Byte) (b : Byte) (s : State) :
    putChars (bs ++ [b]) s = putChar b (putChars bs s) := by
  induction bs generalizing s with
  | nil => rfl
  | cons c bs ih => exact ih _

/-! ### The pins after characters -/

/-- The pins after a character at cell `i`: inside a row they are the character's; at its end they are those of the address
of the next row (R192, 41_bus_transport.md R131, corner case 2). -/
theorem putChar_pins (b : Byte) (hr : s.life = .ready) (hp : s.cfg.PinsOk) (hg : s.cfg.GeometryOk)
    (h : CursorWindowed s) :
    let n := cellOf s.cfg s.cursor.toNat + 1
    SelectLines (putChar b s) false (n % s.cfg.lineLen ≠ 0) ∧
    DataPinsCarry (putChar b s) (BitVec.ofNat 4 (if n % s.cfg.lineLen = 0
      then s.cfg.baseOf (n / s.cfg.lineLen % s.cfg.nLines) % 16 else b.toNat % 16)) := by
  intro n
  have hcur := character_cursor b s
  have hcfg := character_cfg b s
  have hpins := writeByte_pins .data b (s := (waitReady s).2) (by simpa using hr) (by simpa using hp)
  have hlife : (writeByte .data b (waitReady s).2).life = .ready :=
    ((waitReady_busFrame s).trans (writeByte_busFrame _ _ _)).life.trans hr
  generalize hu : writeByte .data b (waitReady s).2 = u at hcur hcfg hpins hlife
  have hput : putChar b s = advance u := by rw [putChar, hu]
  have hpu : u.cfg.PinsOk := hcfg ▸ hp
  have hgu : u.cfg.GeometryOk := hcfg ▸ hg
  obtain ⟨l, hl, hw⟩ := h
  have hlen := lineLen_pos hg
  have hn : n = l * s.cfg.lineLen + (s.cursor.toNat - s.cfg.baseOf l + 1) := by
    show cellOf s.cfg s.cursor.toNat + 1 = _
    rw [cellOf_of_window hg hl hw, Nat.add_assoc]
  have hmod : n % s.cfg.lineLen = (s.cursor.toNat - s.cfg.baseOf l + 1) % s.cfg.lineLen := by
    rw [hn, Nat.mul_comm, Nat.mul_add_mod]
  simp only [InWindow] at hw
  by_cases hb : s.cursor.toNat + 1 = s.cfg.baseOf l + s.cfg.lineLen
  · have h0 : s.cursor.toNat - s.cfg.baseOf l + 1 = s.cfg.lineLen := by omega
    have hz : n % s.cfg.lineLen = 0 := by rw [hmod, h0, Nat.mod_self]
    have hdiv : n / s.cfg.lineLen = l + 1 := by
      rw [hn, h0, ← Nat.succ_mul, Nat.mul_div_cancel _ hlen]
    rw [hput, advance_boundary (l := l) hgu (by rw [hcfg]; exact hl) (by rw [hcur, hcfg]; exact hb)]
    obtain ⟨h1, h2⟩ := command_pins (setAddressByte (addrOf (u.cfg.baseOf ((l + 1) % u.cfg.nLines)))) hlife hpu
    have h7 := window_le hg (Nat.mod_lt (l + 1) (lines_pos hg))
    have hbyte : (setAddressByte (addrOf (s.cfg.baseOf ((l + 1) % s.cfg.nLines)))).toNat % 16 =
        s.cfg.baseOf ((l + 1) % s.cfg.nLines) % 16 := by
      have key : ∀ a : Addr, (setAddressByte a).toNat % 16 = a.toNat % 16 := by decide
      rw [key, addrOf_toNat (by omega)]
    rw [hcfg, hbyte] at h2
    rw [hcfg] at h1
    rw [hdiv]
    simp only [hz, ne_eq, not_true_eq_false, decide_false, if_true, hcfg]
    exact ⟨h1, h2⟩
  · have h1 : (s.cursor.toNat - s.cfg.baseOf l + 1) % s.cfg.lineLen = s.cursor.toNat - s.cfg.baseOf l + 1 :=
      Nat.mod_eq_of_lt (by omega)
    have hz : n % s.cfg.lineLen ≠ 0 := by rw [hmod, h1]; omega
    rw [hput, advance_inside (l := l) hgu (by rw [hcfg]; exact hl) (by rw [hcur, hcfg]; exact hw)
      (by rw [hcur, hcfg]; exact hb)]
    simp only [hz, ne_eq, not_false_eq_true, decide_true, if_false]
    exact hpins

end Sys2Proof.Machine
end

