-- ==== Sys2Proof/Laws/Sequence.lean ====
section
/-! SUPPORT. What each position and command operation answers while `LIFE = READY`, steps in sequence, and how many
nibbles they write (43_position.md R192 to R199). -/

namespace Sys2Proof.Machine

variable {s t u : State}

/-! ### Admitted operations -/

theorem exec_waitReady_up (h : s.life = .ready) :
    exec .waitReady s = .next (respond .ok (timeoutValue (waitReady s).1) (waitReady s).2) := by
  simp only [exec, execWaitReady, whenReady_up h]

theorem exec_wrByte_up (h : s.life = .ready) (rs : RegSel) (b : Byte) :
    exec (.wrByte rs b) s = .next (respond .ok 0 (writeByte rs b s)) := by
  simp only [exec, execWrByte, whenReady_up h]; rfl

theorem exec_functionSet_up (h : s.life = .ready) (l : Nat) (f : Bool) :
    exec (.functionSet l f) s = .next (respond .ok 0 (functionSet l f s)) := by
  simp only [exec, execFunctionSet, whenReady_up h]; rfl

theorem exec_entryMode_up (h : s.life = .ready) (d e : Bool) :
    exec (.entryMode d e) s = .next (respond .ok 0 (entryMode d e s)) := by
  simp only [exec, execEntryMode, whenReady_up h]; rfl

theorem exec_displayControl_up (h : s.life = .ready) (d c b : Bool) :
    exec (.displayControl d c b) s = .next (respond .ok 0 (displayControl d c b s)) := by
  simp only [exec, execDisplayControl, whenReady_up h]; rfl

theorem exec_clear_up (h : s.life = .ready) : exec .clear s = .next (respond .ok 0 (clear s)) := by
  simp only [exec, execClear, whenReady_up h]; rfl

theorem exec_home_up (h : s.life = .ready) : exec .home s = .next (respond .ok 0 (home s)) := by
  simp only [exec, execHome, whenReady_up h]; rfl

theorem exec_setAddress_up (h : s.life = .ready) (a : Addr) :
    exec (.setAddress a) s = .next (respond .ok 0 (setAddress a s)) := by
  simp only [exec, execSetAddress, whenReady_up h]; rfl

theorem exec_advance_up (h : s.life = .ready) : exec .advance s = .next (respond .ok 0 (advance s)) := by
  simp only [exec, execAdvance, whenReady_up h]; rfl

theorem exec_retreat_up (h : s.life = .ready) : exec .retreat s = .next (respond .ok 0 (retreat s)) := by
  simp only [exec, execRetreat, whenReady_up h]; rfl

theorem exec_getXy_up (h : s.life = .ready) :
    exec .getXy s = .next (respond .ok (xyValue (getXy s).1.1 (getXy s).1.2) (getXy s).2) := by
  simp only [exec, execGetXy, whenReady_up h]

theorem exec_gotoXy_up (h : s.life = .ready) (x y : Int) (m : Mode) :
    exec (.gotoXy x y m) s = .next (respond (gotoXy x y m s).1 0 (gotoXy x y m s).2) := by
  simp only [exec, execGotoXy, whenReady_up h]

theorem exec_putChar_up (h : s.life = .ready) (b : Byte) :
    exec (.putChar b) s = .next (respond .ok 0 (putChar b s)) := by
  simp only [exec, execPutChar, whenReady_up h]; rfl

theorem exec_termByte_up (h : s.life = .ready) (hs : s.session = true) (b : Byte) :
    exec (.termByte b) s = .next (respond .ok 0 (termByte b s)) := by
  simp only [exec, execTermByte, whenSession_on h hs]; rfl

/-! ### Steps in sequence -/

/-- States that any response makes equal agree on everything but the response and the sequencer. -/
theorem eq_of_respond (h : ∀ c v, respond c v t = respond c v u) :
    t.life = u.life ∧ t.cursor = u.cursor ∧ t.trace = u.trace ∧ t.cfg = u.cfg := by
  have h := h .ok 0
  exact ⟨by simpa using congrArg State.life h, by simpa using congrArg State.cursor h,
    by simpa using congrArg State.trace h, by simpa using congrArg State.cfg h⟩

theorem foldl_replicate (op : State → State) (n : Nat) (s : State) :
    (List.replicate n ()).foldl (fun u _ => op u) s = repeatOp op n s := by
  induction n generalizing s with
  | zero => rfl
  | succ n ih => rw [List.replicate_succ, List.foldl_cons, ih]; rfl

theorem execAll_advances (n : Nat) (h : s.life = .ready) : ∃ t, execAll (List.replicate n .advance) s = .next t ∧
    ∀ c v, respond c v t = respond c v (repeatOp advance n s) := by
  obtain ⟨t, h1, h2⟩ := execAll_map (fun _ : Unit => Instr.advance) (fun _ => advance) (fun _ s h => exec_advance_up h)
    (fun _ s => (advance_moves s).frame.life) (fun _ s => advance_respond _ _ s) (List.replicate n ()) h
  exact ⟨t, by simpa using h1, fun c v => by rw [h2, foldl_replicate]⟩

theorem execAll_retreats (n : Nat) (h : s.life = .ready) : ∃ t, execAll (List.replicate n .retreat) s = .next t ∧
    ∀ c v, respond c v t = respond c v (repeatOp retreat n s) := by
  obtain ⟨t, h1, h2⟩ := execAll_map (fun _ : Unit => Instr.retreat) (fun _ => retreat) (fun _ s h => exec_retreat_up h)
    (fun _ s => (retreat_moves s).frame.life) (fun _ s => retreat_respond _ _ s) (List.replicate n ()) h
  exact ⟨t, by simpa using h1, fun c v => by rw [h2, foldl_replicate]⟩

/-- The steps of a signed delta, one operation each (R196). -/
theorem execAll_steps (d : Int) (h : s.life = .ready) : ∃ t, execAll (stepsOf d) s = .next t ∧
    ∀ c v, respond c v t = respond c v (stepBy d s) := by
  unfold stepsOf
  cases d with
  | ofNat n => rw [if_pos (by simp)]; exact execAll_advances n h
  | negSucc n => rw [if_neg (by simp)]; exact execAll_retreats (n + 1) h

/-- Characters, one operation each (R199). -/
theorem execAll_chars (bs : List Byte) (h : s.life = .ready) : ∃ t, execAll (bs.map .putChar) s = .next t ∧
    ∀ c v, respond c v t = respond c v (putChars bs s) := by
  obtain ⟨t, h1, h2⟩ := execAll_map Instr.putChar putChar (fun b s h => exec_putChar_up h b)
    (fun b s => (putChar_moves b s).frame.life) (fun b s => putChar_respond _ _ b s) bs h
  refine ⟨t, h1, fun c v => ?_⟩
  rw [h2]
  congr 1
  clear h h1 h2
  induction bs generalizing s with
  | nil => rfl
  | cons b bs ih => rw [List.foldl_cons, ih]; rfl

/-! ### Nibbles written -/

theorem writeByteTrace_count (c : Config) (rs : RegSel) (b : Byte) :
    (writeByteTrace c rs b).count (.delay .wHold) = 2 := by
  cases rs <;> simp [writeByteTrace, writeNibbleTrace]

theorem readByteTrace_count (c : Config) (rs : RegSel) (a : Word × Word) :
    (readByteTrace c rs a).count (.delay .wHold) = 0 := by
  cases rs <;> simp [readByteTrace, readNibbleTrace]

theorem waitTrace_count (s : State) (q : Nat) (b : Bool) : (waitTrace s q b).count (.delay .wHold) = 0 := by
  rw [List.count_eq_zero]
  intro h
  simp only [waitTrace, List.mem_append, List.mem_flatMap] at h
  rcases h with ⟨j, -, h⟩ | h
  · simp only [pollTrace, List.mem_append] at h
    rcases h with h | h
    · exact List.count_eq_zero.1 (readByteTrace_count s.cfg .cmd (statusAt s j)) h
    · split at h <;> simp at h
  · split at h <;> simp at h

/-- A command writes two nibbles, however long it waits. -/
theorem command_count (b : Byte) (s : State) :
    ∃ es, (command b s).trace = s.trace ++ es ∧ es.count (.delay .wHold) = 2 := by
  obtain ⟨q, -, h1, -, -⟩ := waitReady_spec s
  refine ⟨waitTrace s q (waitReady s).1 ++ writeByteTrace s.cfg .cmd b, ?_, ?_⟩
  · rw [command, writeByte_trace, h1]; simp
  · rw [List.count_append, waitTrace_count, writeByteTrace_count]

theorem colOf_lt {c : Config} (hg : c.GeometryOk) (p : Nat) : colOf c p < c.lineLen := Nat.mod_lt _ (lineLen_pos hg)

/-- `advance` sends a command where it leaves a line, and nothing else (R192). -/
theorem advance_count (hg : s.cfg.GeometryOk) (h : CursorWindowed s) :
    ∃ es, (advance s).trace = s.trace ++ es ∧
      (if colOf s.cfg s.cursor.toNat + 1 = s.cfg.lineLen then
        es.count (.delay .wHold) = 2 ∧ colOf s.cfg (advance s).cursor.toNat = 0
      else es = [] ∧ colOf s.cfg (advance s).cursor.toNat = colOf s.cfg s.cursor.toNat + 1) := by
  obtain ⟨l, hl, hw⟩ := h
  have hpos := lineLen_pos hg
  have hx := colOf_of_window hg hl hw
  split
  · next hc =>
    have hb : s.cursor.toNat + 1 = s.cfg.baseOf l + s.cfg.lineLen := by omega
    rw [advance_boundary hg hl hb]
    obtain ⟨es, h1, h2⟩ := command_count (setAddressByte (addrOf (s.cfg.baseOf ((l + 1) % s.cfg.nLines)))) s
    have hl' := Nat.mod_lt (l + 1) (lines_pos hg)
    have h7 := window_le hg hl'
    refine ⟨es, h1, h2, ?_⟩
    rw [setAddress_cursor, addrOf_toNat (by omega), colOf_of_window hg hl' ⟨Nat.le_refl _, by omega⟩, Nat.sub_self]
  · next hc =>
    have hb : s.cursor.toNat + 1 ≠ s.cfg.baseOf l + s.cfg.lineLen := by omega
    rw [advance_inside hg hl hw hb]
    have h7 := window_le hg hl
    have hto : (s.cursor + 1).toNat = s.cursor.toNat + 1 := by
      rw [BitVec.toNat_add]; show (_ + 1) % 128 = _; omega
    refine ⟨[], by simp, rfl, ?_⟩
    rw [setCursor_cursor, hto, colOf_of_window hg hl (l := l) ⟨by omega, by omega⟩, hx]
    omega

theorem retreat_count (hg : s.cfg.GeometryOk) (h : CursorWindowed s) :
    ∃ es, (retreat s).trace = s.trace ++ es ∧
      (if colOf s.cfg s.cursor.toNat = 0 then
        es.count (.delay .wHold) = 2 ∧ colOf s.cfg (retreat s).cursor.toNat = s.cfg.lineLen - 1
      else es = [] ∧ colOf s.cfg (retreat s).cursor.toNat + 1 = colOf s.cfg s.cursor.toNat) := by
  obtain ⟨l, hl, hw⟩ := h
  have hpos := lineLen_pos hg
  have hx := colOf_of_window hg hl hw
  split
  · next hc =>
    have hb : s.cursor.toNat = s.cfg.baseOf l := by omega
    rw [retreat_boundary hg hl hb]
    obtain ⟨es, h1, h2⟩ :=
      command_count (setAddressByte (addrOf (s.cfg.baseOf (previousLine s.cfg l) + s.cfg.lineLen - 1))) s
    have hl' := previousLine_lt hg l
    have h7 := window_le hg hl'
    refine ⟨es, h1, h2, ?_⟩
    rw [setAddress_cursor, addrOf_toNat (by omega), colOf_of_window hg hl' ⟨by omega, by omega⟩]
    omega
  · next hc =>
    have hb : s.cursor.toNat ≠ s.cfg.baseOf l := by omega
    rw [retreat_inside hg hl hw hb]
    have h7 := window_le hg hl
    have hto : (s.cursor - 1).toNat = s.cursor.toNat - 1 := by
      rw [BitVec.toNat_sub]; show (128 - 1 + _) % 128 = _; omega
    refine ⟨[], by simp, rfl, ?_⟩
    rw [setCursor_cursor, hto, colOf_of_window hg hl (l := l) ⟨by omega, by omega⟩, hx]
    omega

end Sys2Proof.Machine
end

