-- ==== Sys2Proof/Laws/Parser.lean ====
section
/-! SUPPORT. The terminal layer's parser mode and its tab (44_terminal.md R231, R232, R235). -/

namespace Sys2Proof.Machine

variable {s t u : State}

theorem Moves.parseMode (h : Moves s t) : t.parseMode = s.parseMode := h.frame.parseMode

theorem displayControl_parseMode (d c b : Bool) (s : State) : (displayControl d c b s).parseMode = s.parseMode :=
  (command_busFrame _ s).parseMode

theorem escapeCode_parseMode (b : Byte) (s : State) : (escapeCode b s).parseMode = s.parseMode := by
  unfold escapeCode
  iterate 4
    split
    · exact displayControl_parseMode _ _ _ _
  split
  · exact (moveCursor_moves _ _ _ _).parseMode
  split
  · exact ((clear_moves _).trans (moveCursor_moves _ _ _ _)).parseMode
  iterate 4
    split
    · exact (moveCursor_moves _ _ _ _).parseMode
  rfl

theorem normalByte_parseMode {b : Byte} (hb : b ≠ 0x1B) (s : State) : (normalByte b s).parseMode = s.parseMode := by
  rw [normalByte, if_neg hb]
  split
  · exact (moveCursor_moves _ _ _ _).parseMode
  split
  · exact ((getXy_moves s).trans (moveCursor_moves _ _ _ _)).parseMode
  split
  · exact (moveCursor_moves _ _ _ _).parseMode
  split
  · exact (tabLoop_moves _ _).parseMode
  · exact (putChar_moves _ _).parseMode

/-- The mode after a byte (R231). -/
theorem termByte_parseMode (b : Byte) (s : State) :
    (termByte b s).parseMode = if s.parseMode = .normal ∧ b = 0x1B then .escapePending else .normal := by
  unfold termByte
  cases h : s.parseMode with
  | escapePending => simpa using escapeCode_parseMode b (setParseMode .normal s)
  | normal =>
    by_cases hb : b = 0x1B
    · subst hb; rfl
    · rw [if_neg (fun h => hb h.2)]
      exact (normalByte_parseMode hb s).trans h

/-! ### Tab -/

/-- A space, and the question for the column after it. -/
def spaceThenAsk (s : State) : State := (getXy (putChar 0x20 s)).2

theorem spaceThenAsk_moves (s : State) : Moves s (spaceThenAsk s) := (putChar_moves _ s).trans (getXy_moves _)

theorem spaceThenAsk_cfg (s : State) : (spaceThenAsk s).cfg = s.cfg := (spaceThenAsk_moves s).frame.cfg

theorem spaceThenAsk_cursor (s : State) : (spaceThenAsk s).cursor = (advance s).cursor := by
  rw [← putChar_cursor 0x20]
  exact noteLine_cursor _

theorem spaceThenAsk_respond (c : Code) (v : BitVec 32) (s : State) :
    spaceThenAsk (respond c v s) = respond c v (spaceThenAsk s) := by simp [spaceThenAsk]

theorem spaceThenAsk_col (s : State) :
    (getXy (putChar 0x20 s)).1.1 = colOf s.cfg (spaceThenAsk s).cursor.toNat := by
  rw [spaceThenAsk_cursor, ← putChar_cursor 0x20]
  show colOf (putChar _ s).cfg _ = _
  rw [(putChar_moves _ s).frame.cfg]

theorem spaceThenAsk_stays (hg : s.cfg.GeometryOk) (h : CursorWindowed s) : StaysIn s (spaceThenAsk s) := by
  have hp := putChar_stays 0x20 hg h
  exact hp.trans (getXy_stays (hp.geometry hg) hp.windowed)

theorem succ_mod (n : Nat) {m : Nat} (h : 0 < m) : (n + 1) % m = 0 ∨ (n + 1) % m = n % m + 1 := by
  have h1 := Nat.mod_lt n h
  have h2 := Nat.div_add_mod n m
  by_cases h3 : n % m + 1 = m
  · left
    rw [show n + 1 = m * (n / m + 1) by rw [Nat.mul_succ]; omega]
    exact Nat.mul_mod_right _ _
  · right
    rw [show n + 1 = n % m + 1 + m * (n / m) by omega, Nat.add_mul_mod_self_left]
    exact Nat.mod_eq_of_lt (by omega)

/-- An advance goes to the next column or to column 0, from in and out of the windows alike. -/
theorem advance_col (hg : s.cfg.GeometryOk) : colOf s.cfg (advance s).cursor.toNat = 0 ∨
    colOf s.cfg (advance s).cursor.toNat = colOf s.cfg s.cursor.toNat + 1 := by
  by_cases h : CursorWindowed s
  · obtain ⟨es, -, h2⟩ := advance_count hg h
    split at h2
    · exact .inl h2.2
    · exact .inr h2.2
  · have h1 : (s.cursor + 1).toNat = (s.cursor.toNat + 1) % 128 := by rw [BitVec.toNat_add]; rfl
    rw [advance_out hg h, setCursor_cursor, h1]
    rcases Nat.lt_or_ge (s.cursor.toNat + 1) 128 with h2 | h2
    · rw [Nat.mod_eq_of_lt h2]
      exact succ_mod _ (lineLen_pos hg)
    · left
      rw [show s.cursor.toNat + 1 = 128 by have := s.cursor.isLt; omega]
      simp [colOf]

/-- The tab loop stops by itself within its bound, at the first column that is a multiple of 4. -/
theorem tabLoop_spec (n : Nat) (hg : s.cfg.GeometryOk) (hn : 4 ≤ n + colOf s.cfg s.cursor.toNat % 4) :
    ∃ k, 1 ≤ k ∧ k ≤ n ∧ tabLoop n s = repeatOp spaceThenAsk k s ∧
      colOf s.cfg (repeatOp spaceThenAsk k s).cursor.toNat % 4 = 0 ∧
      ∀ m, 1 ≤ m → m < k → colOf s.cfg (repeatOp spaceThenAsk m s).cursor.toNat % 4 ≠ 0 := by
  induction n generalizing s with
  | zero => have := Nat.mod_lt (colOf s.cfg s.cursor.toNat) (show 4 > 0 by omega); omega
  | succ n ih =>
    have hc := spaceThenAsk_cfg s
    have h1 := advance_col hg
    rw [← spaceThenAsk_cursor] at h1
    have hx := spaceThenAsk_col s
    by_cases hz : colOf s.cfg (spaceThenAsk s).cursor.toNat % 4 = 0
    · refine ⟨1, by omega, by omega, ?_, hz, fun m h1 h2 => by omega⟩
      unfold tabLoop
      simp only [hx, hz, if_true]
      rfl
    · obtain ⟨k, a1, a2, a3, a4, a5⟩ := ih (s := spaceThenAsk s) (by rw [hc]; exact hg) (by rw [hc]; omega)
      rw [hc] at a4 a5
      refine ⟨k + 1, by omega, by omega, ?_, a4, fun m h2 h3 => ?_⟩
      · unfold tabLoop
        simp only [hx, hz, if_false]
        exact a3
      · match m, h2 with
        | 1, _ => exact hz
        | m + 2, _ => exact a5 (m + 1) (by omega) (by omega)

theorem repeatOp_spaces_cursor (n : Nat) (s : State) :
    (repeatOp spaceThenAsk n s).cursor = (repeatOp advance n s).cursor := by
  induction n generalizing s with
  | zero => rfl
  | succ n ih =>
    rw [repeatOp, ih, repeatOp]
    exact repeatOp_advance_congr n (by rw [spaceThenAsk_cfg, advance_cfg]) (spaceThenAsk_cursor s)

/-- The spaces of a tab, one operation each with the question after it. -/
theorem execAll_spaces (n : Nat) (hr : s.life = .ready) :
    ∃ t, execAll (List.replicate n [Instr.putChar 0x20, Instr.getXy]).flatten s = .next t ∧
      ∀ c v, respond c v t = respond c v (repeatOp spaceThenAsk n s) := by
  induction n generalizing s with
  | zero => exact ⟨s, rfl, fun _ _ => rfl⟩
  | succ n ih =>
    have h1 : (respond .ok 0 (putChar 0x20 s)).life = .ready := (putChar_moves _ s).frame.life.trans hr
    have h2 := exec_getXy_up h1
    obtain ⟨t, h3, h4⟩ := ih (s := respond .ok (xyValue (getXy (respond .ok 0 (putChar 0x20 s))).1.1
      (getXy (respond .ok 0 (putChar 0x20 s))).1.2) (getXy (respond .ok 0 (putChar 0x20 s))).2)
      ((getXy_moves _).frame.life.trans h1)
    refine ⟨t, ?_, fun c v => ?_⟩
    · rw [List.replicate_succ, List.flatten_cons]
      show execAll (Instr.putChar 0x20 :: Instr.getXy :: _) s = _
      rw [execAll_cons (exec_putChar_up hr _), execAll_cons h2]
      exact h3
    · rw [h4]
      simp only [getXy_respond, respond_respond]
      rw [repeatOp_respond _ _ (spaceThenAsk_respond _ _)]
      rfl

/-! ### WRITE and SEEK -/

/-- The bytes before the first null, one TERM_BYTE each (R266). -/
theorem execAll_feed (bs : List Byte) (hr : s.life = .ready) (hs : s.session = true) :
    ∃ t, execAll ((bs.takeWhile fun b => b != 0x00).map .termByte) s = .next t ∧
      ∀ c v, respond c v t = respond c v (feedBytes bs s) := by
  induction bs generalizing s with
  | nil => exact ⟨s, rfl, fun _ _ => rfl⟩
  | cons b bs ih =>
    by_cases hb : b = 0x00
    · subst hb
      exact ⟨s, by simp [execAll], fun _ _ => by simp [feedBytes]⟩
    · have hf := (termByte_edits b s).frame
      obtain ⟨t, h1, h2⟩ := ih (s := respond .ok 0 (termByte b s)) (hf.life.trans hr) (hf.session.trans hs)
      refine ⟨t, ?_, fun c v => ?_⟩
      · rw [List.takeWhile_cons_of_pos (by simpa using hb), List.map_cons, execAll_cons (exec_termByte_up hr hs b), h1]
      · rw [h2, feedBytes_respond, respond_respond, feedBytes, if_neg hb]

/-- SEEK's answer is the cell index (R267). -/
theorem respondIndex_eq (s : State) :
    respondIndex s = respond .ok (BitVec.ofNat 32 (cellOf s.cfg s.cursor.toNat)) (noteLine s) := rfl

theorem exec_seek_up (hr : s.life = .ready) (hs : s.session = true) (o : Int) (m : Mode) :
    exec (.seek o m) s = .next (match m with
      | .abs => if IndexOk s.cfg o then respondIndex (gotoXy o 0 .abs s).2 else fail .errInval s
      | .rel => if SpanOk s.cfg o then respondIndex (gotoXy o 0 .rel s).2 else fail .errInval s
      | .fromEnd => fail .errInval s) := by
  cases m <;> simp only [exec, execSeek, whenSession_on hr hs]

/-- SEEK is GOTO_XY of the offset as a column, then GET_XY; the index answered is that of the position reached. -/
theorem seek_as_moves (hr : s.life = .ready) {o : Int} {m : Mode} (hok : (gotoXy o 0 m s).1 = .ok)
    (he : exec (.seek o m) s = .next (respondIndex (gotoXy o 0 m s).2)) :
    ∃ t u, exec (.gotoXy o 0 m) s = .next t ∧ exec .getXy t = .next u ∧
      exec (.seek o m) s = .next (answered u .ok (BitVec.ofNat 32 (cellOf s.cfg t.cursor.toNat))) ∧
      MoveFrame s u ∧ t.cursor = (gotoXy o 0 m s).2.cursor := by
  have hm := gotoXy_moves o 0 m s
  have e1 := exec_gotoXy_up hr o 0 m
  rw [hok] at e1
  have e2 := exec_getXy_up (s := respond .ok 0 (gotoXy o 0 m s).2) (hm.frame.life.trans hr)
  refine ⟨_, _, e1, e2, ?_, ?_, rfl⟩
  · rw [he, respondIndex_eq, hm.frame.cfg, getXy_respond, respond_cursor]
    rfl
  · rw [getXy_respond]
    exact (hm.trans (getXy_moves _)).frame.trans (respond_busFrame _ _ _).toMoveFrame

end Sys2Proof.Machine
end

