-- ==== Sys2Proof/Laws/Step.lean ====
section
/-! SUPPORT. What one step does in each case (30_encoding.md R90, 45_host.md R268), and what it answers. -/

namespace Sys2Proof.Machine

theorem step_unadmitted {s : State} (h : ¬ s.cfg.Admitted) : step s = .refused .configNotAdmitted := if_neg h

theorem step_running {s : State} (h : s.cfg.Admitted) (hs : s.seq = .running) :
    step s = .refused .commandWhileRunning := by
  rw [step, if_pos h, hs]

theorem step_idle {s : State} (h : s.cfg.Admitted) (hs : s.seq = .idle) (hr : s.requests = []) :
    step s = .next s := by
  rw [step, if_pos h, hs, hr]

theorem step_request {s : State} {r : Request} {rest : List Request} (h : s.cfg.Admitted) (hs : s.seq = .idle)
    (hr : s.requests = r :: rest) : step s = runWord r.word (takeRequest r rest s) := by
  rw [step, if_pos h, hs, hr]

theorem runWord_ok {w : BitVec 32} {i : Instr} (h : decode w = .ok i) (s : State) : runWord w s = exec i s := by
  rw [runWord, h]

theorem runWord_illegal {w : BitVec 32} (h : ∀ i, decode w ≠ .ok i) (s : State) :
    runWord w s = .next (illegalWord s) := by
  rw [runWord]
  cases hd : decode w with
  | ok i => exact absurd hd (h i)
  | error e => rfl

/-- Every word is answered, an error having had no effect and value 0 (60_exceptions.md R298). -/
theorem runWord_answers (w : BitVec 32) (s : State) : Answers s (runWord w s) := by
  cases hd : decode w with
  | ok i => rw [runWord_ok hd]; exact exec_answers i s
  | error e =>
    rw [runWord_illegal (by simp [hd])]
    exact Answers.ofFail s _

end Sys2Proof.Machine
end

