-- ==== Sys2Proof/Laws/Sticky.lean ====
section
/-! SUPPORT. The sticky flags follow the log: set exactly when their event is logged (10_state.md R39). -/

namespace Sys2Proof.Machine

variable {s t u : State}

/-- The events appended, and that the sticky flags changed with them. -/
structure Sticky (s t : State) : Prop where
  events : ∃ es, t.trace = s.trace ++ es ∧
    (t.timeoutSeen = true ↔ s.timeoutSeen = true ∨ Event.log .timeout ∈ es) ∧
    (t.assertOow = true ↔ s.assertOow = true ∨ ∃ p, Event.log (.assertOow p) ∈ es)

theorem Sticky.refl (s : State) : Sticky s s := ⟨[], by simp⟩

theorem Sticky.trans (h : Sticky s t) (h' : Sticky t u) : Sticky s u := by
  obtain ⟨e, a, b, c⟩ := h
  obtain ⟨e', a', b', c'⟩ := h'
  refine ⟨e ++ e', by rw [a', a, List.append_assoc], by rw [b', b, List.mem_append, or_assoc], ?_⟩
  rw [c', c, or_assoc, ← exists_or]
  simp only [List.mem_append]

/-- Nothing logged, no flag changed. -/
theorem Sticky.silent {es : List Event} (h₁ : t.trace = s.trace ++ es) (h₂ : ∀ e, Event.log e ∉ es)
    (h₃ : t.timeoutSeen = s.timeoutSeen) (h₄ : t.assertOow = s.assertOow) : Sticky s t :=
  ⟨es, h₁, by rw [h₃]; simp [h₂], by rw [h₄]; simp [h₂]⟩

theorem writeNibbleTrace_noLog (c : Config) (rs : RegSel) (n : Nibble) (e : LogEvent) :
    Event.log e ∉ writeNibbleTrace c rs n := by simp [writeNibbleTrace]

theorem readNibbleTrace_noLog (c : Config) (rs : RegSel) (v : Word) (e : LogEvent) :
    Event.log e ∉ readNibbleTrace c rs v := by simp [readNibbleTrace]

theorem writeByteTrace_noLog (c : Config) (rs : RegSel) (b : Byte) (e : LogEvent) :
    Event.log e ∉ writeByteTrace c rs b := by simp [writeByteTrace, writeNibbleTrace_noLog]

theorem readByteTrace_noLog (c : Config) (rs : RegSel) (a : Word × Word) (e : LogEvent) :
    Event.log e ∉ readByteTrace c rs a := by simp [readByteTrace, readNibbleTrace_noLog]

/-- A wait logs the timeout if it times out, and nothing else (R136, R137). -/
theorem waitTrace_log (s : State) (q : Nat) (timedOut : Bool) (e : LogEvent) :
    Event.log e ∈ waitTrace s q timedOut ↔ e = .timeout ∧ timedOut = true := by
  simp only [waitTrace, List.mem_append, List.mem_flatMap, pollTrace]
  constructor
  · rintro (⟨j, -, h | h⟩ | h)
    · exact absurd h (readByteTrace_noLog _ _ _ _)
    · split at h <;> simp at h
    · split at h <;> simp_all
  · rintro ⟨rfl, rfl⟩
    right
    simp

theorem writeNibble_sticky (rs : RegSel) (n : Nibble) (s : State) : Sticky s (writeNibble rs n s) :=
  .silent (writeNibble_trace rs n s) (writeNibbleTrace_noLog _ _ _) (by simp) (writeNibble_busFrame _ _ _).assertOow

theorem readNibble_sticky (rs : RegSel) (s : State) : Sticky s (readNibble rs s).2 :=
  .silent (readNibble_trace rs s) (readNibbleTrace_noLog _ _ _) (by simp) (readNibble_busFrame _ _).assertOow

theorem writeByte_sticky (rs : RegSel) (b : Byte) (s : State) : Sticky s (writeByte rs b s) :=
  (writeNibble_sticky _ _ _).trans (writeNibble_sticky _ _ _)

theorem readByte_sticky (rs : RegSel) (s : State) : Sticky s (readByte rs s).2 :=
  (readNibble_sticky _ _).trans (readNibble_sticky _ _)

theorem waitReady_sticky (s : State) : Sticky s (waitReady s).2 := by
  obtain ⟨q, -, h1, h2, -⟩ := waitReady_spec s
  refine ⟨_, h1, by rw [h2, waitTrace_log]; simp, ?_⟩
  rw [(waitReady_busFrame s).assertOow]
  simp [waitTrace_log]

theorem Moves.sticky (h : Moves s t) : Sticky s t := by
  induction h with
  | refl => exact .refl s
  | command _ b ih => exact ih.trans ((waitReady_sticky _).trans (writeByte_sticky _ _ _))
  | character _ b ih => exact ih.trans ((waitReady_sticky _).trans (writeByte_sticky _ _ _))
  | cursor _ a ih => exact ih.trans ⟨[], by simp⟩
  | outOfWindow _ p ih => exact ih.trans ⟨[.log (.assertOow p)], rfl, by simp, by simp⟩

theorem Edits.sticky (h : Edits s t) : Sticky s t := by
  induction h with
  | refl => exact .refl s
  | moves _ h' ih => exact ih.trans h'.sticky
  | flags _ d c b ih => exact ih.trans ⟨[], by simp⟩
  | parse _ m ih => exact ih.trans ⟨[], by simp⟩
  | unknown _ b ih => exact ih.trans ⟨[.log (.unknownEsc b)], rfl, by simp, by simp⟩

theorem handshake_sticky (s : State) : Sticky s (handshake s) :=
  .silent (handshake_trace s) (by intro e; simp [handshakeTrace, writeNibbleTrace_noLog]) (handshake_timeoutSeen s)
    (handshake_busFrame s).assertOow

end Sys2Proof.Machine
end

