-- ==== Sys2Proof/Tests/Slice0.lean ====
section
/-! SUPPORT. Tests of fixed values. Expected results are the spec's: words from 30_encoding.md R90 to R95, effects from the
vectors V<n> and scenarios of 95_test_vectors.md. The last part shows, for every statement with hypotheses, values that
meet them together. -/

namespace Sys2Proof.Tests

open Sys2Proof.Machine

/-! ### Operations without a word -/

theorem test_wf_lines_three : (Instr.functionSet 3 false).wellFormed = false := by decide
theorem test_wf_lines_zero : (Instr.functionSet 0 false).wellFormed = false := by decide
theorem test_wf_x_too_large : (Instr.gotoXy 128 0 .abs).wellFormed = false := by decide
theorem test_wf_y_too_small : (Instr.gotoXy 0 (-129) .rel).wellFormed = false := by decide
theorem test_wf_string_too_long : (Instr.putString 65536).wellFormed = false := by decide
theorem test_wf_write_too_long : (Instr.write 65536).wellFormed = false := by decide
theorem test_wf_offset_too_large : (Instr.seek 32768 .abs).wellFormed = false := by decide
theorem test_wf_offset_too_small : (Instr.seek (-32769) .rel).wellFormed = false := by decide
theorem test_wf_edges : (Instr.gotoXy (-128) 127 .fromEnd).wellFormed = true ∧
    (Instr.seek (-32768) .rel).wellFormed = true ∧ (Instr.write 65535).wellFormed = true := by decide

/-! ### Every operation's word, written out from R90 to R93 -/

theorem test_decode_wrNib : decode 0x1001000A = .ok (.wrNib .data 0xA) := by decide
theorem test_decode_rdNib : decode 0x11010000 = .ok (.rdNib .data) := by decide
theorem test_decode_wrByte : decode 0x12000028 = .ok (.wrByte .cmd 0x28) := by decide
theorem test_decode_rdByte : decode 0x13010000 = .ok (.rdByte .data) := by decide
theorem test_decode_waitReady : decode 0x14000000 = .ok .waitReady := by decide
theorem test_decode_functionSet : decode 0x20000001 = .ok (.functionSet 1 true) := by decide
theorem test_decode_displayControl : decode 0x21000006 = .ok (.displayControl true true false) := by decide
theorem test_decode_clear : decode 0x22000000 = .ok .clear := by decide
theorem test_decode_home : decode 0x23000000 = .ok .home := by decide
theorem test_decode_entryMode : decode 0x24000001 = .ok (.entryMode false true) := by decide
theorem test_decode_setAddress : decode 0x2500007F = .ok (.setAddress 0x7F) := by decide
theorem test_decode_advance : decode 0x30000000 = .ok .advance := by decide
theorem test_decode_retreat : decode 0x31000000 = .ok .retreat := by decide
theorem test_decode_getXy : decode 0x32000000 = .ok .getXy := by decide
theorem test_decode_gotoXy : decode 0x3301C07F = .ok (.gotoXy (-64) 127 .rel) := by decide
theorem test_decode_putChar : decode 0x340000FF = .ok (.putChar 0xFF) := by decide
theorem test_decode_putString : decode 0x3500012C = .ok (.putString 300) := by decide
theorem test_decode_termByte : decode 0x40000009 = .ok (.termByte 0x09) := by decide
theorem test_decode_startup : decode 0x50000000 = .ok .startup := by decide
theorem test_decode_shutdown : decode 0x51000000 = .ok .shutdown := by decide
theorem test_decode_open : decode 0x52000000 = .ok .openSession := by decide
theorem test_decode_close : decode 0x53000000 = .ok .closeSession := by decide
theorem test_decode_write : decode 0x5400FFFF = .ok (.write 65535) := by decide
theorem test_decode_seek : decode 0x55018000 = .ok (.seek (-32768) .rel) := by decide

theorem test_encode_seek : encode (.seek (-3) .rel) = 0x5501FFFD := by decide
theorem test_encode_gotoXy : encode (.gotoXy (-5) 0 .rel) = 0x3301FB00 := by decide

/-- V145 to V149: unknown opcodes, reserved bits, the reserved mode. -/
theorem test_illegal_words :
    decode 0x00000000 = .error .unknownOpcode ∧ decode 0xFFFFFFFF = .error .unknownOpcode ∧
    decode 0x22000001 = .error .reservedBit ∧ decode 0x10020003 = .error .reservedBit ∧
    decode 0x25000080 = .error .reservedBit ∧ decode 0x33030000 = .error .reservedMode ∧
    decode 0x55030000 = .error .reservedMode := by decide

theorem test_tableWord : decodeTableWord 32 0x34000068 = some (.putChar 0x68) ∧
    decodeTableWord 32 0x33030000 = none := by decide

/-- R102, R103. -/
theorem test_asm : (Instr.move (-5) 0).asm = "GOTO_XY -5, 0, rel" ∧ Instr.status.asm = "RD_BYTE cmd" := by decide

/-! R15's configurations are admitted, and EX1 for the second datasheet column of R340 too. -/

theorem test_admitted_ex1 : Config.ex1.Admitted := by decide
theorem test_admitted_ex2 : Config.ex2.Admitted := by decide

def ex1At3V : Config := { Config.ex1 with lcd := Datasheet.at3V }

theorem test_admitted_at3V : ex1At3V.Admitted ∧ ex1At3V.AddressSetupOk := by decide

theorem test_pollCount : Config.ex1.pollCount = 10 := by decide

/-! ### One step on a small state -/

/-- Configuration EX1 after STARTUP (P1's end state), the LCD ready, the cursor where it is wanted. -/
def up (cursor : Addr) : State :=
  { State.reset with
    life := .ready, displayOn := true, cursor := cursor, out := 0x0C, dir := 0x7F
    samples := List.replicate 64 0 }

/-- The same with an LCD that is always busy. -/
def stuck (cursor : Addr) : State := { up cursor with samples := List.replicate 64 0xF }

/-- The same with a session open. -/
def inSession (cursor : Addr) (m : ParseMode) : State := { up cursor with session := true, parseMode := m }

/-- `s` with `BUF` filled from index 0. -/
def withBuf (s : State) (bs : List Byte) : State := { s with buf := Memory.store s.buf 0 bs }

/-- The state after the step that runs word `w`. -/
def after (w : Nat) (s : State) : State :=
  match step (s.withFetchWord 32 w) with
  | .next t => t
  | .fault _ => s
  | .refused _ => s

/-- The response of the step that runs word `w`. -/
def answer (w : Nat) (s : State) : Option (Code × Nat) :=
  (after w s).response.map fun r => (r.code, r.value.toNat)

/-- The nibbles presented on the data pins, in configuration EX1. -/
def nibbles (es : List Event) : List Nat :=
  es.filterMap fun e =>
    match e with
    | .set a b => if a ||| b = 0xF then some a else none
    | _ => none

/-- The nibbles that word `w` sends. -/
def sent (w : Nat) (s : State) : List Nat := nibbles (after w s).trace

/-- V10. -/
theorem test_wrNib : (after 0x10000003 { up 0 with out := 0, dir := 0 }).trace =
    [.set 0 0x30, .set 0x40 0, .delay .wSetup, .set 0x03 0x0C, .delay .wHold, .delay .cap, .set 0 0x40,
      .delay .wRem] := by decide

/-- V11. -/
theorem test_wrNib_pins : (after 0x1001000A { up 0 with out := 0x2F, dir := 0x7F }).out = 0x1A ∧
    (after 0x1001000A { up 0 with out := 0x2F, dir := 0x7F }).dir = 0x7F := by decide

/-- V12. -/
theorem test_rdNib : (after 0x11000000 { up 0 with out := 0x1A, samples := [0x8] }).trace =
    [.set 0x20 0x10, .set 0x40 0, .delay .rSetup, .get 0x0F 0x08, .delay .rHold, .set 0 0x40, .delay .rRem] ∧
    answer 0x11000000 { up 0 with out := 0x1A, samples := [0x8] } = some (.ok, 8) := by decide

/-- V13. -/
theorem test_rdNib_pins : (after 0x11010000 { up 0 with out := 0x2A, dir := 0x70, samples := [0x4] }).out = 0x3A ∧
    (after 0x11010000 { up 0 with out := 0x2A, dir := 0x70, samples := [0x4] }).dir = 0x70 := by decide

/-- V14. -/
theorem test_wrByte : sent 0x12000028 { up 0 with out := 0x02 } = [0x2, 0x8] ∧
    (after 0x12000028 { up 0 with out := 0x02 }).out = 0x08 := by decide

/-- V15. -/
theorem test_rdByte : answer 0x13000000 { up 0 with samples := [0x8, 0x5] } = some (.ok, 0x85) := by decide

/-- V16. -/
theorem test_waitReady : answer 0x14000000 { up 0 with samples := [8, 0, 8, 0, 0, 5] } = some (.ok, 0) ∧
    (after 0x14000000 { up 0 with samples := [8, 0, 8, 0, 0, 5] }).trace.length = 44 := by decide

/-- V20. -/
theorem test_functionSet : sent 0x20000002 (up 0) = [0x2, 0x8] := by decide

/-- V22. -/
theorem test_displayControl : sent 0x21000006 (up 0) = [0x0, 0xE] ∧ (after 0x21000006 (up 0)).cursorVisible = true ∧
    (after 0x21000006 (up 0)).blinkOn = false := by decide

/-- V25. -/
theorem test_clear : sent 0x22000000 (up 0x45) = [0x0, 0x1] ∧ (after 0x22000000 (up 0x45)).cursor = 0x00 := by decide

/-- V26. -/
theorem test_home : sent 0x23000000 (up 0x5F) = [0x0, 0x2] ∧ (after 0x23000000 (up 0x5F)).cursor = 0x00 := by decide

/-- V28. -/
theorem test_entryMode : sent 0x24000001 (up 0) = [0x0, 0x5] := by decide

/-- V30. -/
theorem test_setAddress : sent 0x25000022 (up 0) = [0xA, 0x2] ∧ (after 0x25000022 (up 0)).cursor = 0x22 ∧
    (after 0x25000022 (up 0)).assertOow = false := by decide

/-- V44. -/
theorem test_advance_wrap : sent 0x30000000 (up 0x5F) = [0x8, 0x0] ∧ (after 0x30000000 (up 0x5F)).cursor = 0x00 := by
  decide

/-- V51. -/
theorem test_advance_out : (after 0x30000000 (up 0x3F)).cursor = 0x40 ∧
    (after 0x30000000 (up 0x3F)).trace = [.log (.assertOow 0x3F)] := by decide

/-- V47. -/
theorem test_retreat_wrap : sent 0x31000000 (up 0x10) = [0xC, 0xF] ∧ (after 0x31000000 (up 0x10)).cursor = 0x4F := by
  decide

/-- V52. -/
theorem test_retreat_out : (after 0x31000000 (up 0x20)).cursor = 0x1F ∧
    (after 0x31000000 (up 0x20)).assertOow = true := by decide

/-- The GET_XY values of part 2. -/
theorem test_getXy : answer 0x32000000 (up 0x1F) = some (.ok, 0x20F) ∧
    answer 0x32000000 (up 0x22) = some (.ok, 2) := by decide

/-- V66. -/
theorem test_gotoXy_abs : sent 0x3300FF01 (up 0x47) = [0x0, 0x2, 0x8, 0xF] ∧
    (after 0x3300FF01 (up 0x47)).cursor = 0x0F := by decide +kernel

/-- V73. -/
theorem test_gotoXy_rel : sent 0x3301FF00 (up 0x00) = [0xD, 0xF, 0xD, 0xF] ∧
    (after 0x3301FF00 (up 0x00)).cursor = 0x5F := by decide

/-- V81. -/
theorem test_putChar : sent 0x34000078 (up 0x0F) = [0x7, 0x8, 0xC, 0x0] ∧
    (after 0x34000078 (up 0x0F)).cursor = 0x40 := by decide

/-- V83. -/
theorem test_putString : sent 0x35000002 (withBuf (up 0) [0x48, 0x69]) = [0x4, 0x8, 0x6, 0x9] := by decide

/-- V86. -/
theorem test_putString_fault : answer 0x3500012C (up 0) = some (.errFault, 0) := by decide

/-- V98. -/
theorem test_termByte_tab : sent 0x40000009 (inSession 0x0D .normal) = [2, 0, 2, 0, 2, 0, 0xC, 0] := by
  decide +kernel

/-- V103. -/
theorem test_termByte_escape : sent 0x40000056 { inSession 0 .escapePending with
    cursorVisible := true, blinkOn := true } = [0x0, 0xD] := by decide

/-- V123. -/
theorem test_startup_unavailable : answer 0x50000000 { State.reset with reserveOk := false } =
    some (.errUnavail, 0) := by decide

/-- P1: the end state of start-up and the number of its events. -/
theorem test_startup : (after 0x50000000 { State.reset with samples := List.replicate 10 0 }).out = 0x0C ∧
    (after 0x50000000 { State.reset with samples := List.replicate 10 0 }).dir = 0x7F ∧
    (after 0x50000000 { State.reset with samples := List.replicate 10 0 }).trace.length = 188 := by decide +kernel

/-- R262, R199, R131 corner case 2: with the splash `A` the last transfer is `WB(1,0x41)`, so `OUT` ends with
register-select 1 and the nibble 0x1, after 188 + 30 events. -/
theorem test_startup_splash :
    let s := { State.reset with cfg := { Config.ex1 with splash := [0x41] }, samples := List.replicate 12 0 }
    (after 0x50000000 s).out = 0x11 ∧ (after 0x50000000 s).dir = 0x7F ∧
      (after 0x50000000 s).trace.length = 218 := by decide +kernel

/-- V122, V132. -/
theorem test_shutdown : answer 0x51000000 State.reset = some (.ok, 0) ∧
    answer 0x51000000 (inSession 0 .normal) = some (.errState, 0) := by decide

/-- V131, and V100's mode reset by OPEN (R264). -/
theorem test_open : answer 0x52000000 (inSession 0 .normal) = some (.errBusy, 0) ∧
    (after 0x52000000 { up 0 with parseMode := .escapePending }).parseMode = .normal := by decide

/-- V130. -/
theorem test_close : answer 0x53000000 (up 0) = some (.ok, 0) ∧
    (after 0x53000000 (inSession 0 .normal)).session = false := by decide

/-- V135. -/
theorem test_write : sent 0x54000005 (withBuf (inSession 0 .normal) [0x61, 0x62, 0x00, 0x63, 0x64]) = [6, 1, 6, 2] ∧
    answer 0x54000005 (withBuf (inSession 0 .normal) [0x61, 0x62, 0x00, 0x63, 0x64]) = some (.ok, 5) := by decide

/-- 10_state.md R41: bytes staged for an earlier operation are no operands of this one, which stages none. -/
theorem test_write_nothing_staged :
    let s := { withBuf (inSession 0 .normal) [0x61, 0x62] with
      requests := [{ word := 0x54000002, data := [], reserveOk := true, bufOk := true }] }
    ∃ t, step s = .next t ∧ t.trace = [] ∧ t.buf = [] :=
  ⟨_, if_pos test_admitted_ex1, by decide, by decide⟩

/-- V139. -/
theorem test_seek_rel : answer 0x5501FFFD (inSession 0x45 .normal) = some (.ok, 18) ∧
    (after 0x5501FFFD (inSession 0x45 .normal)).cursor = 0x42 := by decide

/-- V144, V150. -/
theorem test_seek_errors : answer 0x55000040 (inSession 0x45 .normal) = some (.errInval, 0) ∧
    answer 0x55000041 State.reset = some (.errState, 0) := by decide

/-! ### The hypotheses of the statements are met -/

/-- A request, and the state that is about to take it. -/
def request (w : BitVec 32) : Request := { word := w, data := [0x41, 0x42], reserveOk := true, bufOk := false }

def asked (w : BitVec 32) : State := { up 0x0E with requests := [request w] }

/-- The three positions of a row that matter, and a position between the windows. -/
theorem windowed_start : CursorWindowed (up 0x40) := ⟨1, by decide⟩
theorem windowed_last : CursorWindowed (up 0x0F) := ⟨0, by decide⟩
theorem windowed_end : CursorWindowed (up 0x5F) := ⟨3, by decide⟩
theorem outside_low : ¬ CursorWindowed (up 0x20) := by
  show ¬ ∃ l, l < 4 ∧ InWindow Config.ex1 l 0x20
  decide
theorem outside_high : ¬ CursorWindowed (up 0x7F) := by
  show ¬ ∃ l, l < 4 ∧ InWindow Config.ex1 l 0x7F
  decide

theorem witness_DecodeOfEncode : (Instr.gotoXy (-128) 127 .fromEnd).wellFormed = true ∧
    (Instr.functionSet 2 true).wellFormed = true ∧ (Instr.write 65535).wellFormed = true := by decide

theorem witness_EncodeOfDecode : decode 0x55018000 = .ok (.seek (-32768) .rel) ∧ decode 0x14000000 = .ok .waitReady := by
  decide

theorem witness_IllegalWords_request : (asked 0x22000001).cfg.Admitted ∧ (asked 0x22000001).seq = .idle ∧
    (asked 0x22000001).requests = [request 0x22000001] ∧ ∀ i, decode (request 0x22000001).word ≠ .ok i :=
  ⟨test_admitted_ex1, rfl, rfl, fun i h => by
    have : decode (request 0x22000001).word = .error .reservedBit := by decide
    rw [this] at h
    cases h⟩

theorem witness_IllegalWords_fromEnd : (inSession 0 .normal).life = .ready ∧ (inSession 0 .normal).session = true := by
  decide

theorem witness_StepRunsTheDecodedOperation : (asked 0x10000003).cfg.Admitted ∧ (asked 0x10000003).seq = .idle ∧
    (asked 0x10000003).requests = [request 0x10000003] ∧
    decode (request 0x10000003).word = .ok (.wrNib .cmd 0x3) ∧
    decode (BitVec.ofNat 32 0x55018000) = .ok (.seek (-32768) .rel) ∧
    Memory.wf (withBuf (up 0) [0x41, 0x00, 0x42]).buf ∧
    ∀ cell ∈ (withBuf (up 0) [0x41, 0x00, 0x42]).buf, cell.1 < (withBuf (up 0) [0x41, 0x00, 0x42]).cfg.bufSize :=
  ⟨test_admitted_ex1, rfl, rfl, by decide, by decide, by decide, by decide⟩

theorem witness_IdleStepChangesNothing : State.reset.cfg.Admitted ∧ State.reset.seq = .idle ∧
    State.reset.requests = [] := ⟨test_admitted_ex1, rfl, rfl⟩

theorem witness_EveryRequestIsAnswered : (asked 0).cfg.Admitted ∧ (asked 0).seq = .idle ∧
    (asked 0).requests = [request 0] := ⟨test_admitted_ex1, rfl, rfl⟩

theorem witness_OperandBytesAreTheStoredOnes : (asked 0).requests = [request 0] ∧
    2 ≤ (request 0).data.length ∧ 2 ≤ (up 0).cfg.bufSize ∧ (request 0).data.length ≤ 2 ∧ (up 0).cfg.bufSize ≤ 256 :=
  ⟨rfl, by decide⟩

/-- Another consumer is about to write every bit. -/
def shared (l : Life) : State := { up 0 with life := l, foreign := [some { out := 0xFFFFFFFF, dir := 0xFFFFFFFF }] }

theorem witness_PinSetBits : (up 0).foreign = [] ∧ (shared .ready).life = .ready ∧
    (shared .ready).cfg.mUsed.testBit 6 = true := by decide

theorem witness_PinGetBits : (up 0).foreign = [] ∧ (shared .ready).life = .ready ∧
    (shared .ready).cfg.mUsed.testBit 0 = true := by decide

theorem witness_OtherConsumersBits :
    (shared .down).foreign = some { out := 0xFFFFFFFF, dir := 0xFFFFFFFF } :: [] ∧ 31 < (shared .down).cfg.regW ∧
    (shared .ready).life = .ready ∧ (shared .ready).cfg.mUsed.testBit 6 = true ∧
    (shared .ready).cfg.mUsed.testBit 7 = false := by decide

theorem witness_WriteNibble : (up 0).life = .ready ∧ (up 0).cfg.PinsOk := by decide
theorem witness_ReadNibble : (up 0).life = .ready ∧ (up 0).cfg.PinsOk := by decide
theorem witness_WriteByte : (up 0).life = .ready ∧ (up 0).cfg.PinsOk := by decide
theorem witness_ReadByte : (up 0).life = .ready ∧ (up 0).cfg.PinsOk := by decide
theorem witness_WaitReady : (stuck 0).life = .ready ∧ (stuck 0).cfg.PinsOk := by decide

theorem stuck_busy : ∀ j, j < 12 → busyAnswer (stuck 0).cfg (statusAt (stuck 0) j) = true := by decide

theorem witness_WaitReadyExtremes : (up 0).life = .ready ∧ busyAnswer (up 0).cfg (statusAt (up 0) 0) = false ∧
    (stuck 0).life = .ready ∧
    ∀ j, j < (stuck 0).cfg.pollCount + 2 → busyAnswer (stuck 0).cfg (statusAt (stuck 0) j) = true :=
  ⟨rfl, by decide, rfl, stuck_busy⟩

theorem witness_EventsAndDurations : (up 0).life = .ready ∧ (stuck 0).life = .ready ∧
    WaitRun (up 0) 1 false ∧ WaitRun (stuck 0) 12 true :=
  ⟨rfl, rfl, ⟨by decide, by decide, fun j hj => by omega, by decide, by decide⟩,
    ⟨by decide, by decide, fun j hj => stuck_busy j (by omega), by decide, fun _ => by decide⟩⟩

theorem witness_TimingContract : (up 0).cfg.Admitted ∧ (up 0).life = .ready ∧
    State.reset.cfg.Admitted ∧ State.reset.life = .down ∧ State.reset.reserveOk = true ∧
    (∃ t, exec .waitReady (stuck 0) = .next t ∧ Event.log .timeout ∈ t.trace) :=
  ⟨test_admitted_ex1, rfl, test_admitted_ex1, rfl, rfl, _, rfl, by decide +kernel⟩
theorem witness_CommandsWaitThenWrite : (stuck 0x45).life = .ready := rfl
theorem witness_FunctionSetAndEntryMode : (up 0).life = .ready ∧ (up 0).cfg.PinsOk := by decide
theorem witness_DisplayControl : (stuck 0).life = .ready ∧ (stuck 0).cfg.PinsOk := by decide

theorem witness_ClearHomeSetAddress : (up 0x45).life = .ready ∧ (up 0x45).cfg.PinsOk ∧ (up 0x45).cfg.GeometryOk := by
  decide

/-- First and last position of the first and of the last row, and the positions around the windows. -/
theorem witness_LineAndColumn : Config.ex1.GeometryOk ∧
    (InWindow Config.ex1 0 0x00 ∧ InWindow Config.ex1 0 0x0F ∧ InWindow Config.ex1 3 0x50 ∧
      InWindow Config.ex1 3 0x5F) ∧
    CursorWindowed (up 0x5F) ∧ ¬ CursorWindowed (up 0x20) ∧ ¬ CursorWindowed (up 0x7F) :=
  ⟨by decide, by decide, windowed_end, outside_low, outside_high⟩

theorem witness_Advance : ((up 0x0E).life = .ready ∧ (up 0x0E).cfg.PinsOk ∧ (up 0x0E).cfg.GeometryOk) ∧
    (InWindow (up 0x0E).cfg 0 0x0E ∧ 0x0E + 1 ≠ (up 0x0E).cfg.baseOf 0 + (up 0x0E).cfg.lineLen) ∧
    (InWindow (up 0x0F).cfg 0 0x0F ∧ 0x0F + 1 = (up 0x0F).cfg.baseOf 0 + (up 0x0F).cfg.lineLen) ∧
    (InWindow (up 0x5F).cfg 3 0x5F ∧ 0x5F + 1 = (up 0x5F).cfg.baseOf 3 + (up 0x5F).cfg.lineLen) ∧
    ¬ CursorWindowed (up 0x20) ∧ ¬ CursorWindowed (up 0x7F) :=
  ⟨by decide, by decide, by decide, by decide, outside_low, outside_high⟩

theorem witness_Retreat : ((up 0x01).life = .ready ∧ (up 0x01).cfg.PinsOk ∧ (up 0x01).cfg.GeometryOk) ∧
    (InWindow (up 0x01).cfg 0 0x01 ∧ 0x01 ≠ (up 0x01).cfg.baseOf 0) ∧
    (InWindow (up 0x00).cfg 0 0x00 ∧ 0x00 = (up 0x00).cfg.baseOf 0) ∧
    (InWindow (up 0x40).cfg 1 0x40 ∧ 0x40 = (up 0x40).cfg.baseOf 1) ∧
    ¬ CursorWindowed (up 0x20) ∧ ¬ CursorWindowed (up 0x7F) :=
  ⟨by decide, by decide, by decide, by decide, outside_low, outside_high⟩

theorem witness_StepsClosedForm : (up 0x5F).life = .ready ∧ (up 0x5F).cfg.GeometryOk ∧ CursorWindowed (up 0x5F) :=
  ⟨rfl, by decide, windowed_end⟩

theorem witness_GetXy : (up 0x5F).life = .ready ∧ (up 0x5F).cfg.GeometryOk ∧ InWindow (up 0x5F).cfg 3 0x5F ∧
    ¬ CursorWindowed (up 0x20) := ⟨rfl, by decide, by decide, outside_low⟩

/-- One position before the first cell and one after the last, and a seek over more than the whole display. -/
theorem witness_InvalidArgument : (inSession 0 .normal).life = .ready ∧ (inSession 0 .normal).session = true ∧
    (0 : Int) * Config.ex1.lineLen + -1 < 0 ∧ (Config.ex1.total : Int) ≤ 4 * Config.ex1.lineLen + 0 ∧
    (Config.ex1.total : Int) ≤ 64 ∧ (Config.ex1.total : Int) < 65 ∧ -65 < -(Config.ex1.total : Int) := by decide

theorem witness_GotoXyIsSteps : (up 0x22).life = .ready ∧ (0 : Int) * (up 0x22).cfg.lineLen + 0 = 0 ∧
    0 ≤ (3 : Int) * (up 0x22).cfg.lineLen + 15 ∧ (3 : Int) * (up 0x22).cfg.lineLen + 15 < (up 0x22).cfg.total ∧
    (3 : Int) * (up 0x22).cfg.lineLen + 15 ≠ 0 := by decide

theorem witness_GotoXyLands : (up 0x0F).life = .ready ∧ (up 0x0F).cfg.GeometryOk ∧
    0 ≤ (1 : Int) * (up 0x0F).cfg.lineLen + -1 ∧ (3 : Int) * (up 0x0F).cfg.lineLen + 15 < (up 0x0F).cfg.total ∧
    CursorWindowed (up 0x0F) := ⟨rfl, by decide, by decide, by decide, windowed_last⟩

theorem witness_PutChar : (up 0x40).life = .ready ∧ (up 0x40).cfg.GeometryOk ∧ CursorWindowed (up 0x40) ∧
    (up 0x40).cfg.PinsOk ∧ colOf (up 0x40).cfg (up 0x40).cursor.toNat + 1 ≠ (up 0x40).cfg.lineLen :=
  ⟨rfl, by decide, windowed_start, by decide, by decide⟩

theorem witness_PutStringIsPutChars : (up 0).life = .ready ∧ (up 0).cfg.bufSize < 257 ∧ 256 ≤ (up 0).cfg.bufSize := by
  decide

theorem witness_PutStringRoundTrip : (up 0).life = .ready ∧ 64 ≤ (up 0).cfg.bufSize ∧ 64 ≤ 4 * (up 0).cfg.lineLen := by
  decide

theorem witness_NormalBytes : (inSession 0x45 .normal).life = .ready ∧ (inSession 0x45 .normal).session = true ∧
    (inSession 0x45 .normal).parseMode = .normal := by decide

theorem witness_TabWritesSpaces : (inSession 0x0F .normal).life = .ready ∧ (inSession 0x0F .normal).session = true ∧
    (inSession 0x0F .normal).parseMode = .normal ∧ (inSession 0x0F .normal).cfg.GeometryOk := by decide

theorem witness_EscapeCodes : (inSession 0 .escapePending).life = .ready ∧
    (inSession 0 .escapePending).session = true ∧ (inSession 0 .escapePending).parseMode = .escapePending ∧
    (inSession 0 .escapePending).cfg.GeometryOk := by decide

theorem witness_ParserModes : (inSession 0 .normal).life = .ready ∧ (inSession 0 .normal).session = true := by decide

theorem witness_TerminalCursor : (inSession 0x5F .normal).life = .ready ∧ (inSession 0x5F .normal).session = true ∧
    (inSession 0x5F .normal).cfg.GeometryOk ∧ CursorWindowed (inSession 0x5F .normal) ∧
    (inSession 0x5F .normal).parseMode = .normal ∧ (inSession 0x5F .escapePending).parseMode = .escapePending :=
  ⟨rfl, rfl, by decide, windowed_end, rfl, rfl⟩

/-- `State.reset` with a splash of `n` characters `A`. -/
def resetSplash (n : Nat) : State :=
  { State.reset with cfg := { Config.ex1 with splash := List.replicate n 0x41 } }

/-- No splash, one that ends inside a row, and one that ends at the end of a row. -/
theorem witness_StartupEstablishes : (∀ n ∈ [0, 1, 16], (resetSplash n).life = .down ∧
      (resetSplash n).reserveOk = true ∧ (resetSplash n).cfg.PinsOk ∧ (resetSplash n).cfg.GeometryOk ∧
      (resetSplash n).cfg.splash.length = n) ∧
    1 % Config.ex1.lineLen ≠ 0 ∧ 16 % Config.ex1.lineLen = 0 := by decide

theorem witness_StartupSequence : State.reset.life = .down ∧ State.reset.reserveOk = true ∧ State.reset.cfg.PinsOk := by
  decide

theorem witness_StartupTrace :
    let s := { State.reset with samples := List.replicate 10 0 }
    s.life = .down ∧ s.reserveOk = true ∧ s.cfg.splash = [] ∧ s.cfg.fsLines = 2 ∧ ReadyFor s 5 :=
  ⟨rfl, rfl, rfl, rfl, by show ∀ j, j < 5 → _; decide⟩

theorem witness_ShutdownOpenClose : State.reset.life = .down ∧ (up 0).life = .ready ∧ (up 0).session = false ∧
    (inSession 0 .normal).life = .ready ∧ (inSession 0 .normal).session = true := by decide

theorem witness_WriteIsTermBytes : (up 0).life = .ready ∧ (up 0).session = false ∧ (inSession 0 .normal).life = .ready ∧ (inSession 0 .normal).session = true ∧
    (inSession 0 .normal).cfg.bufSize < 257 ∧ 256 ≤ (inSession 0 .normal).cfg.bufSize ∧
    (inSession 0 .normal).bufOk = true := by decide

theorem witness_Seek : (up 0).life = .ready ∧ (up 0).session = false ∧ (inSession 0x5F .normal).life = .ready ∧ (inSession 0x5F .normal).session = true ∧
    (63 : Int) < (inSession 0x5F .normal).cfg.total ∧ -((inSession 0x5F .normal).cfg.total : Int) ≤ -64 ∧
    (64 : Int) ≤ (inSession 0x5F .normal).cfg.total ∧ (inSession 0x5F .normal).cfg.GeometryOk ∧
    CursorWindowed (inSession 0x5F .normal) :=
  ⟨rfl, rfl, rfl, rfl, by decide, by decide, by decide, by decide, windowed_end⟩

theorem witness_DownAdmitsOnlyStartupAndShutdown : State.reset.life = .down ∧
    Instr.getXy ≠ .startup ∧ Instr.getXy ≠ .shutdown := by decide

theorem witness_SessionAdmission : (up 0).life = .ready ∧ (up 0).session = false ∧
    (inSession 0 .normal).session = true ∧ ∃ t, exec .getXy (up 0x20) = .next t := ⟨rfl, rfl, rfl, _, rfl⟩

theorem witness_OrderOfChecks : (∀ i, decode (request 0x22000001).word ≠ .ok i) ∧
    decode (request 0x22000000).word = .ok .clear := ⟨witness_IllegalWords_request.2.2.2, by decide⟩

theorem witness_WhoWritesWhat : ∃ t, exec .advance (up 0x20) = .next t ∧ t.cursor ≠ (up 0x20).cursor :=
  ⟨_, rfl, by decide⟩

theorem witness_StickyFlags : ∃ t, exec .getXy (up 0x20) = .next t ∧ t.assertOow = true := ⟨_, rfl, by decide⟩

theorem witness_OnlySevenBits : (up 0).foreign = [] ∧ (∃ t, exec (.wrNib .data 0xF) (up 0) = .next t) ∧
    (up 0).cfg.mUsed.testBit 7 = false := ⟨rfl, ⟨_, rfl⟩, by decide⟩

theorem witness_CursorStaysWindowed : (up 0x5F).cfg.GeometryOk ∧ CursorWindowed (up 0x5F) ∧
    Windowed (up 0x5F).cfg (0x1F : Addr).toNat ∧ ∃ t, exec (.setAddress 0x1F) (up 0x5F) = .next t :=
  ⟨by decide, windowed_end, ⟨2, by decide⟩, _, rfl⟩

theorem witness_NoRuleReadsTheLog : ∃ t, exec .getXy (up 0x20) = .next t := ⟨_, rfl⟩

/-- Inside a row and at its end, and a start-up with an LCD that is always ready. -/
theorem witness_CharacterAndStartupCosts : ((up 0x40).life = .ready ∧ (up 0x40).cfg.GeometryOk ∧
      CursorWindowed (up 0x40) ∧ colOf (up 0x40).cfg (up 0x40).cursor.toNat + 1 ≠ (up 0x40).cfg.lineLen) ∧
    (CursorWindowed (up 0x0F) ∧ colOf (up 0x0F).cfg (up 0x0F).cursor.toNat + 1 = (up 0x0F).cfg.lineLen) ∧
    let s := { State.reset with samples := List.replicate 10 0 }
    s.life = .down ∧ s.reserveOk = true ∧ s.cfg.splash = [] ∧ ReadyFor s 5 :=
  ⟨⟨rfl, by decide, windowed_start, by decide⟩, ⟨windowed_last, by decide⟩, rfl, rfl, rfl,
    by show ∀ j, j < 5 → _; decide⟩

/-- A state that meets the invariant, with a request to carry out. -/
theorem witness_StepKeepsTheInvariant : (asked 0x10000003).Inv ∧ ∃ t, step (asked 0x10000003) = .next t := by
  refine ⟨⟨by decide, by decide, by decide, by decide, by decide, rfl, by decide, by decide, fun r hr => by cases hr⟩, ?_⟩
  exact ⟨_, if_pos test_admitted_ex1⟩

end Sys2Proof.Tests
end

/-! ### What stops a step (00_scope.md R11, 45_host.md R268, 60_exceptions.md R302) -/

namespace Sys2Proof.Machine

/-- With the configuration admitted and the sequencer idle nothing stops the block: with no request it stays, and every
command word, illegal ones included, is answered. -/
theorem step_next_of_idle {s : State} (h : s.cfg.Admitted) (hs : s.seq = .idle) : ∃ t, step s = .next t := by
  cases hr : s.requests with
  | nil => exact ⟨s, step_idle h hs hr⟩
  | cons r rest =>
    obtain ⟨t, code, value, ht, -⟩ := runWord_answers r.word (takeRequest r rest s)
    exact ⟨respond code value t, by rw [step_request h hs hr, ht]⟩

/-- Settles O7: there is no fault to answer, and the three cases not admitted, running and idle exclude each other, each
with an outcome of its own. -/
theorem whatStopsAStep : Obligations.WhatStopsAStep := by
  intro s
  refine ⟨(nomatch ·), ?_⟩
  by_cases h : s.cfg.Admitted
  · cases hs : s.seq with
    | running =>
      rw [step_running h hs]
      exact ⟨iff_of_false nofun (not_not_intro h), iff_of_true rfl ⟨h, rfl⟩,
        iff_of_false (fun ⟨_, ht⟩ => nomatch ht) (fun h' => nomatch h'.2)⟩
    | idle =>
      obtain ⟨t, ht⟩ := step_next_of_idle h hs
      rw [ht]
      exact ⟨iff_of_false nofun (not_not_intro h), iff_of_false nofun (fun h' => nomatch h'.2),
        iff_of_true ⟨t, rfl⟩ ⟨h, rfl⟩⟩
  · rw [step_unadmitted h]
    exact ⟨iff_of_true rfl h, iff_of_false nofun (fun h' => h h'.1),
      iff_of_false (fun ⟨_, ht⟩ => nomatch ht) (fun h' => h h'.1)⟩

end Sys2Proof.Machine

/-! ### What was logged is read by no rule (10_state.md R39, 60_exceptions.md R312) -/

namespace Sys2Proof.Machine

variable {p p' : List Event} {s s' : State}

/-- `s` with another past: the trace and the sticky flags are these, all else is as it was. -/
def withPast (past : List Event) (timeout oow : Bool) (s : State) : State :=
  { s with trace := past, timeoutSeen := timeout, assertOow := oow }

/-- The traces of `s` and `s'` have grown by the same events from `p` and `p'`, and the states differ only in them and
in the sticky flags. -/
def Alike (p p' : List Event) (s s' : State) : Prop :=
  ∃ es a b, s.trace = p ++ es ∧ s' = withPast (p' ++ es) a b s

/-- Two pasts of one state, nothing having happened yet. -/
theorem alike_withPast (past : List Event) (a b : Bool) (s : State) : Alike s.trace past s (withPast past a b s) :=
  ⟨[], a, b, by simp, by simp⟩

/-- What does not look at the past reads the same in both states. -/
theorem Alike.read {α : Type} (h : Alike p p' s s') (f : State → α)
    (hf : ∀ q a b s, f (withPast q a b s) = f s) : f s' = f s := by
  obtain ⟨es, a, b, -, rfl⟩ := h
  exact hf _ a b s

theorem Alike.cfg (h : Alike p p' s s') : s'.cfg = s.cfg := h.read State.cfg fun _ _ _ _ => rfl
theorem Alike.cursor (h : Alike p p' s s') : s'.cursor = s.cursor :=
  h.read State.cursor fun _ _ _ _ => rfl
theorem Alike.life (h : Alike p p' s s') : s'.life = s.life := h.read State.life fun _ _ _ _ => rfl
theorem Alike.session (h : Alike p p' s s') : s'.session = s.session :=
  h.read State.session fun _ _ _ _ => rfl
theorem Alike.displayOn (h : Alike p p' s s') : s'.displayOn = s.displayOn :=
  h.read State.displayOn fun _ _ _ _ => rfl
theorem Alike.cursorVisible (h : Alike p p' s s') : s'.cursorVisible = s.cursorVisible :=
  h.read State.cursorVisible fun _ _ _ _ => rfl
theorem Alike.blinkOn (h : Alike p p' s s') : s'.blinkOn = s.blinkOn :=
  h.read State.blinkOn fun _ _ _ _ => rfl
theorem Alike.parseMode (h : Alike p p' s s') : s'.parseMode = s.parseMode :=
  h.read State.parseMode fun _ _ _ _ => rfl
theorem Alike.buf (h : Alike p p' s s') : s'.buf = s.buf := h.read State.buf fun _ _ _ _ => rfl
theorem Alike.bufOk (h : Alike p p' s s') : s'.bufOk = s.bufOk :=
  h.read State.bufOk fun _ _ _ _ => rfl
theorem Alike.reserveOk (h : Alike p p' s s') : s'.reserveOk = s.reserveOk :=
  h.read State.reserveOk fun _ _ _ _ => rfl

/-- An update that logs nothing and does not look at the past. -/
theorem Alike.update (h : Alike p p' s s') (f : State → State)
    (hf : ∀ q a b s, (f s).trace = s.trace ∧ ∃ a' b', f (withPast q a b s) = withPast q a' b' (f s)) :
    Alike p p' (f s) (f s') := by
  obtain ⟨es, a, b, ht, rfl⟩ := h
  obtain ⟨ht', a', b', he⟩ := hf (p' ++ es) a b s
  exact ⟨es, a', b', ht'.trans ht, he⟩

theorem emit_alike (e : Event) (h : Alike p p' s s') : Alike p p' (emit e s) (emit e s') := by
  obtain ⟨es, a, b, ht, rfl⟩ := h
  exact ⟨es ++ [e], a, b, by simp [ht], by simp [emit, withPast]⟩

/-! #### PinBank and BusTransport -/

theorem foreignMove_alike (h : Alike p p' s s') : Alike p p' (foreignMove s) (foreignMove s') := by
  refine h.update foreignMove fun q a b s => ⟨by simp [foreignMove_frame], a, b, ?_⟩
  show foreignMove { s with trace := q, timeoutSeen := a, assertOow := b } = _
  unfold foreignMove withPast
  dsimp only
  split <;> rfl

theorem delay_alike (d : DelayName) (h : Alike p p' s s') : Alike p p' (delay d s) (delay d s') := emit_alike _ h

theorem pinSet_alike (a b : Word) (h : Alike p p' s s') : Alike p p' (pinSet a b s) (pinSet a b s') :=
  emit_alike _ ((foreignMove_alike h).update (pinSetSection a b) fun _ _ _ _ => ⟨rfl, _, _, rfl⟩)

theorem pinGet_alike (m : Word) (h : Alike p p' s s') :
    (pinGet m s').1 = (pinGet m s).1 ∧ Alike p p' (pinGet m s).2 (pinGet m s').2 := by
  have hv : (pinGet m s').1 = (pinGet m s).1 := by
    rw [pinGet_value, pinGet_value, h.read nextSample fun _ _ _ _ => rfl]
  refine ⟨hv, ?_⟩
  show Alike p p' (emit (.get m (pinGet m s).1) _) (emit (.get m (pinGet m s').1) _)
  rw [hv]
  exact emit_alike _ ((foreignMove_alike h).update (pinGetSection m) fun _ _ _ _ => ⟨rfl, _, _, rfl⟩)

theorem writeNibble_alike (rs : RegSel) (n : Nibble) (h : Alike p p' s s') :
    Alike p p' (writeNibble rs n s) (writeNibble rs n s') := by
  unfold writeNibble
  rw [h.cfg]
  exact delay_alike _ (pinSet_alike _ _ (delay_alike _ (delay_alike _ (pinSet_alike _ _ (delay_alike _
    (pinSet_alike _ _ (pinSet_alike _ _ h)))))))

theorem readNibble_alike (rs : RegSel) (h : Alike p p' s s') :
    (readNibble rs s').1 = (readNibble rs s).1 ∧ Alike p p' (readNibble rs s).2 (readNibble rs s').2 := by
  unfold readNibble
  rw [h.cfg]
  obtain ⟨hv, hg⟩ := pinGet_alike s.cfg.mData (delay_alike .rSetup (pinSet_alike s.cfg.mE 0
    (pinSet_alike (readSelect s.cfg rs).1 (readSelect s.cfg rs).2 h)))
  exact ⟨congrArg (sampledNibble s.cfg) hv, delay_alike _ (pinSet_alike _ _ (delay_alike _ hg))⟩

theorem writeByte_alike (rs : RegSel) (b : Byte) (h : Alike p p' s s') :
    Alike p p' (writeByte rs b s) (writeByte rs b s') := writeNibble_alike _ _ (writeNibble_alike _ _ h)

theorem readByte_alike (rs : RegSel) (h : Alike p p' s s') :
    (readByte rs s').1 = (readByte rs s).1 ∧ Alike p p' (readByte rs s).2 (readByte rs s').2 := by
  obtain ⟨hv, hs⟩ := readNibble_alike rs h
  obtain ⟨hv', hs'⟩ := readNibble_alike rs hs
  exact ⟨congrArg₂ (· ++ ·) hv hv', hs'⟩

theorem pollLoop_alike (n : Nat) (h : Alike p p' s s') :
    (pollLoop n s').1 = (pollLoop n s).1 ∧ Alike p p' (pollLoop n s).2 (pollLoop n s').2 := by
  induction n generalizing s s' with
  | zero =>
    obtain ⟨hv, hs⟩ := readByte_alike .cmd h
    exact ⟨by simp only [pollLoop, hv], hs⟩
  | succ n ih =>
    obtain ⟨hv, hs⟩ := readByte_alike .cmd h
    simp only [pollLoop, hv]
    split
    · exact ih (delay_alike _ hs)
    · exact ⟨rfl, hs⟩

theorem markTimeout_alike (h : Alike p p' s s') : Alike p p' (markTimeout s) (markTimeout s') :=
  emit_alike _ (h.update (fun s => { s with timeoutSeen := true }) fun _ _ _ _ => ⟨rfl, _, _, rfl⟩)

theorem recheck_alike (h : Alike p p' s s') :
    (recheck s').1 = (recheck s).1 ∧ Alike p p' (recheck s).2 (recheck s').2 := by
  obtain ⟨hv, hs⟩ := readByte_alike .cmd h
  simp only [recheck, hv]
  split
  · exact ⟨rfl, markTimeout_alike hs⟩
  · exact ⟨rfl, hs⟩

theorem waitReady_alike (h : Alike p p' s s') :
    (waitReady s').1 = (waitReady s).1 ∧ Alike p p' (waitReady s).2 (waitReady s').2 := by
  obtain ⟨hv, hs⟩ := pollLoop_alike s.cfg.pollCount h
  simp only [waitReady, h.cfg, hv]
  split
  · exact ⟨rfl, hs⟩
  · exact recheck_alike hs

/-! #### Display commands and positions -/

theorem command_alike (b : Byte) (h : Alike p p' s s') : Alike p p' (command b s) (command b s') :=
  writeByte_alike _ _ (waitReady_alike h).2

theorem setCursor_alike (a : Addr) (h : Alike p p' s s') : Alike p p' (setCursor a s) (setCursor a s') :=
  h.update (setCursor a) fun _ _ _ _ => ⟨rfl, _, _, rfl⟩

theorem displayControl_alike (d c b : Bool) (h : Alike p p' s s') :
    Alike p p' (displayControl d c b s) (displayControl d c b s') :=
  (command_alike _ h).update (setDisplayFlags d c b) fun _ _ _ _ => ⟨rfl, _, _, rfl⟩

theorem clear_alike (h : Alike p p' s s') : Alike p p' (clear s) (clear s') := setCursor_alike _ (command_alike _ h)

theorem home_alike (h : Alike p p' s s') : Alike p p' (home s) (home s') := by
  simp only [home, h.cfg]
  exact setCursor_alike _ (command_alike _ h)

theorem setAddress_alike (a : Addr) (h : Alike p p' s s') : Alike p p' (setAddress a s) (setAddress a s') :=
  setCursor_alike _ (command_alike _ h)

theorem handshake_alike (h : Alike p p' s s') : Alike p p' (handshake s) (handshake s') := by
  unfold handshake
  rw [h.cfg]
  have nibble (d : DelayName) (n : Nibble) {t t' : State} (ht : Alike p p' t t') :
      Alike p p' (delay d (writeNibble .cmd n t)) (delay d (writeNibble .cmd n t')) :=
    delay_alike d (writeNibble_alike _ n ht)
  exact nibble _ _ (nibble _ _ (nibble _ _ (nibble _ _ (delay_alike _ (pinSet_alike _ _ h)))))

theorem powerOnSequence_alike (h : Alike p p' s s') : Alike p p' (powerOnSequence s) (powerOnSequence s') := by
  unfold powerOnSequence functionSet
  rw [h.cfg]
  exact displayControl_alike _ _ _ (command_alike _ (clear_alike (displayControl_alike _ _ _
    (command_alike _ (handshake_alike h)))))

theorem noteLine_alike (h : Alike p p' s s') : Alike p p' (noteLine s) (noteLine s') := by
  simp only [noteLine, h.cfg, h.cursor]
  split
  · exact h
  · exact emit_alike _ (h.update (fun s => { s with assertOow := true }) fun _ _ _ _ => ⟨rfl, _, _, rfl⟩)

theorem advance_alike (h : Alike p p' s s') : Alike p p' (advance s) (advance s') := by
  simp only [advance, h.cfg, h.cursor]
  split
  · exact setAddress_alike _ (noteLine_alike h)
  · exact setCursor_alike _ (noteLine_alike h)

theorem retreat_alike (h : Alike p p' s s') : Alike p p' (retreat s) (retreat s') := by
  simp only [retreat, h.cfg, h.cursor]
  split
  · exact setAddress_alike _ (noteLine_alike h)
  · exact setCursor_alike _ (noteLine_alike h)

theorem repeatOp_alike {op : State → State} (ho : ∀ {s s'}, Alike p p' s s' → Alike p p' (op s) (op s')) (n : Nat)
    (h : Alike p p' s s') : Alike p p' (repeatOp op n s) (repeatOp op n s') := by
  induction n generalizing s s' with
  | zero => exact h
  | succ n ih => exact ih (ho h)

theorem stepBy_alike (d : Int) (h : Alike p p' s s') : Alike p p' (stepBy d s) (stepBy d s') := by
  cases d with
  | ofNat n => exact repeatOp_alike advance_alike n h
  | negSucc n => exact repeatOp_alike retreat_alike (n + 1) h

theorem moveBy_alike (d : Int) (h : Alike p p' s s') : Alike p p' (moveBy d s) (moveBy d s') := by
  have hs := stepBy_alike d h
  simp only [moveBy, hs.cursor]
  split
  · exact hs
  · exact setAddress_alike _ hs

theorem getXy_alike (h : Alike p p' s s') :
    (getXy s').1 = (getXy s).1 ∧ Alike p p' (getXy s).2 (getXy s').2 :=
  ⟨h.read (fun s => (getXy s).1) fun _ _ _ _ => rfl, noteLine_alike h⟩

theorem gotoXy_alike (x y : Int) (m : Mode) (h : Alike p p' s s') :
    (gotoXy x y m s').1 = (gotoXy x y m s).1 ∧ Alike p p' (gotoXy x y m s).2 (gotoXy x y m s').2 := by
  simp only [gotoXy, h.cfg]
  cases m with
  | abs =>
    dsimp only
    split
    · exact ⟨rfl, moveBy_alike _ (home_alike h)⟩
    · exact ⟨rfl, h⟩
  | rel => exact ⟨rfl, moveBy_alike _ h⟩
  | fromEnd => exact ⟨rfl, h⟩

/-! #### Characters and the terminal layer -/

theorem putChar_alike (b : Byte) (h : Alike p p' s s') : Alike p p' (putChar b s) (putChar b s') :=
  advance_alike (writeByte_alike _ _ (waitReady_alike h).2)

theorem putString_alike (bs : List Byte) (h : Alike p p' s s') : Alike p p' (putString bs s) (putString bs s') := by
  simp only [putString, h.cfg]
  generalize bs.take s.cfg.putStringMax = cs
  induction cs generalizing s s' with
  | nil => exact h
  | cons c cs ih => exact ih (putChar_alike c h)

theorem moveCursor_alike (x y : Int) (m : Mode) (h : Alike p p' s s') :
    Alike p p' (moveCursor x y m s) (moveCursor x y m s') := (gotoXy_alike x y m h).2

theorem carriageReturn_alike (h : Alike p p' s s') : Alike p p' (carriageReturn s) (carriageReturn s') := by
  obtain ⟨hv, hs⟩ := getXy_alike h
  simp only [carriageReturn, hv]
  exact moveCursor_alike _ _ _ hs

theorem tabLoop_alike (n : Nat) (h : Alike p p' s s') : Alike p p' (tabLoop n s) (tabLoop n s') := by
  induction n generalizing s s' with
  | zero => exact h
  | succ n ih =>
    obtain ⟨hv, hs⟩ := getXy_alike (putChar_alike 0x20 h)
    simp only [tabLoop, hv]
    split
    · exact hs
    · exact ih hs

theorem setParseMode_alike (m : ParseMode) (h : Alike p p' s s') :
    Alike p p' (setParseMode m s) (setParseMode m s') :=
  h.update (setParseMode m) fun _ _ _ _ => ⟨rfl, _, _, rfl⟩

theorem escapeCode_alike (b : Byte) (h : Alike p p' s s') : Alike p p' (escapeCode b s) (escapeCode b s') := by
  simp only [escapeCode, h.displayOn, h.cursorVisible, h.blinkOn]
  iterate 4
    split
    · exact displayControl_alike _ _ _ h
  split
  · exact moveCursor_alike _ _ _ h
  split
  · exact moveCursor_alike _ _ _ (clear_alike h)
  iterate 4
    split
    · exact moveCursor_alike _ _ _ h
  exact emit_alike _ h

theorem normalByte_alike (b : Byte) (h : Alike p p' s s') : Alike p p' (normalByte b s) (normalByte b s') := by
  unfold normalByte
  split
  · exact setParseMode_alike _ h
  split
  · exact moveCursor_alike _ _ _ h
  split
  · exact carriageReturn_alike h
  split
  · exact moveCursor_alike _ _ _ h
  split
  · exact tabLoop_alike 4 h
  · exact putChar_alike b h

theorem termByte_alike (b : Byte) (h : Alike p p' s s') : Alike p p' (termByte b s) (termByte b s') := by
  simp only [termByte, h.parseMode]
  split
  · exact escapeCode_alike b (setParseMode_alike _ h)
  · exact normalByte_alike b h

theorem feedBytes_alike (bs : List Byte) (h : Alike p p' s s') : Alike p p' (feedBytes bs s) (feedBytes bs s') := by
  induction bs generalizing s s' with
  | nil => exact h
  | cons b bs ih =>
    simp only [feedBytes]
    split
    · exact h
    · exact ih (termByte_alike b h)

theorem acquire_alike (h : Alike p p' s s') : Alike p p' (acquire s) (acquire s') :=
  (foreignMove_alike h).update (fun s => clearMirror (setLife .ready s)) fun _ _ _ _ => ⟨rfl, _, _, rfl⟩

theorem startUp_alike (h : Alike p p' s s') : Alike p p' (startUp s) (startUp s') := by
  simp only [startUp, h.cfg]
  exact putString_alike _ (powerOnSequence_alike (acquire_alike h))

/-! #### Every operation -/

/-- Two results are next states that are alike. -/
def AlikeResults (p p' : List Event) (r r' : Result) : Prop :=
  ∃ t t', r = .next t ∧ r' = .next t' ∧ Alike p p' t t'

theorem AlikeResults.next {t t' : State} (h : Alike p p' t t') : AlikeResults p p' (.next t) (.next t') :=
  ⟨t, t', rfl, rfl, h⟩

theorem respond_alike {c c' : Code} {v v' : BitVec 32} (hc : c' = c) (hv : v' = v) (h : Alike p p' s s') :
    Alike p p' (respond c v s) (respond c' v' s') := by
  rw [hc, hv]
  exact h.update (respond c v) fun _ _ _ _ => ⟨rfl, _, _, rfl⟩

theorem respondOk_alike (h : Alike p p' s s') : Alike p p' (respondOk s) (respondOk s') := respond_alike rfl rfl h

theorem fail_alike (c : Code) (h : Alike p p' s s') : Alike p p' (fail c s) (fail c s') := respond_alike rfl rfl h

theorem whenReady_alike {op op' : State → State} (h : Alike p p' s s') (ho : Alike p p' (op s) (op' s')) :
    Alike p p' (whenReady s op) (whenReady s' op') := by
  simp only [whenReady, h.life]
  split
  · exact fail_alike _ h
  · exact ho

theorem whenSession_alike {op op' : State → State} (h : Alike p p' s s') (ho : Alike p p' (op s) (op' s')) :
    Alike p p' (whenSession s op) (whenSession s' op') := by
  refine whenReady_alike h ?_
  simp only [h.session]
  split
  · exact ho
  · exact fail_alike _ h

theorem respondIndex_alike (h : Alike p p' s s') : Alike p p' (respondIndex s) (respondIndex s') :=
  respond_alike rfl (by rw [h.cfg, (getXy_alike h).1]) (noteLine_alike h)

theorem execSeek_alike (o : Int) (m : Mode) (h : Alike p p' s s') :
    AlikeResults p p' (execSeek o m s) (execSeek o m s') := by
  refine .next (whenSession_alike h ?_)
  simp only [h.cfg]
  cases m with
  | abs =>
    dsimp only
    split
    · exact respondIndex_alike (gotoXy_alike o 0 .abs h).2
    · exact fail_alike _ h
  | rel =>
    dsimp only
    split
    · exact respondIndex_alike (gotoXy_alike o 0 .rel h).2
    · exact fail_alike _ h
  | fromEnd => exact fail_alike _ h

theorem execPutString_alike (len : Nat) (h : Alike p p' s s') :
    AlikeResults p p' (execPutString len s) (execPutString len s') := by
  refine .next (whenReady_alike h ?_)
  simp only [h.cfg, h.buf]
  split
  · exact respondOk_alike (putString_alike _ h)
  · exact fail_alike _ h

theorem execWrite_alike (len : Nat) (h : Alike p p' s s') :
    AlikeResults p p' (execWrite len s) (execWrite len s') := by
  refine .next (whenSession_alike h ?_)
  simp only [h.cfg, h.buf, h.bufOk]
  split
  · exact respond_alike rfl rfl (feedBytes_alike _ h)
  · exact fail_alike _ h

theorem execStartup_alike (h : Alike p p' s s') : AlikeResults p p' (execStartup s) (execStartup s') := by
  refine .next ?_
  simp only [h.life, h.reserveOk]
  split
  · exact fail_alike _ h
  · split
    · exact respondOk_alike (startUp_alike h)
    · exact fail_alike _ h

theorem execShutdown_alike (h : Alike p p' s s') : AlikeResults p p' (execShutdown s) (execShutdown s') := by
  refine .next ?_
  simp only [h.life, h.session]
  split
  · exact respondOk_alike h
  · split
    · exact fail_alike _ h
    · exact respondOk_alike (h.update (setLife .down) fun _ _ _ _ => ⟨rfl, _, _, rfl⟩)

theorem setSession_alike (b : Bool) (h : Alike p p' s s') : Alike p p' (setSession b s) (setSession b s') :=
  h.update (setSession b) fun _ _ _ _ => ⟨rfl, _, _, rfl⟩

theorem execOpen_alike (h : Alike p p' s s') : AlikeResults p p' (execOpen s) (execOpen s') := by
  refine .next (whenReady_alike h ?_)
  simp only [h.session]
  split
  · exact fail_alike _ h
  · exact respondOk_alike (setParseMode_alike _ (setSession_alike true h))

/-- Every operation answers alike states alike. -/
theorem exec_alike (i : Instr) (h : Alike p p' s s') : AlikeResults p p' (exec i s) (exec i s') := by
  cases i with
  | wrNib rs n => exact .next (whenReady_alike h (respondOk_alike (writeNibble_alike rs n h)))
  | rdNib rs =>
    obtain ⟨hv, hs⟩ := readNibble_alike rs h
    exact .next (whenReady_alike h (respond_alike rfl (congrArg nibbleValue hv) hs))
  | wrByte rs b => exact .next (whenReady_alike h (respondOk_alike (writeByte_alike rs b h)))
  | rdByte rs =>
    obtain ⟨hv, hs⟩ := readByte_alike rs h
    exact .next (whenReady_alike h (respond_alike rfl (congrArg byteValue hv) hs))
  | waitReady =>
    obtain ⟨hv, hs⟩ := waitReady_alike h
    exact .next (whenReady_alike h (respond_alike rfl (congrArg timeoutValue hv) hs))
  | functionSet lines font => exact .next (whenReady_alike h (respondOk_alike (command_alike _ h)))
  | displayControl d c b => exact .next (whenReady_alike h (respondOk_alike (displayControl_alike d c b h)))
  | clear => exact .next (whenReady_alike h (respondOk_alike (clear_alike h)))
  | home => exact .next (whenReady_alike h (respondOk_alike (home_alike h)))
  | entryMode dir shift => exact .next (whenReady_alike h (respondOk_alike (command_alike _ h)))
  | setAddress a => exact .next (whenReady_alike h (respondOk_alike (setAddress_alike a h)))
  | advance => exact .next (whenReady_alike h (respondOk_alike (advance_alike h)))
  | retreat => exact .next (whenReady_alike h (respondOk_alike (retreat_alike h)))
  | getXy =>
    obtain ⟨hv, hs⟩ := getXy_alike h
    refine .next (whenReady_alike h ?_)
    simp only [hv]
    exact respond_alike rfl rfl hs
  | gotoXy x y m =>
    obtain ⟨hc, hs⟩ := gotoXy_alike x y m h
    exact .next (whenReady_alike h (respond_alike hc rfl hs))
  | putChar b => exact .next (whenReady_alike h (respondOk_alike (putChar_alike b h)))
  | putString len => exact execPutString_alike len h
  | termByte b => exact .next (whenSession_alike h (respondOk_alike (termByte_alike b h)))
  | startup => exact execStartup_alike h
  | shutdown => exact execShutdown_alike h
  | openSession => exact execOpen_alike h
  | closeSession => exact .next (whenReady_alike h (respondOk_alike (setSession_alike false h)))
  | write len => exact execWrite_alike len h
  | seek o m => exact execSeek_alike o m h

/-- Settles O54: two states with different pasts stay alike through every operation. -/
theorem noRuleReadsTheLog : Obligations.NoRuleReadsTheLog := by
  intro i s t past a b ht
  obtain ⟨t', u, ht', hu, es, a', b', htrace, rfl⟩ := exec_alike i (alike_withPast past a b s)
  obtain rfl : t' = t := by simpa [ht] using ht'.symm
  exact ⟨es, _, htrace, hu, rfl⟩

end Sys2Proof.Machine

/-! ### The invariant of the states between two operations (10_state.md R42, R44) -/

namespace Sys2Proof.Machine

variable {s t : State}

/-- Settles O55: every clause of the invariant is about the literal reset values. -/
theorem resetMeetsTheInvariant : Obligations.ResetMeetsTheInvariant := by
  have hinv : ∀ c : Config, (State.resetIn c).Inv := fun c =>
    { dirWidth := by simp [State.resetIn]
      outWidth := by simp [State.resetIn]
      inWidth := by simp [State.resetIn]
      bufCanonical := Memory.wf_empty
      bufInRange := nofun
      idle := rfl
      sessionReady := nofun
      controlPins := nofun
      errorValue := nofun }
  exact fun c => ⟨hinv c, hinv Config.ex1, rfl, rfl, rfl, rfl, rfl, rfl, rfl, rfl, rfl, rfl⟩

/-- The invariant without its clauses about the sequencer and the response: what holds inside an operation too. -/
structure Sound (s : State) : Prop where
  fit : RegsFit s
  bufCanonical : Memory.wf s.buf
  bufInRange : ∀ cell ∈ s.buf, cell.1 < s.cfg.bufSize
  sessionReady : s.session = true → s.life = .ready
  driven : s.life = .ready → ControlDriven s

theorem State.Inv.sound (h : s.Inv) : Sound s :=
  ⟨⟨h.outWidth, h.dirWidth, h.inWidth⟩, h.bufCanonical, h.bufInRange, h.sessionReady, h.controlPins⟩

/-- A sound state that was answered, an error with value 0, meets the invariant. -/
theorem Sound.inv_respond (h : Sound s) {code : Code} {value : BitVec 32} (hv : code ≠ .ok → value = 0) :
    (respond code value s).Inv := by
  obtain ⟨hout, hdir, hin⟩ := h.fit
  refine ⟨hdir, hout, hin, h.bufCanonical, h.bufInRange, rfl, h.sessionReady, h.driven, fun r hr => ?_⟩
  obtain rfl := Option.some.inj hr
  exact hv

/-- What the host stages is in canonical form and within `BUF` (10_state.md R41). -/
theorem takeRequest_sound (r : Request) (rest : List Request) (h : Sound s) : Sound (takeRequest r rest s) := by
  refine ⟨h.fit, Memory.wf_store Memory.wf_empty _ _, ?_, h.sessionReady, h.driven⟩
  exact Memory.store_in_range (by simp) 0 _ (by simp [stagedBytes])

theorem PinsGood.sound (h : PinsGood t) (hs : Sound s) (hb : t.buf = s.buf) (hc : t.cfg = s.cfg) : Sound t :=
  ⟨h.fit, hb ▸ hs.bufCanonical, by rw [hb, hc]; exact hs.bufInRange, fun _ => h.ready, fun _ => h.driven⟩

theorem acquire_cfg (s : State) : (acquire s).cfg = s.cfg := by simp [acquire, foreignMove_frame]

theorem acquire_buf (s : State) : (acquire s).buf = s.buf := by simp [acquire, foreignMove_frame]

theorem startUp_cfg (s : State) : (startUp s).cfg = s.cfg := by
  rw [(startUp_edits s).frame.cfg, handshake_cfg, acquire_cfg]

theorem startUp_buf (s : State) : (startUp s).buf = s.buf := by
  rw [(startUp_edits s).buf, handshake_buf, acquire_buf]

theorem Effect.sound (h : Effect s t) (hp : s.cfg.PinsOk) (hs : Sound s) : Sound t := by
  cases h with
  | nothing => exact hs
  | bus hr hf _ hb hpins =>
    obtain ⟨hfit, hdriven⟩ := hpins hp hs.fit
    exact PinsGood.sound ⟨by rw [hf.cfg]; exact hp, hf.life.trans hr, hfit, hdriven⟩ hs hb hf.cfg
  | edits hr he => exact (he.pinsGood ⟨hp, hr, hs.fit, hs.driven hr⟩).sound hs he.buf he.frame.cfg
  | opened hr => exact ⟨hs.fit, hs.bufCanonical, hs.bufInRange, fun _ => hr, hs.driven⟩
  | closed hr => exact ⟨hs.fit, hs.bufCanonical, hs.bufInRange, nofun, hs.driven⟩
  | released hr hsession =>
    exact ⟨hs.fit, hs.bufCanonical, hs.bufInRange, fun h => absurd (hsession.symm.trans h) nofun, nofun⟩
  | started _ _ => exact (startUp_pinsGood hp hs.fit).sound hs (startUp_buf s) (startUp_cfg s)

/-- Settles O56: a request taken leaves a sound state, every effect keeps it sound, and the answer makes it idle. -/
theorem stepKeepsTheInvariant : Obligations.StepKeepsTheInvariant := by
  intro s t h ht
  have hadm : s.cfg.Admitted := by
    by_contra hn
    simp [step_unadmitted hn] at ht
  cases hr : s.requests with
  | nil =>
    rw [step_idle hadm h.idle hr] at ht
    obtain rfl : s = t := by simpa using ht
    exact h
  | cons r rest =>
    rw [step_request hadm h.idle hr] at ht
    obtain ⟨u, code, value, hu, he, hv⟩ := (runWord_answers r.word (takeRequest r rest s)).eq
    obtain rfl : respond code value u = t := by simpa [hu] using ht
    exact (he.sound hadm.1 (takeRequest_sound r rest h.sound)).inv_respond fun hc => (hv hc).2

end Sys2Proof.Machine

/-! ### The bits of the GPIO registers (10_state.md R32, 20_memory.md R64) -/

namespace Sys2Proof.Machine

variable {s t : State}

theorem testBit_guardedBits (s : State) (k : Nat) :
    (guardedBits s).testBit k = decide (s.life = .ready ∧ s.cfg.mUsed.testBit k = true) := by
  cases h : s.life <;> simp [guardedBits, h]

/-- Below the register's width a bit of the merge is the old one where guarded and the new one elsewhere. -/
theorem testBit_mergeForeign_of_lt {w k : Nat} (hk : k < w) (guarded old new : Word) :
    (mergeForeign w guarded old new).testBit k = if guarded.testBit k then old.testBit k else new.testBit k := by
  cases hg : guarded.testBit k <;> simp [mergeForeign, Nat.testBit_mod_two_pow, hg, hk]

/-- Settles O12: the write that lands is merged under the guarded bits. -/
theorem otherConsumersBits : Obligations.OtherConsumersBits := by
  intro s f rest k hf hk
  have hm : ∀ old new : Word, (mergeForeign s.cfg.regW (guardedBits s) old new).testBit k =
      if s.life = .ready ∧ s.cfg.mUsed.testBit k = true then old.testBit k else new.testBit k := fun old new => by
    rw [testBit_mergeForeign_of_lt hk, testBit_guardedBits]
    simp only [decide_eq_true_eq]
  have hmove : foreignMove s = { s with
      out := mergeForeign s.cfg.regW (guardedBits s) s.out f.out
      dir := mergeForeign s.cfg.regW (guardedBits s) s.dir f.dir
      foreign := rest } := by simp only [foreignMove, hf]
  rw [hmove]
  exact ⟨hm s.out f.out, hm s.dir f.dir⟩

/-- What no operation changes at all: the configuration, the host's side, the bytes of `BUF`, other consumers' bits. -/
structure OuterFrame (s t : State) : Prop where
  cfg : t.cfg = s.cfg
  requests : t.requests = s.requests
  reserveOk : t.reserveOk = s.reserveOk
  bufOk : t.bufOk = s.bufOk
  bufBytes : ∀ a, Memory.read t.buf a = Memory.read s.buf a
  foreignBits : ForeignBitsKept s t

theorem HostFrame.outer (h : HostFrame s t) : OuterFrame s t :=
  ⟨h.cfg, h.requests, h.reserveOk, h.bufOk, h.bufBytes, h.foreignBits⟩

theorem OuterFrame.trans {u : State} (h₁ : OuterFrame s t) (h₂ : OuterFrame t u) : OuterFrame s u :=
  ⟨h₂.cfg.trans h₁.cfg, h₂.requests.trans h₁.requests, h₂.reserveOk.trans h₁.reserveOk,
    h₂.bufOk.trans h₁.bufOk, fun a => (h₂.bufBytes a).trans (h₁.bufBytes a),
    h₁.foreignBits.trans h₁.cfg h₂.foreignBits⟩

theorem acquire_outerFrame (s : State) : OuterFrame s (acquire s) := by
  refine ⟨acquire_cfg s, ?_, ?_, ?_, fun a => by rw [acquire_buf], fun hf => ?_⟩
  case refine_4 =>
    rw [acquire, foreignMove_of_nil hf]
    exact ⟨hf, fun _ _ => ⟨rfl, rfl⟩⟩
  all_goals simp [acquire, foreignMove_frame]

theorem startUp_outerFrame (s : State) : OuterFrame s (startUp s) :=
  (acquire_outerFrame s).trans ((handshake_busFrame _).toHostFrame.trans (startUp_edits s).frame).outer

theorem Effect.outer (h : Effect s t) : OuterFrame s t := by
  have unmoved : ForeignBitsKept s s := .refl s
  cases h with
  | nothing => exact (HostFrame.refl s).outer
  | bus _ hf _ _ _ => exact hf.toHostFrame.outer
  | edits _ he => exact he.frame.outer
  | opened _ => exact ⟨rfl, rfl, rfl, rfl, fun _ => rfl, unmoved⟩
  | closed _ => exact ⟨rfl, rfl, rfl, rfl, fun _ => rfl, unmoved⟩
  | released _ _ => exact ⟨rfl, rfl, rfl, rfl, fun _ => rfl, unmoved⟩
  | started _ _ => exact startUp_outerFrame s

theorem exec_outerFrame {i : Instr} (h : exec i s = .next t) : OuterFrame s t := by
  obtain ⟨u, code, value, hu, he, -⟩ := (exec_answers i s).eq
  obtain rfl : respond code value u = t := by simpa [hu] using h
  exact he.outer.trans (respond_busFrame code value u).toHostFrame.outer

/-- Settles O52: it is the foreign bits' part of the frame that every operation has. -/
theorem onlySevenBits : Obligations.OnlySevenBits := fun _ _ _ hf h => ((exec_outerFrame h).foreignBits hf).2

end Sys2Proof.Machine

/-! ### What each operation does before it answers -/

namespace Sys2Proof.Machine

variable {s t : State} {i : Instr}

/-- What an operation that is carried out does before its response (41_bus_transport.md to 45_host.md). -/
def deed : Instr → State → State
  | .wrNib rs n, s => writeNibble rs n s
  | .rdNib rs, s => (readNibble rs s).2
  | .wrByte rs b, s => writeByte rs b s
  | .rdByte rs, s => (readByte rs s).2
  | .waitReady, s => (waitReady s).2
  | .functionSet lines font, s => functionSet lines font s
  | .displayControl d c b, s => displayControl d c b s
  | .clear, s => clear s
  | .home, s => home s
  | .entryMode dir shift, s => entryMode dir shift s
  | .setAddress a, s => setAddress a s
  | .advance, s => advance s
  | .retreat, s => retreat s
  | .getXy, s => (getXy s).2
  | .gotoXy x y mode, s => (gotoXy x y mode s).2
  | .putChar b, s => putChar b s
  | .putString len, s => putString (s.buf.snapshot len) s
  | .termByte b, s => termByte b s
  | .startup, s => startUp s
  | .shutdown, s => setLife .down s
  | .openSession, s => setParseMode .normal (setSession true s)
  | .closeSession, s => setSession false s
  | .write len, s => feedBytes (s.buf.snapshot len) s
  | .seek offset whence, s => (getXy (gotoXy offset 0 whence s).2).2

/-- The operation is answered, nothing having been done or its deed. -/
def DoesDeed (i : Instr) (s : State) (r : Result) : Prop :=
  ∃ code value, r = .next (respond code value s) ∨ r = .next (respond code value (deed i s))

theorem DoesDeed.nothing (c : Code) : DoesDeed i s (.next (respond c 0 s)) := ⟨c, 0, .inl rfl⟩

theorem DoesDeed.done (c : Code) (v : BitVec 32) : DoesDeed i s (.next (respond c v (deed i s))) := ⟨c, v, .inr rfl⟩

theorem DoesDeed.whenReady {op : State → State} (h : DoesDeed i s (.next (op s))) :
    DoesDeed i s (.next (whenReady s op)) := by
  cases hl : s.life with
  | down => rw [whenReady_down hl]; exact .nothing _
  | ready => rw [whenReady_up hl]; exact h

theorem DoesDeed.whenSession {op : State → State} (h : DoesDeed i s (.next (op s))) :
    DoesDeed i s (.next (whenSession s op)) := by
  refine .whenReady ?_
  split
  · exact h
  · exact .nothing _

theorem exec_startup (s : State) : exec .startup s = .next
    (if s.life = .down ∧ s.reserveOk = true then respond .ok 0 (startUp s) else respond .errUnavail 0 s) := by
  simp only [exec, execStartup]
  cases hl : s.life <;> cases hr : s.reserveOk <;> simp

theorem execSeek_doesDeed (o : Int) (m : Mode) (s : State) : DoesDeed (.seek o m) s (execSeek o m s) := by
  refine .whenSession ?_
  cases m with
  | abs =>
    dsimp only
    split
    · exact .done .ok _
    · exact .nothing _
  | rel =>
    dsimp only
    split
    · exact .done .ok _
    · exact .nothing _
  | fromEnd => exact .nothing _

theorem execShutdown_doesDeed (s : State) : DoesDeed .shutdown s (execShutdown s) := by
  unfold execShutdown
  split
  · exact .nothing .ok
  · split
    · exact .nothing _
    · exact .done .ok 0

/-- What every operation does. -/
theorem exec_doesDeed (i : Instr) (s : State) : DoesDeed i s (exec i s) := by
  cases i with
  | putString len => refine .whenReady ?_; split; exacts [.done .ok 0, .nothing _]
  | write len => refine .whenSession ?_; split; exacts [.done .ok _, .nothing _]
  | openSession => refine .whenReady ?_; split; exacts [.nothing _, .done .ok 0]
  | startup => rw [exec_startup]; split; exacts [.done .ok 0, .nothing _]
  | shutdown => exact execShutdown_doesDeed s
  | seek o m => exact execSeek_doesDeed o m s
  | termByte b => exact .whenSession (.done .ok 0)
  | rdNib | rdByte | waitReady | getXy => exact .whenReady (.done .ok _)
  | gotoXy x y m => exact .whenReady (.done _ 0)
  | wrNib | wrByte | functionSet | displayControl | clear | home | entryMode | setAddress | advance | retreat
  | putChar | closeSession => exact .whenReady (.done .ok 0)

theorem exec_next_cases (h : exec i s = .next t) :
    ∃ code value, t = respond code value s ∨ t = respond code value (deed i s) := by
  obtain ⟨code, value, hd⟩ := exec_doesDeed i s
  exact ⟨code, value, hd.imp (fun h' => by simpa [h] using h') fun h' => by simpa [h] using h'⟩

/-! ### Who writes what (10_state.md R33 to R38) -/

/-- The writers of `CURSOR` that R33 names. -/
def WritesCursor (i : Instr) : Prop :=
  i = .startup ∨ i = .clear ∨ i = .home ∨ i = .advance ∨ i = .retreat ∨ (∃ a, i = .setAddress a) ∨
    (∃ x y mode, i = .gotoXy x y mode) ∨ (∃ b, i = .putChar b) ∨ (∃ len, i = .putString len) ∨
    (∃ b, i = .termByte b) ∨ (∃ len, i = .write len) ∨ ∃ offset whence, i = .seek offset whence

/-- The operations that give bytes to the terminal layer. -/
def FeedsTerminal (i : Instr) : Prop := (∃ b, i = .termByte b) ∨ ∃ len, i = .write len

/-- Each element that differs between `s` and `t` is one that `i` may write. -/
structure WritesNamed (i : Instr) (s t : State) : Prop where
  life : t.life ≠ s.life → i = .startup ∨ i = .shutdown
  session : t.session ≠ s.session → i = .startup ∨ i = .openSession ∨ i = .closeSession
  parseMode : t.parseMode ≠ s.parseMode → i = .startup ∨ i = .openSession ∨ FeedsTerminal i
  displayFlags : t.displayOn ≠ s.displayOn ∨ t.cursorVisible ≠ s.cursorVisible ∨ t.blinkOn ≠ s.blinkOn →
    i = .startup ∨ (∃ d c b, i = .displayControl d c b) ∨ FeedsTerminal i
  cursor : t.cursor ≠ s.cursor → WritesCursor i

theorem MoveFrame.writesNamed (h : MoveFrame s t) (hc : t.cursor ≠ s.cursor → WritesCursor i) : WritesNamed i s t :=
  ⟨absurd h.life, absurd h.session, absurd h.parseMode,
    fun hf => by simp [h.displayOn, h.cursorVisible, h.blinkOn] at hf, hc⟩

theorem Moves.writesNamed (h : Moves s t) (hi : WritesCursor i) : WritesNamed i s t := h.frame.writesNamed fun _ => hi

theorem BusFrame.writesNamed (h : BusFrame s t) : WritesNamed i s t := h.toMoveFrame.writesNamed (absurd h.cursor)

theorem Edits.writesNamed (h : Edits s t) (hi : FeedsTerminal i) : WritesNamed i s t :=
  ⟨absurd h.frame.life, absurd h.frame.session, fun _ => .inr (.inr hi), fun _ => .inr (.inr hi), fun _ => by
    rcases hi with ⟨b, rfl⟩ | ⟨len, rfl⟩ <;> simp [WritesCursor]⟩

theorem deed_writesNamed (i : Instr) (s : State) : WritesNamed i s (deed i s) := by
  cases i with
  | wrNib rs n => exact (writeNibble_busFrame rs n s).writesNamed
  | rdNib rs => exact (readNibble_busFrame rs s).writesNamed
  | wrByte rs b => exact (writeByte_busFrame rs b s).writesNamed
  | rdByte rs => exact (readByte_busFrame rs s).writesNamed
  | waitReady => exact (waitReady_busFrame s).writesNamed
  | functionSet lines font => exact (command_busFrame _ s).writesNamed
  | entryMode dir shift => exact (command_busFrame _ s).writesNamed
  | getXy => exact (getXy_moves s).frame.writesNamed (absurd (noteLine_cursor s))
  | displayControl d c b =>
    have hf := command_busFrame (displayControlByte d c b) s
    exact ⟨absurd hf.life, absurd hf.session, absurd hf.parseMode, fun _ => .inr (.inl ⟨d, c, b, rfl⟩),
      absurd hf.cursor⟩
  | clear => exact (clear_moves s).writesNamed (by simp [WritesCursor])
  | home => exact (home_moves s).writesNamed (by simp [WritesCursor])
  | setAddress a => exact (setAddress_moves a s).writesNamed (by simp [WritesCursor])
  | advance => exact (advance_moves s).writesNamed (by simp [WritesCursor])
  | retreat => exact (retreat_moves s).writesNamed (by simp [WritesCursor])
  | gotoXy x y m => exact (gotoXy_moves x y m s).writesNamed (by simp [WritesCursor])
  | putChar b => exact (putChar_moves b s).writesNamed (by simp [WritesCursor])
  | putString len => exact (putString_moves _ s).writesNamed (by simp [WritesCursor])
  | seek o m => exact ((gotoXy_moves o 0 m s).trans (getXy_moves _)).writesNamed (by simp [WritesCursor])
  | termByte b => exact (termByte_edits b s).writesNamed (.inl ⟨b, rfl⟩)
  | write len => exact (feedBytes_edits _ s).writesNamed (.inr ⟨len, rfl⟩)
  | startup => exact ⟨fun _ => .inl rfl, fun _ => .inl rfl, fun _ => .inl rfl, fun _ => .inl rfl, fun _ => .inl rfl⟩
  | shutdown => exact ⟨fun _ => .inr rfl, absurd rfl, absurd rfl, by simp [deed], absurd rfl⟩
  | openSession =>
    exact ⟨absurd rfl, fun _ => .inr (.inl rfl), fun _ => .inr (.inl rfl), by simp [deed], absurd rfl⟩
  | closeSession => exact ⟨absurd rfl, fun _ => .inr (.inr rfl), absurd rfl, by simp [deed], absurd rfl⟩

/-- Settles O50: the outer frame holds of every operation; of the rest each deed writes only what it is named for. -/
theorem whoWritesWhat : Obligations.WhoWritesWhat := by
  intro i s t h
  have ho := exec_outerFrame h
  have hw : WritesNamed i s t := by
    obtain ⟨code, value, rfl | rfl⟩ := exec_next_cases h
    · exact (respond_busFrame code value s).writesNamed
    · obtain ⟨h₁, h₂, h₃, h₄, h₅⟩ := deed_writesNamed i s
      exact ⟨h₁, h₂, h₃, h₄, h₅⟩
  exact ⟨⟨ho.cfg, ho.requests, ho.reserveOk, ho.bufOk, ho.bufBytes⟩, hw.life, hw.session, hw.parseMode,
    hw.displayFlags, hw.cursor⟩

end Sys2Proof.Machine

/-! ### The sticky flags (10_state.md R39) -/

namespace Sys2Proof.Machine

variable {s t : State} {i : Instr}

/-- Every deed but STARTUP's sets the flags with their events and never clears one. -/
theorem deed_sticky (hi : i ≠ .startup) (s : State) : Sticky s (deed i s) := by
  cases i with
  | startup => exact absurd rfl hi
  | wrNib rs n => exact writeNibble_sticky rs n s
  | rdNib rs => exact readNibble_sticky rs s
  | wrByte rs b => exact writeByte_sticky rs b s
  | rdByte rs => exact readByte_sticky rs s
  | waitReady => exact waitReady_sticky s
  | functionSet lines font => exact (Moves.refl.command _).sticky
  | entryMode dir shift => exact (Moves.refl.command _).sticky
  | displayControl d c b => exact (displayControl_edits d c b s).sticky
  | clear => exact (clear_moves s).sticky
  | home => exact (home_moves s).sticky
  | setAddress a => exact (setAddress_moves a s).sticky
  | advance => exact (advance_moves s).sticky
  | retreat => exact (retreat_moves s).sticky
  | getXy => exact (getXy_moves s).sticky
  | gotoXy x y m => exact (gotoXy_moves x y m s).sticky
  | putChar b => exact (putChar_moves b s).sticky
  | putString len => exact (putString_moves _ s).sticky
  | seek o m => exact ((gotoXy_moves o 0 m s).trans (getXy_moves _)).sticky
  | termByte b => exact (termByte_edits b s).sticky
  | write len => exact (feedBytes_edits _ s).sticky
  | shutdown | openSession | closeSession => exact ⟨[], by simp [deed]⟩

theorem respond_sticky (c : Code) (v : BitVec 32) (s : State) : Sticky s (respond c v s) := ⟨[], by simp⟩

theorem startUp_sticky (s : State) : Sticky (acquire s) (startUp s) :=
  (handshake_sticky _).trans (startUp_edits s).sticky

/-- An operation that is no successful STARTUP. -/
theorem exec_sticky (h : exec i s = .next t) (hn : ¬ (i = .startup ∧ s.life = .down ∧ s.reserveOk = true)) :
    Sticky s t := by
  by_cases hi : i = .startup
  · subst hi
    rw [exec_startup, if_neg fun h' => hn ⟨rfl, h'⟩] at h
    obtain rfl : respond .errUnavail 0 s = t := by simpa using h
    exact respond_sticky _ _ s
  · obtain ⟨code, value, rfl | rfl⟩ := exec_next_cases h
    · exact respond_sticky code value s
    · exact (deed_sticky hi s).trans (respond_sticky code value _)

/-- Settles O51: a STARTUP that succeeds starts from cleared flags; from there, and from `s` in every other operation,
the flags follow the log. -/
theorem stickyFlags : Obligations.StickyFlags := by
  intro i s t h
  by_cases hs : i = .startup ∧ s.life = .down ∧ s.reserveOk = true
  · obtain ⟨rfl, hl⟩ := hs
    rw [exec_startup, if_pos hl] at h
    obtain rfl : respond .ok 0 (startUp s) = t := by simpa using h
    obtain ⟨es, htrace, htimeout, hoow⟩ := (startUp_sticky s).events
    refine ⟨es, ?_, ?_, ?_⟩
    · simpa [acquire, foreignMove_frame] using htrace
    · simpa [hl, acquire] using htimeout
    · simpa [hl, acquire] using hoow
  · obtain ⟨es, htrace, htimeout, hoow⟩ := (exec_sticky h hs).events
    exact ⟨es, htrace, by simpa only [hs, not_false_eq_true, true_and] using htimeout,
      by simpa only [hs, not_false_eq_true, true_and] using hoow⟩

end Sys2Proof.Machine

/-! ### The cursor's windows (10_state.md R43) -/

namespace Sys2Proof.Machine

variable {s t : State} {i : Instr}

theorem powerOnSequence_stays (hg : s.cfg.GeometryOk) (h : CursorWindowed s) : StaysIn s (powerOnSequence s) := by
  have h₁ := (handshake_busFrame s).stays h
  have h₂ := h₁.trans ((command_busFrame (functionSetByte s.cfg.fsLines s.cfg.fsFont) _).stays h₁.windowed)
  have h₃ := h₂.trans (displayControl_stays false false false h₂.windowed)
  have h₄ := h₃.trans (clear_stays (h₃.geometry hg))
  have h₅ := h₄.trans ((command_busFrame (entryModeByte true false) _).stays h₄.windowed)
  exact h₅.trans (displayControl_stays true false false h₅.windowed)

/-- STARTUP puts the cursor at 0x00, which every admitted geometry has in a window, and goes on from there. -/
theorem startUp_stays (hg : s.cfg.GeometryOk) : StaysIn (acquire s) (startUp s) := by
  have hg' : (acquire s).cfg.GeometryOk := by rw [acquire_cfg]; exact hg
  have hp := powerOnSequence_stays hg' (windowed_zero hg')
  exact hp.trans (putChars_stays _ (hp.geometry hg') hp.windowed)

theorem deed_stays (hi : i ≠ .startup) (hg : s.cfg.GeometryOk) (h : CursorWindowed s)
    (ha : ∀ a, i = .setAddress a → Windowed s.cfg a.toNat) : StaysIn s (deed i s) := by
  cases i with
  | startup => exact absurd rfl hi
  | wrNib rs n => exact (writeNibble_busFrame rs n s).stays h
  | rdNib rs => exact (readNibble_busFrame rs s).stays h
  | wrByte rs b => exact (writeByte_busFrame rs b s).stays h
  | rdByte rs => exact (readByte_busFrame rs s).stays h
  | waitReady => exact (waitReady_busFrame s).stays h
  | functionSet lines font => exact (command_busFrame _ s).stays h
  | entryMode dir shift => exact (command_busFrame _ s).stays h
  | displayControl d c b => exact displayControl_stays d c b h
  | clear => exact clear_stays hg
  | home => exact home_stays hg
  | setAddress a => exact setAddress_stays (ha a rfl)
  | advance => exact advance_stays hg h
  | retreat => exact retreat_stays hg h
  | getXy => exact getXy_stays hg h
  | gotoXy x y m => exact gotoXy_stays x y m hg h
  | putChar b => exact putChar_stays b hg h
  | putString len => exact putChars_stays _ hg h
  | seek o m =>
    have hm := gotoXy_stays o 0 m hg h
    exact hm.trans (getXy_stays (hm.geometry hg) hm.windowed)
  | termByte b => exact termByte_stays b hg h
  | write len => exact feedBytes_stays _ hg h
  | shutdown | openSession | closeSession => exact ⟨rfl, h, rfl⟩

/-- Settles O53: every deed keeps the cursor in a window and asserts nothing; STARTUP's starts from a cleared flag. -/
theorem cursorStaysWindowed : Obligations.CursorStaysWindowed := by
  intro i s t hg h ha ht
  obtain ⟨code, value, rfl | rfl⟩ := exec_next_cases ht
  · exact ⟨h, id⟩
  · by_cases hi : i = .startup
    · subst hi
      have hs := startUp_stays hg
      exact ⟨hs.windowed, fun hoow => absurd (hs.assertOow.symm.trans hoow) nofun⟩
    · have hs := deed_stays hi hg h ha
      exact ⟨hs.windowed, fun hoow => hs.assertOow.symm.trans hoow⟩

end Sys2Proof.Machine

/-! ### The operand bytes (20_memory.md R70, 10_state.md R41) -/

namespace Sys2Proof.Machine

/-- After a request is taken an index reads the byte staged there, and 0x00 beyond the staged bytes. -/
theorem read_takeRequest_buf (r : Request) (rest : List Request) (s : State) (a : Nat) :
    Memory.read (takeRequest r rest s).buf a = (stagedBytes r s).getD a 0x00 := by
  rw [takeRequest_buf, Memory.read_store Memory.wf_empty]
  by_cases ha : a < (stagedBytes r s).length
  · simp [ha]
  · simp [ha, Memory.read, Memory.unlisted]

/-- A snapshot within both the host's bytes and `BUF` is the host's bytes, in order. -/
theorem snapshot_takeRequest_buf {r : Request} {s : State} {len : Nat} (rest : List Request)
    (hd : len ≤ r.data.length) (hb : len ≤ s.cfg.bufSize) :
    Memory.snapshot (takeRequest r rest s).buf len = r.data.take len := by
  refine List.ext_getElem (by simp [hd]) fun i hi _ => ?_
  have hlen : i < len := by simpa using hi
  have hdata : i < r.data.length := by omega
  have hsize : i < s.cfg.bufSize := by omega
  simp only [Memory.snapshot, List.getElem_map, List.getElem_range, read_takeRequest_buf]
  simp [stagedBytes, hdata, hsize]

/-- An index that the host stored nothing in, or that `BUF` does not have, reads 0x00 (log 9). -/
theorem read_takeRequest_buf_unstored {r : Request} {s : State} {a : Nat} (rest : List Request)
    (ha : r.data.length ≤ a ∨ s.cfg.bufSize ≤ a) : Memory.read (takeRequest r rest s).buf a = 0x00 := by
  have hlen : (stagedBytes r s).length ≤ a := by
    rw [stagedBytes, List.length_take]
    omega
  rw [read_takeRequest_buf, List.getD_eq_default _ _ hlen]

/-- Taking a request replaces all of `BUF`. -/
theorem takeRequest_with_buf (r : Request) (rest : List Request) (s : State) (m : Memory) :
    takeRequest r rest { s with buf := m } = takeRequest r rest s := rfl

/-- With a request waiting, a step does not depend on what `BUF` held: it is refused without a look at `BUF`, or takes
the request. -/
theorem step_with_buf {s : State} {r : Request} {rest : List Request} (hr : s.requests = r :: rest) (m : Memory) :
    step { s with buf := m } = step s := by
  by_cases h : s.cfg.Admitted
  · cases hs : s.seq with
    | running =>
      rw [step_running h hs]
      exact step_running h rfl
    | idle =>
      rw [step_request h hs hr, ← takeRequest_with_buf r rest s m]
      exact step_request h rfl hr
  · rw [step_unadmitted h]
    exact step_unadmitted h

/-- Settles O9: within both bounds the snapshot is the host's bytes, outside either an index reads 0x00, and the step
that takes the request replaces `BUF` before anything reads it. -/
theorem operandBytesAreTheStoredOnes : Obligations.OperandBytesAreTheStoredOnes := fun _ _ rest =>
  ⟨fun _ => snapshot_takeRequest_buf rest, fun _ => read_takeRequest_buf_unstored rest, step_with_buf⟩

end Sys2Proof.Machine

/-! ### The fields of a command word (30_encoding.md R90 to R93) -/

namespace Sys2Proof

variable {w : Nat} {i : Instr}

/-- How many low bits of `cmd[23:16]` a format gives to operands; the others are reserved (R91). -/
def Format.midBits : Format → Nat
  | .r | .rn | .rb => 1
  | .xy | .s => 2
  | .z | .b | .a | .f2 | .f3 | .l => 0

/-- How many low bits of `cmd[15:0]` a format gives to operands; the others are reserved (R91). -/
def Format.areaBits : Format → Nat
  | .z | .r => 0
  | .f2 => 2
  | .f3 => 3
  | .rn => 4
  | .a => 7
  | .rb | .b => 8
  | .xy | .s | .l => 16

/-- The reserved bits are zero exactly when both fields fit in the bits the format gives them. -/
theorem Format.clean_iff (f : Format) (w : Nat) :
    f.clean w = true ↔ slice w 23 16 < 2 ^ f.midBits ∧ slice w 15 0 < 2 ^ f.areaBits := by
  cases f <;>
    simp only [Format.clean, Format.reserved, Format.midBits, Format.areaBits, List.all_cons, List.all_nil,
      Bool.and_true, Bool.and_eq_true, beq_iff_eq, slice] <;>
    omega

theorem RegSel.code_lt (rs : RegSel) : rs.code < 2 := by cases rs <;> decide

theorem RegSel.code_injective : Function.Injective RegSel.code := by
  intro a b h
  cases a <;> cases b
  case cmd.cmd | data.data => rfl
  all_goals cases h

theorem Mode.code_lt (m : Mode) : m.code < 3 := by cases m <;> decide

theorem Instr.opcode_lt (i : Instr) : i.opcode < 256 := by cases i <;> simp [Instr.opcode]

/-- A well-formed operation's operands fit in the bits its format gives them (R92). -/
theorem Instr.fields_fit (h : i.wellFormed = true) :
    i.midField < 2 ^ i.format.midBits ∧ i.operandArea < 2 ^ i.format.areaBits := by
  cases i with
  | wrNib rs n => exact ⟨rs.code_lt, n.isLt⟩
  | rdNib rs | rdByte rs => exact ⟨rs.code_lt, Nat.one_pos⟩
  | wrByte rs b => exact ⟨rs.code_lt, b.isLt⟩
  | functionSet lines font =>
    have hl : lines = 1 ∨ lines = 2 := by simpa [Instr.wellFormed] using h
    have hf := font.toNat_le
    refine ⟨Nat.one_pos, ?_⟩
    simp only [Instr.operandArea, Instr.format, Format.areaBits]
    omega
  | displayControl d c b =>
    have hd := d.toNat_le
    have hc := c.toNat_le
    have hb := b.toNat_le
    refine ⟨Nat.one_pos, ?_⟩
    simp only [Instr.operandArea, Instr.format, Format.areaBits]
    omega
  | entryMode dir shift =>
    have hd := dir.toNat_le
    have hs := shift.toNat_le
    refine ⟨Nat.one_pos, ?_⟩
    simp only [Instr.operandArea, Instr.format, Format.areaBits]
    omega
  | setAddress a => exact ⟨Nat.one_pos, a.isLt⟩
  | putChar b | termByte b => exact ⟨Nat.one_pos, b.isLt⟩
  | putString len | write len => exact ⟨Nat.one_pos, of_decide_eq_true h⟩
  | gotoXy x y m =>
    obtain ⟨hx, hy⟩ : inSigned 8 x = true ∧ inSigned 8 y = true := by simpa [Instr.wellFormed] using h
    have hx' := (signedField_eight hx).1
    have hy' := (signedField_eight hy).1
    refine ⟨m.code_lt.trans (Nat.lt_succ_self 3), ?_⟩
    simp only [Instr.operandArea, Instr.format, Format.areaBits]
    omega
  | seek o m => exact ⟨m.code_lt.trans (Nat.lt_succ_self 3), (signedField_sixteen h).1⟩
  | waitReady | clear | home | advance | retreat | getXy | startup | shutdown | openSession | closeSession =>
    exact ⟨Nat.one_pos, Nat.one_pos⟩

theorem Instr.fields_lt (h : i.wellFormed = true) : i.midField < 256 ∧ i.operandArea < 65536 := by
  obtain ⟨hmid, harea⟩ := Instr.fields_fit h
  have hm : 2 ^ i.format.midBits ≤ 256 := by cases i.format <;> decide
  have ha : 2 ^ i.format.areaBits ≤ 65536 := by cases i.format <;> decide
  exact ⟨hmid.trans_le hm, harea.trans_le ha⟩

/-- The fields of a well-formed operation's word are the operation's (R90). -/
theorem slices_encodeNat (h : i.wellFormed = true) :
    slice (encodeNat i) 31 24 = i.opcode ∧ slice (encodeNat i) 23 16 = i.midField ∧
      slice (encodeNat i) 15 0 = i.operandArea := by
  have hop := i.opcode_lt
  have hfields := Instr.fields_lt h
  simp only [encodeNat, slice]
  omega

theorem encodeNat_lt (h : i.wellFormed = true) : encodeNat i < 2 ^ 32 := by
  have hop := i.opcode_lt
  have hfields := Instr.fields_lt h
  simp only [encodeNat]
  omega

/-- A 32-bit word is made of its three fields. -/
theorem eq_of_slices (hw : w < 2 ^ 32) : slice w 31 24 * 2 ^ 24 + slice w 23 16 * 2 ^ 16 + slice w 15 0 = w := by
  simp only [slice]
  omega

/-! ### Reading the operands back (30_encoding.md R92) -/

/-- A middle field that fits in one bit is that bit. -/
theorem code_regSelOf (h : slice w 23 16 < 2 ^ 1) : (regSelOf w).code = slice w 23 16 := by
  rw [regSelOf_code]
  simp only [slice] at h ⊢
  omega

/-- A middle field that fits in two bits is those bits. -/
theorem slice_mode (h : slice w 23 16 < 2 ^ 2) : slice w 17 16 = slice w 23 16 := by
  simp only [slice] at h ⊢
  omega

theorem slice_mode_of_code {m : Mode} (h : slice w 23 16 = m.code) : slice w 17 16 = m.code :=
  (slice_mode (h ▸ m.code_lt.trans (Nat.lt_succ_self 3))).trans h

theorem regSelOf_of_code {rs : RegSel} (h : slice w 23 16 = rs.code) : regSelOf w = rs :=
  RegSel.code_injective ((code_regSelOf (h ▸ rs.code_lt)).trans h)

theorem modeOf_of_slice {m : Mode} (h : slice w 17 16 = m.code) : modeOf w = .ok m := by
  cases m <;> simp only [modeOf, h, Mode.code]

theorem flagOf_of_toNat {k : Nat} {b : Bool} (h : slice w k k = b.toNat) : flagOf w k = b := by
  cases b <;> simp [flagOf, h]

/-- The low bits of the operand area. -/
theorem slice_low {k : Nat} (hk : k ≤ 15) (w : Nat) : slice w k 0 = slice w 15 0 % 2 ^ (k + 1) := by
  have hd : 2 ^ (k + 1) ∣ 2 ^ (15 + 1) := Nat.pow_dvd_pow 2 (by omega)
  simp only [slice, Nat.pow_zero, Nat.div_one, Nat.sub_zero, Nat.mod_mod_of_dvd w hd]

/-- A bit vector that fills the operand area is read back from its low bits. -/
theorem ofNat_slice {k : Nat} {b : BitVec (k + 1)} (hk : k ≤ 15) (h : slice w 15 0 = b.toNat) :
    BitVec.ofNat (k + 1) (slice w k 0) = b := by
  rw [slice_low hk, h, Nat.mod_eq_of_lt b.isLt, BitVec.ofNat_toNat, BitVec.setWidth_eq]

/-- An operand area that fits in its low bits is the bit vector read from them. -/
theorem toNat_ofNat_slice {k : Nat} (hk : k ≤ 15) (h : slice w 15 0 < 2 ^ (k + 1)) :
    (BitVec.ofNat (k + 1) (slice w k 0)).toNat = slice w 15 0 := by
  rw [slice_low hk, BitVec.toNat_ofNat, Nat.mod_mod, Nat.mod_eq_of_lt h]

theorem checked_of_clean {f : Format} {i j : Instr} (h : f.clean w = true) (hij : i = j) : checked f w i = .ok j :=
  hij ▸ if_pos h

theorem checkedMode_of_clean {f : Format} {i : Mode → Instr} {m : Mode} {j : Instr} (h : f.clean w = true)
    (hm : slice w 17 16 = m.code) (hij : i m = j) : checkedMode f w i = .ok j := by
  rw [checkedMode, if_pos h, modeOf_of_slice hm, ← hij]
  rfl

/-- A word with the fields of a well-formed operation decodes to it. -/
theorem decodeNat_of_fields (h : i.wellFormed = true) (hop : slice w 31 24 = i.opcode)
    (hmid : slice w 23 16 = i.midField) (harea : slice w 15 0 = i.operandArea) : decodeNat w = .ok i := by
  have hc : i.format.clean w = true := by
    rw [Format.clean_iff, hmid, harea]
    exact Instr.fields_fit h
  cases i <;> simp only [decodeNat, hop, Instr.opcode]
  case waitReady | clear | home | advance | retreat | getXy | startup | shutdown | openSession | closeSession =>
    exact checked_of_clean hc rfl
  case wrNib rs b | wrByte rs b =>
    exact checked_of_clean hc (by rw [regSelOf_of_code hmid, ofNat_slice (by decide) harea])
  case rdNib rs | rdByte rs => exact checked_of_clean hc (by rw [regSelOf_of_code hmid])
  case setAddress b | putChar b | termByte b => exact checked_of_clean hc (by rw [ofNat_slice (by decide) harea])
  case putString len | write len => exact checked_of_clean hc (by rw [harea, Instr.operandArea])
  case functionSet lines font =>
    have hlines : lines = 1 ∨ lines = 2 := by simpa [Instr.wellFormed] using h
    have hfont := font.toNat_le
    simp only [slice, Instr.operandArea] at harea
    have hl : slice w 1 1 + 1 = lines := by simp only [slice]; omega
    have hf : slice w 0 0 = font.toNat := by simp only [slice]; omega
    exact checked_of_clean hc (by rw [hl, flagOf_of_toNat hf])
  case displayControl d c b =>
    have hd := d.toNat_le
    have hcur := c.toNat_le
    have hb := b.toNat_le
    simp only [slice, Instr.operandArea] at harea
    have h₂ : slice w 2 2 = d.toNat := by simp only [slice]; omega
    have h₁ : slice w 1 1 = c.toNat := by simp only [slice]; omega
    have h₀ : slice w 0 0 = b.toNat := by simp only [slice]; omega
    exact checked_of_clean hc (by rw [flagOf_of_toNat h₂, flagOf_of_toNat h₁, flagOf_of_toNat h₀])
  case entryMode dir shift =>
    have hd := dir.toNat_le
    have hs := shift.toNat_le
    simp only [slice, Instr.operandArea] at harea
    have h₁ : slice w 1 1 = dir.toNat := by simp only [slice]; omega
    have h₀ : slice w 0 0 = shift.toNat := by simp only [slice]; omega
    exact checked_of_clean hc (by rw [flagOf_of_toNat h₁, flagOf_of_toNat h₀])
  case gotoXy x y m =>
    obtain ⟨hx, hy⟩ : inSigned 8 x = true ∧ inSigned 8 y = true := by simpa [Instr.wellFormed] using h
    obtain ⟨hxlt, hx'⟩ := signedField_eight hx
    obtain ⟨hylt, hy'⟩ := signedField_eight hy
    simp only [slice, Instr.operandArea] at harea
    have hxf : slice w 15 8 = signedField 8 x := by simp only [slice]; omega
    have hyf : slice w 7 0 = signedField 8 y := by simp only [slice]; omega
    exact checkedMode_of_clean hc (slice_mode_of_code hmid) (by rw [hxf, hyf, hx', hy'])
  case seek o m =>
    exact checkedMode_of_clean hc (slice_mode_of_code hmid)
      (by rw [harea, Instr.operandArea, (signedField_sixteen h).2])

/-- Settles O1: the word has the operation's fields, and they are read back. -/
theorem decodeOfEncode : Obligations.DecodeOfEncode := by
  intro i h
  obtain ⟨hop, hmid, harea⟩ := slices_encodeNat h
  rw [decode, encode, BitVec.toNat_ofNat, Nat.mod_eq_of_lt (encodeNat_lt h)]
  exact decodeNat_of_fields h hop hmid harea

/-! ### The fields of a legal word (30_encoding.md R91, R92) -/

/-- A word that decodes to an operation has that operation's fields, and the operation is well-formed. -/
theorem fields_of_decodeNat (h : decodeNat w = .ok i) :
    i.wellFormed = true ∧ i.midField = slice w 23 16 ∧ i.operandArea = slice w 15 0 := by
  obtain ⟨hop, hc⟩ := decodeNat_ok h
  obtain ⟨hmid, harea⟩ := (Format.clean_iff _ w).1 hc
  cases i <;> simp only [decodeNat, hop, Instr.opcode] at h
  case gotoXy =>
    obtain ⟨-, m, hm, hi⟩ := checkedMode_ok h
    cases hi
    obtain ⟨hx, hx'⟩ := sext_eight (v := slice w 15 8) (Nat.mod_lt _ (by decide))
    obtain ⟨hy, hy'⟩ := sext_eight (v := slice w 7 0) (Nat.mod_lt _ (by decide))
    refine ⟨by rw [Instr.wellFormed, hx, hy, Bool.and_self], hm.trans (slice_mode hmid), ?_⟩
    rw [Instr.operandArea, hx', hy']
    simp only [slice]
    omega
  case seek =>
    obtain ⟨-, m, hm, hi⟩ := checkedMode_ok h
    cases hi
    obtain ⟨ho, ho'⟩ := sext_sixteen (v := slice w 15 0) (Nat.mod_lt _ (by decide))
    exact ⟨ho, hm.trans (slice_mode hmid), ho'⟩
  all_goals cases (checked_ok h).2
  case waitReady | clear | home | advance | retreat | getXy | startup | shutdown | openSession | closeSession =>
    exact ⟨rfl, (Nat.lt_one_iff.1 hmid).symm, (Nat.lt_one_iff.1 harea).symm⟩
  case wrNib | wrByte => exact ⟨rfl, code_regSelOf hmid, toNat_ofNat_slice (by decide) harea⟩
  case rdNib | rdByte => exact ⟨rfl, code_regSelOf hmid, (Nat.lt_one_iff.1 harea).symm⟩
  case setAddress | putChar | termByte =>
    exact ⟨rfl, (Nat.lt_one_iff.1 hmid).symm, toNat_ofNat_slice (by decide) harea⟩
  case putString | write => exact ⟨decide_eq_true harea, (Nat.lt_one_iff.1 hmid).symm, rfl⟩
  case functionSet =>
    have hl : slice w 1 1 = 0 ∨ slice w 1 1 = 1 := by have := slice_bit_lt w 1; omega
    refine ⟨by rcases hl with hl | hl <;> simp [Instr.wellFormed, hl], (Nat.lt_one_iff.1 hmid).symm, ?_⟩
    simp only [Instr.format, Format.areaBits] at harea
    simp only [Instr.operandArea, flagOf_toNat, slice] at harea ⊢
    omega
  case displayControl | entryMode =>
    refine ⟨rfl, (Nat.lt_one_iff.1 hmid).symm, ?_⟩
    simp only [Instr.format, Format.areaBits] at harea
    simp only [Instr.operandArea, flagOf_toNat, slice] at harea ⊢
    omega

/-- A legal word is the word of its operation. -/
theorem encodeNat_of_decodeNat (hw : w < 2 ^ 32) (h : decodeNat w = .ok i) : encodeNat i = w := by
  obtain ⟨-, hmid, harea⟩ := fields_of_decodeNat h
  rw [encodeNat, hmid, harea, ← (decodeNat_ok h).1, eq_of_slices hw]

/-! ### The opcode table (30_encoding.md R93) -/

/-- The row of the opcode table that an operation's mnemonic, format and opcode make. -/
def Instr.row (i : Instr) : Machine.OpcodeRow := ⟨i.mnemonic, i.format.mask, i.opcode * 2 ^ 24⟩

/-- One operation of each kind, in the order of the opcode table. -/
def Instr.kinds : List Instr :=
  [.wrNib .cmd 0, .rdNib .cmd, .wrByte .cmd 0, .rdByte .cmd, .waitReady, .functionSet 1 false,
    .displayControl false false false, .clear, .home, .entryMode false false, .setAddress 0, .advance, .retreat,
    .getXy, .gotoXy 0 0 .abs, .putChar 0, .putString 0, .termByte 0, .startup, .shutdown, .openSession,
    .closeSession, .write 0, .seek 0 .abs]

theorem opcodeTable_eq : Machine.opcodeTable = Instr.kinds.map Instr.row := by decide

/-- The rows of the opcode table are those of the operations. -/
theorem mem_opcodeTable {row : Machine.OpcodeRow} : row ∈ Machine.opcodeTable ↔ ∃ i : Instr, i.row = row := by
  constructor
  · intro h
    rw [opcodeTable_eq] at h
    obtain ⟨i, -, hi⟩ := List.mem_map.1 h
    exact ⟨i, hi⟩
  · rintro ⟨i, rfl⟩
    cases i <;> simp only [Instr.row, Instr.mnemonic, Instr.format, Instr.opcode] <;> decide

/-- A word lies under an operation's row exactly when it has the operation's opcode and the format's reserved bits are
zero (R94). -/
theorem Instr.row_iff (i : Instr) (hw : w < 2 ^ 32) :
    w &&& i.row.mask = i.row.bits ↔ slice w 31 24 = i.opcode ∧ i.format.clean w = true :=
  i.format.mask_iff hw i.opcode_lt

/-- Settles O2: a legal word has the opcode, the clean reserved bits and the fields of the operation it decodes to. -/
theorem encodeOfDecode : Obligations.EncodeOfDecode := by
  intro w i h
  refine ⟨(fields_of_decodeNat h).1, ?_, i.row, mem_opcodeTable.2 ⟨i, rfl⟩, rfl, ?_⟩
  · rw [encode, encodeNat_of_decodeNat w.isLt h, BitVec.ofNat_toNat, BitVec.setWidth_eq]
  · exact (i.row_iff w.isLt).2 (decodeNat_ok h)

/-! ### Illegal words (30_encoding.md R94) -/

theorem exists_mode_code (h : slice w 17 16 ≠ 3) : ∃ m : Mode, slice w 17 16 = m.code := by
  have hlt : slice w 17 16 < 4 := Nat.mod_lt _ (by decide)
  have hm : slice w 17 16 = 0 ∨ slice w 17 16 = 1 ∨ slice w 17 16 = 2 := by omega
  obtain hm | hm | hm := hm
  · exact ⟨.abs, hm⟩
  · exact ⟨.rel, hm⟩
  · exact ⟨.fromEnd, hm⟩

theorem checkedMode_legal {f : Format} (i : Mode → Instr) (hc : f.clean w = true) (hm : slice w 17 16 ≠ 3) :
    ∃ j, checkedMode f w i = .ok j := by
  obtain ⟨m, hm⟩ := exists_mode_code hm
  exact ⟨i m, checkedMode_of_clean hc hm rfl⟩

/-- An opcode of the table with clean reserved bits makes a legal word, unless it has a mode field that holds 3. -/
theorem decodeNat_legal (hop : slice w 31 24 = i.opcode) (hc : i.format.clean w = true)
    (hm : Machine.hasMode i.mnemonic = true → slice w 17 16 ≠ 3) : ∃ j, decodeNat w = .ok j := by
  cases i <;> simp only [decodeNat, hop, Instr.opcode]
  case gotoXy | seek => exact checkedMode_legal _ hc (hm rfl)
  all_goals exact ⟨_, checked_of_clean hc rfl⟩

/-- Only GOTO_XY and SEEK have a mode field, and no operation's mode is 3. -/
theorem mode_ne_three (h : decodeNat w = .ok i) (hm : Machine.hasMode i.mnemonic = true) : slice w 17 16 ≠ 3 := by
  have hmid : i.midField < 3 := by
    cases i
    case gotoXy _ _ m | seek _ m => exact m.code_lt
    all_goals cases hm
  obtain ⟨-, hfield, -⟩ := fields_of_decodeNat h
  simp only [slice] at hfield ⊢
  omega

/-- The bits of the reserved mode, as the table's reader shifts them out. -/
theorem shiftRight_mod_four (w : Nat) : w >>> 16 % 4 = slice w 17 16 := by
  rw [Nat.shiftRight_eq_div_pow]
  rfl

/-- The legal words: opcode and reserved bits of a row of the table, and no reserved mode. -/
theorem decode_ok_iff (w : BitVec 32) : (∃ i, decode w = .ok i) ↔
    ∃ row ∈ Machine.opcodeTable, w.toNat &&& row.mask = row.bits ∧
      ¬ (Machine.hasMode row.mnemonic = true ∧ w.toNat >>> 16 % 4 = 3) := by
  rw [shiftRight_mod_four]
  constructor
  · rintro ⟨i, h⟩
    exact ⟨i.row, mem_opcodeTable.2 ⟨i, rfl⟩, (i.row_iff w.isLt).2 (decodeNat_ok h),
      fun hm => mode_ne_three h hm.1 hm.2⟩
  · rintro ⟨row, hrow, hbits, hmode⟩
    obtain ⟨i, rfl⟩ := mem_opcodeTable.1 hrow
    obtain ⟨hop, hc⟩ := (i.row_iff w.isLt).1 hbits
    exact decodeNat_legal hop hc fun hm h3 => hmode ⟨hm, h3⟩

end Sys2Proof

/-! ### The answer to one request (30_encoding.md R90, R94, R96) -/

namespace Sys2Proof.Machine

variable {s : State} {r : Request} {rest : List Request}

theorem decode_ne_ok {w : BitVec 32} {e : DecodeError} (h : decode w = .error e) (i : Instr) : decode w ≠ .ok i :=
  fun hi => nomatch h.symm.trans hi

/-- `fail` is the answer with that code, value 0 and nothing else (00_scope.md R19). -/
theorem fail_eq_answered (c : Code) (s : State) : fail c s = answered s c 0 := rfl

theorem step_illegal (h : s.cfg.Admitted) (hs : s.seq = .idle) (hr : s.requests = r :: rest)
    (hw : ∀ i, decode r.word ≠ .ok i) : step s = .next (answered (takeRequest r rest s) .errIllegal 0) := by
  rw [step_request h hs hr, runWord_illegal hw, illegalWord, fail_eq_answered]

/-- GOTO_XY from the end is legal and always fails (R94; 43_position.md R196). -/
theorem exec_gotoXy_fromEnd (x y : Int) (hl : s.life = .ready) :
    exec (.gotoXy x y .fromEnd) s = .next (answered s .errInval 0) := by
  rw [exec, execGotoXy, whenReady_up hl]
  rfl

/-- SEEK from the end is legal and always fails (R94; 45_host.md R267). -/
theorem exec_seek_fromEnd (offset : Int) (hl : s.life = .ready) (hs : s.session = true) :
    exec (.seek offset .fromEnd) s = .next (answered s .errInval 0) := by
  rw [exec, execSeek, whenSession_on hl hs]
  rfl

/-- Settles O3: the words that decode are those of the table's rows without the reserved mode; each other word is
answered, and so is from-end, without an effect. -/
theorem illegalWords : Obligations.IllegalWords := by
  have hzero : decode 0x00000000 = .error .unknownOpcode := by decide
  have hones : decode 0xFFFFFFFF = .error .unknownOpcode := by decide
  refine ⟨fun w => ?_, fun _ _ _ => step_illegal, fun _ x y => exec_gotoXy_fromEnd x y,
    fun _ offset => exec_seek_fromEnd offset, decode_ne_ok hzero, decode_ne_ok hones⟩
  rw [← decode_ok_iff, not_exists]

/-- Settles O8: the word is answered after its effect, and no effect touches the requests or the configuration. -/
theorem everyRequestIsAnswered : Obligations.EveryRequestIsAnswered := by
  intro s r rest h hs hr
  obtain ⟨t, code, value, ht, heffect, herror⟩ := (runWord_answers r.word (takeRequest r rest s)).eq
  refine ⟨respond code value t, code, value, ?_, ⟨rfl, rfl⟩, fun hc => (herror hc).2, heffect.outer.requests,
    heffect.outer.cfg⟩
  rw [step_request h hs hr, ht]

/-- Settles O4: each word is decoded. -/
theorem workedEncodings : Obligations.WorkedEncodings := by
  unfold Obligations.WorkedEncodings
  decide

/-- A request of what the state already holds, taken, leaves the inputs as they are (log 15). -/
theorem takeRequest_of_held {word : BitVec 32} (hm : Memory.wf s.buf)
    (hb : ∀ cell ∈ s.buf, cell.1 < s.cfg.bufSize) :
    takeRequest ⟨word, s.buf.snapshot s.buf.extent, s.reserveOk, s.bufOk⟩ s.requests s =
      { s with seq := .running } := by
  have hstaged : (s.buf.snapshot s.buf.extent).take s.cfg.bufSize = s.buf.snapshot s.buf.extent :=
    List.take_of_length_le (by rw [Memory.snapshot_length]; exact Memory.extent_le hb)
  have hbuf : Memory.store [] 0 (s.buf.snapshot s.buf.extent) = s.buf :=
    Memory.store_snapshot hm fun _ => Memory.lt_extent
  rw [takeRequest, stagedBytes]
  dsimp only
  rw [hstaged, hbuf]

/-- Settles O5: a step takes the request and runs its word; a request of the inputs that the state holds changes none
of them. -/
theorem stepRunsTheDecodedOperation : Obligations.StepRunsTheDecodedOperation := by
  constructor
  · intro s r rest i h hs hr hd
    rw [step_request h hs hr, runWord_ok hd, takeRequest, stagedBytes]
  · intro s w i h hm hb hd
    have hword : decode (BitVec.ofNat 32 (w % 2 ^ 32)) = .ok i := by
      rw [← hd]
      exact congrArg decode (BitVec.eq_of_toNat_eq (by simp))
    rw [step_request (s := s.withFetchWord 32 w) h rfl rfl, runWord_ok hword]
    exact congrArg (exec i) (takeRequest_of_held hm hb)

end Sys2Proof.Machine

/-! ### PinBank on every bit, and with no other consumer (40_pinbank.md R122, R123) -/

namespace Sys2Proof.Machine

variable {s : State}

/-- `pin_set` with no other consumer: the two register updates and the event are all it does. -/
theorem pinSet_alone (a b : Word) (hf : s.foreign = []) : pinSet a b s =
    { s with
      out := andNot (s.out ||| a) b, dir := s.dir ||| a ||| b
      trace := s.trace ++ [.set a b] } := by
  rw [pinSet, foreignMove_of_nil hf]
  rfl

/-- `pin_get` with no other consumer: `DIR`, the sample with the answer it uses, and the event are all it changes. -/
theorem pinGet_alone (m : Word) (hf : s.foreign = []) : (pinGet m s).2 =
    { s with
      dir := andNot s.dir m, inReg := sampleAt s 0
      samples := s.samples.drop 1, sampleCount := s.sampleCount + 1
      trace := s.trace ++ [.get m (sampleAt s 0 &&& m)] } := by
  rw [pinGet, foreignMove_of_nil hf, sampleAt_zero, List.drop_one]
  rfl

/-- `pin_get` on any bit when no other consumer interferes. -/
theorem pinGet_bit_alone (m : Word) (hf : s.foreign = []) (k : Nat) :
    (pinGet m s).2.out.testBit k = s.out.testBit k ∧
    (pinGet m s).2.dir.testBit k = (s.dir.testBit k && !m.testBit k) := by
  rw [pinGet_alone m hf]
  exact ⟨rfl, testBit_andNot ..⟩

/-- Settles O10: a bit that no other consumer changes is either any bit when there is none, or one of the block's own
while it is up. -/
theorem pinSetBits : Obligations.PinSetBits := by
  refine fun s a b => ⟨fun k hk => ?_, fun hf => ?_⟩
  · obtain hf | ⟨hr, hu⟩ := hk
    · exact pinSet_bit_alone a b hf k
    · exact pinSet_bit a b hr hu
  · rw [pinSet_alone a b hf]

/-- Settles O11: the same two kinds of bits; the value is the sample whatever other consumers do. -/
theorem pinGetBits : Obligations.PinGetBits := by
  refine fun s m => ⟨?_, fun k hk => ?_, fun hf => ?_⟩
  · rw [pinGet_value, sampleAt_zero]
  · obtain hf | ⟨hr, hu⟩ := hk
    · exact pinGet_bit_alone m hf k
    · exact pinGet_bit m hr hu
  · rw [pinGet_alone m hf]

end Sys2Proof.Machine

/-! ### The transfers as operations (41_bus_transport.md R131 to R134) -/

namespace Sys2Proof.Machine

variable {s t : State}

theorem exec_wrNib_up (h : s.life = .ready) (rs : RegSel) (n : Nibble) :
    exec (.wrNib rs n) s = .next (respond .ok 0 (writeNibble rs n s)) := by
  rw [exec, execWrNib, whenReady_up h]
  rfl

theorem exec_rdNib_up (h : s.life = .ready) (rs : RegSel) :
    exec (.rdNib rs) s = .next (respond .ok (nibbleValue (readNibble rs s).1) (readNibble rs s).2) := by
  rw [exec, execRdNib, whenReady_up h]

theorem exec_rdByte_up (h : s.life = .ready) (rs : RegSel) :
    exec (.rdByte rs) s = .next (respond .ok (byteValue (readByte rs s).1) (readByte rs s).2) := by
  rw [exec, execRdByte, whenReady_up h]

/-- The answer is outside the frame of the transfer it follows. -/
theorem BusFrame.answer (h : BusFrame s t) (c : Code) (v : BitVec 32) : BusFrame s (respond c v t) :=
  h.trans (respond_busFrame c v t)

/-- The answer uses no sample. -/
theorem SamplesUsed.answer {k : Nat} (h : SamplesUsed s t k) (c : Code) (v : BitVec 32) :
    SamplesUsed s (respond c v t) k :=
  h.congr rfl rfl rfl

theorem nibbleValue_readNibble (rs : RegSel) (s : State) :
    nibbleValue (readNibble rs s).1 = BitVec.ofNat 32 (sampleAt s 0 >>> s.cfg.dataShift % 16) := by
  rw [readNibble_value, nibbleValue, ← BitVec.ofNat_toNat, BitVec.toNat_ofNat]

theorem byteValue_readByte (rs : RegSel) (s : State) :
    byteValue (readByte rs s).1 = BitVec.ofNat 32 (byteOfSamples s.cfg (sampleAt s 0, sampleAt s 1)) := by
  rw [byteValue, ← BitVec.ofNat_toNat, readByte_toNat]
  rfl

/-- Settles O13: the answer follows the eight events and changes nothing that the transfer left. -/
theorem writeNibble_holds : Obligations.WriteNibble := by
  intro s rs n hr hp
  obtain ⟨hlines, hdata⟩ := writeNibble_pins rs n hr hp
  exact ⟨_, exec_wrNib_up hr rs n, ⟨rfl, rfl⟩, writeNibble_trace rs n s, hlines, hdata,
    (writeNibble_busFrame rs n s).answer _ _, writeNibble_timeoutSeen rs n s, (writeNibble_used rs n s).answer _ _⟩

/-- Settles O14: the nibble answered is that of the one sample used. -/
theorem readNibble_holds : Obligations.ReadNibble := by
  intro s rs hr hp
  obtain ⟨hlines, hinputs, hout⟩ := readNibble_pins rs hr hp
  refine ⟨_, exec_rdNib_up hr rs, ⟨?_, rfl⟩, readNibble_trace rs s, hlines, hinputs, hout,
    (readNibble_busFrame rs s).answer _ _, readNibble_timeoutSeen rs s, (readNibble_used rs s).answer _ _⟩
  rw [respond_response, nibbleValue_readNibble]

/-- WR_BYTE as two WR_NIB, the first one's answer being overwritten (R133). -/
theorem execAll_wrNibs (hr : s.life = .ready) (rs : RegSel) (b : Byte) :
    execAll [.wrNib rs (upperNibble b), .wrNib rs (lowerNibble b)] s =
      .next (respond .ok 0 (writeByte rs b s)) := by
  have hr' : (respond .ok 0 (writeNibble rs (upperNibble b) s)).life = .ready := by simpa using hr
  rw [execAll_cons (exec_wrNib_up hr rs _), execAll_cons (exec_wrNib_up hr' rs _), writeNibble_respond]
  rfl

/-- RD_BYTE as two RD_NIB: they leave the state of `read_byte`, answered with the second nibble alone (R134). -/
theorem execAll_rdNibs (hr : s.life = .ready) (rs : RegSel) :
    ∃ v, execAll [.rdNib rs, .rdNib rs] s = .next (respond .ok v (readByte rs s).2) := by
  have hr' : ∀ v, (respond .ok v (readNibble rs s).2).life = .ready := fun _ => by simpa using hr
  rw [execAll_cons (exec_rdNib_up hr rs), execAll_cons (exec_rdNib_up (hr' _) rs), readNibble_respond]
  exact ⟨_, rfl⟩

/-- Settles O15: both ways end in the state of `write_byte`, answered. -/
theorem writeByte_holds : Obligations.WriteByte := by
  intro s rs b hr hp
  obtain ⟨hlines, hdata⟩ := writeByte_pins rs b hr hp
  refine ⟨_, exec_wrByte_up hr rs b, ?_, ⟨rfl, rfl⟩, writeByte_trace rs b s, hlines, hdata,
    (writeByte_busFrame rs b s).answer _ _, writeByte_timeoutSeen rs b s, (writeByte_used rs b s).answer _ _⟩
  rw [← upperNibble_eq, ← lowerNibble_eq, execAll_wrNibs hr]

/-- Settles O16: both ways end in the state of `read_byte`; RD_BYTE's answer joins the two samples' nibbles. -/
theorem readByte_holds : Obligations.ReadByte := by
  intro s rs hr hp
  obtain ⟨hlines, hinputs, -⟩ := readByte_pins rs hr hp
  obtain ⟨v, hv⟩ := execAll_rdNibs hr rs
  refine ⟨_, exec_rdByte_up hr rs, ⟨_, hv, ?_⟩, readByte_trace rs s, hlines, hinputs,
    (readByte_busFrame rs s).answer _ _, readByte_timeoutSeen rs s, (readByte_used rs s).answer _ _⟩
  rw [byteValue_readByte]
  rfl

end Sys2Proof.Machine

/-! ### WAIT_READY as an operation (41_bus_transport.md R136, R137) -/

namespace Sys2Proof.Machine

variable {s : State}

/-- Whatever the answers, the poll loop ends with a status read. -/
theorem pollLoop_ends_in_read (rest : Nat) (s : State) :
    ∃ u, BusFrame s u ∧ (pollLoop rest s).2 = (readByte .cmd u).2 := by
  induction rest generalizing s with
  | zero => exact ⟨s, BusFrame.refl s, rfl⟩
  | succ rest ih =>
    unfold pollLoop
    dsimp only
    split
    · obtain ⟨u, hu, he⟩ := ih (delay .poll (readByte .cmd s).2)
      exact ⟨u, ((readByte_busFrame .cmd s).trans (delay_busFrame .poll _)).trans hu, he⟩
    · exact ⟨s, BusFrame.refl s, rfl⟩

/-- A wait ends with a status read, and with the mark of the timeout if that one was the last allowed (R136). -/
theorem waitReady_ends_in_read (s : State) : ∃ u, BusFrame s u ∧
    ((waitReady s).2 = (readByte .cmd u).2 ∨ (waitReady s).2 = markTimeout (readByte .cmd u).2) := by
  unfold waitReady recheck
  dsimp only
  split
  · obtain ⟨u, hu, he⟩ := pollLoop_ends_in_read s.cfg.pollCount s
    exact ⟨u, hu, .inl he⟩
  · refine ⟨_, pollLoop_busFrame s.cfg.pollCount s, ?_⟩
    split
    · exact .inr rfl
    · exact .inl rfl

/-- The data pins after a wait are those of its last status read (R132, corner case 2). -/
theorem waitReady_inputs (hr : s.life = .ready) (hp : s.cfg.PinsOk) : DataPinsAreInputs (waitReady s).2 := by
  obtain ⟨u, hu, he⟩ := waitReady_ends_in_read s
  obtain ⟨-, hinputs, -⟩ := readByte_pins .cmd (hu.life.trans hr) (hu.cfg ▸ hp)
  obtain he | he := he <;> rw [he] <;> exact hinputs

/-- Settles O17: the run of the wait, and the lines of its last status read. -/
theorem waitReady_holds : Obligations.WaitReady := by
  intro s hr hp
  obtain ⟨q, hrun, htrace, hflag, hused⟩ := waitReady_spec s
  exact ⟨_, q, _, exec_waitReady_up hr, hrun, ⟨rfl, rfl⟩, htrace, hflag, waitReady_pins hr hp,
    waitReady_inputs hr hp, (waitReady_busFrame s).answer _ _, hused.answer _ _⟩

theorem readByteTrace_polls (c : Config) (rs : RegSel) (a : Word × Word) :
    (readByteTrace c rs a).count (.delay .poll) = 0 := by
  cases rs <;> simp [readByteTrace, readNibbleTrace]

/-- The poll delays among the first `m` status reads of a wait of `q`. -/
theorem polls_count (s : State) {m q : Nat} (h : m ≤ q) :
    ((List.range m).flatMap (pollTrace s q)).count (.delay .poll) = min (min m (q - 1)) s.cfg.pollCount := by
  induction m with
  | zero => simp
  | succ m ih =>
    rw [List.range_succ, List.flatMap_append, List.flatMap_singleton, List.count_append, ih (by omega), pollTrace,
      List.count_append, readByteTrace_polls]
    split
    · rw [List.count_singleton_self]
      omega
    · rw [List.count_nil]
      omega

/-- An LCD that is always busy makes the wait run to its bound (R136, corner case 4). -/
theorem waitRun_of_busy (h : ∀ j, j < s.cfg.pollCount + 2 → busyAnswer s.cfg (statusAt s j) = true) :
    WaitRun s (s.cfg.pollCount + 2) true :=
  ⟨by omega, Nat.le_refl _, fun j hj => h j (by omega), h _ (by omega), fun _ => rfl⟩

/-- Settles O18: the run is the shortest one or the longest one. -/
theorem waitReadyExtremes : Obligations.WaitReadyExtremes := by
  refine fun s hr => ⟨fun hready => ?_, fun hbusy => ?_⟩
  · obtain ⟨hvalue, htrace, hflag, -⟩ := waitReady_of_ready hready
    refine ⟨_, exec_waitReady_up hr, ⟨?_, rfl⟩, htrace, hflag⟩
    rw [hvalue]
    rfl
  · obtain ⟨q, hrun, htrace, hflag, -⟩ := waitReady_spec s
    obtain ⟨rfl, hvalue⟩ := hrun.unique (waitRun_of_busy hbusy)
    obtain ⟨hlength, -⟩ := polls_cost s (Nat.le_refl (s.cfg.pollCount + 2))
    have hmin : min (min (s.cfg.pollCount + 2) (s.cfg.pollCount + 2 - 1)) s.cfg.pollCount = s.cfg.pollCount := by omega
    rw [hvalue] at htrace hflag
    refine ⟨_, (List.range (s.cfg.pollCount + 2)).flatMap (pollTrace s (s.cfg.pollCount + 2)),
      exec_waitReady_up hr, ⟨?_, rfl⟩, hflag.trans (Bool.or_true _), ?_, ?_, ?_⟩
    · rw [hvalue]
      rfl
    · rw [List.append_assoc]
      exact htrace
    · rw [hlength, hmin]
    · rw [polls_count s (Nat.le_refl _), hmin]

end Sys2Proof.Machine

/-! ### The datasheet's minima (70_reset_and_hazards.md R340) -/

namespace Sys2Proof.Machine

variable {s : State}

theorem acquire_trace (s : State) : (acquire s).trace = s.trace := by simp [acquire, foreignMove_frame]

/-- STARTUP's events are those of the handshake, then those of commands and characters (R172, R262). -/
theorem startUp_trace (s : State) : ∃ more, (startUp s).trace = s.trace ++ (handshakeTrace s.cfg ++ more) := by
  obtain ⟨more, hmore⟩ := (startUp_edits s).grows.trace
  exact ⟨more, by rw [hmore, handshake_trace, acquire_trace, acquire_cfg, List.append_assoc]⟩

theorem exec_startup_down (hd : s.life = .down) (ho : s.reserveOk = true) :
    exec .startup s = .next (respond .ok 0 (startUp s)) := by
  simp [exec_startup, hd, ho]

/-- One delay lasts as long as its parameter says. -/
theorem waitsFor_delay {c : Config} {d : DelayName} {least : Nat} (h : least ≤ c.duration d) :
    WaitsFor c least [.delay d] :=
  ⟨by simp [OnlyDelays], h⟩

/-- With a poll bound there is something to wait for (00_scope.md R12). -/
theorem tBusyMax_pos {c : Config} (h : 1 ≤ c.pollCount) : 0 < c.tBusyMax := by
  by_contra h0
  have hzero : c.pollCount = 0 := by
    rw [Config.pollCount, Nat.eq_zero_of_not_pos h0, Nat.zero_add]
    exact Nat.div_eq_zero_iff.2 (by omega)
  omega

/-- A wait that logs its timeout made all its status reads and all its poll delays, which last `T_BUSY_MAX` (R340). -/
theorem waitTrace_covers {q : Nat} {timedOut : Bool} (ht : s.cfg.TimingOk) (hrun : WaitRun s q timedOut)
    (hlog : Event.log .timeout ∈ waitTrace s q timedOut) :
    s.cfg.tBusyMax + 2 * (s.cfg.pollCount + 2) * readTime s.cfg ≤ minDuration s.cfg (waitTrace s q timedOut) := by
  obtain ⟨-, -, -, -, hpoll, hcount⟩ := ht
  obtain ⟨-, htimedOut⟩ := (waitTrace_log s q timedOut .timeout).1 hlog
  obtain ⟨hcovers, -⟩ := pollCount_covers hpoll (tBusyMax_pos hcount)
  obtain ⟨-, htime⟩ := waitTrace_cost s q timedOut
  obtain rfl := hrun.timeout_at_bound htimedOut
  rw [htime, waitTime, show min (s.cfg.pollCount + 2 - 1) s.cfg.pollCount = s.cfg.pollCount by omega]
  omega

/-- Settles O20: each row of R340 from the configuration's inequality for it. -/
theorem timingContract : Obligations.TimingContract := by
  intro s hadmitted
  obtain ⟨hp, -, -, ht⟩ := hadmitted
  refine ⟨fun hr => ⟨fun rs n => ?_, fun rs => ?_, ?_⟩, fun hd ho => ?_, ?_⟩
  · exact ⟨_, _, exec_wrNib_up hr rs n, writeNibble_trace rs n s, writeNibbleTrace_rows hp ht rs n⟩
  · exact ⟨_, _, exec_rdNib_up hr rs, readNibble_trace rs s, readNibbleTrace_rows hp ht rs _⟩
  · obtain ⟨q, hrun, htrace, -, -⟩ := waitReady_spec s
    exact ⟨_, _, exec_waitReady_up hr, htrace, waitTrace_covers ht hrun⟩
  · obtain ⟨-, -, ⟨hpwr, hinit1, hinit2, hinit3⟩, -⟩ := ht
    obtain ⟨more, hmore⟩ := startUp_trace s
    refine ⟨_, [.delay .pwr], [.delay .init1], [.delay .init2], [.delay .init3], [.delay .init3], more,
      exec_startup_down hd ho, ?_, waitsFor_delay hpwr, waitsFor_delay hinit1, waitsFor_delay hinit2,
      waitsFor_delay hinit3, waitsFor_delay hinit3⟩
    rw [respond_trace, hmore]
    rfl
  · obtain ⟨-, -, -, hbusy, hpoll, hcount⟩ := ht
    exact ⟨hbusy, pollCount_covers hpoll (tBusyMax_pos hcount)⟩

end Sys2Proof.Machine

/-! ### The six commands as operations (42_display_commands.md R161 to R168) -/

namespace Sys2Proof.Machine

variable {s t : State}

/-! The command bytes as R97 adds them up. -/

theorem functionSetByte_eq {lines : Nat} (h : lines = 1 ∨ lines = 2) (font : Bool) :
    functionSetByte lines font = BitVec.ofNat 8 (0x20 + 8 * (lines - 1) + 4 * font.toNat) := by
  obtain rfl | rfl := h <;> cases font <;> rfl

theorem entryModeByte_eq (dir shift : Bool) :
    entryModeByte dir shift = BitVec.ofNat 8 (0x04 + 2 * dir.toNat + shift.toNat) := by
  cases dir <;> cases shift <;> rfl

theorem displayControlByte_eq (d c b : Bool) :
    displayControlByte d c b = BitVec.ofNat 8 (0x08 + 4 * d.toNat + 2 * c.toNat + b.toNat) := by
  cases d <;> cases c <;> cases b <;> rfl

/-- A 7-bit address leaves bit 7 to the command's own bit. -/
theorem setAddressByte_eq (a : Addr) : setAddressByte a = BitVec.ofNat 8 (0x80 + a.toNat) := by
  apply BitVec.eq_of_toNat_eq
  rw [setAddressByte, BitVec.toNat_or, BitVec.toNat_setWidth_of_le (by decide), BitVec.toNat_ofNat,
    Nat.mod_eq_of_lt (by omega)]
  exact (Nat.two_pow_add_eq_or_of_lt a.isLt 1).symm

/-- WAIT_READY, its value overwritten, then WR_BYTE: the state of `command`, answered (R161, R168). -/
theorem execAll_wait_then_wrByte (hr : s.life = .ready) (b : Byte) :
    execAll [.waitReady, .wrByte .cmd b] s = .next (respond .ok 0 (command b s)) := by
  have hr' : (respond .ok (timeoutValue (waitReady s).1) (waitReady s).2).life = .ready := by simpa using hr
  rw [execAll_cons (exec_waitReady_up hr), execAll_cons (exec_wrByte_up hr' .cmd b), writeByte_respond]
  rfl

/-- Settles O21: `sent` is `command`, answered; each operation updates the mirror between `command` and the answer. -/
theorem commandsWaitThenWrite : Obligations.CommandsWaitThenWrite := by
  refine fun s hr => ⟨fun b => respond .ok 0 (command b s), execAll_wait_then_wrByte hr,
    fun lines font hl => ?_, fun dir shift => ?_, fun d c b => ?_, exec_clear_up hr, exec_home_up hr, fun a => ?_⟩
  · rw [← functionSetByte_eq hl]
    exact exec_functionSet_up hr lines font
  · rw [← entryModeByte_eq]
    exact exec_entryMode_up hr dir shift
  · rw [← displayControlByte_eq]
    exact exec_displayControl_up hr d c b
  · rw [← setAddressByte_eq]
    exact exec_setAddress_up hr a

/-- What was sent does not show in the cursor, the display flags, the answer or the sequencer. -/
theorem ByteSent.mirrored {rs : RegSel} {b : Byte} (h : ByteSent s t rs b) (cursor : Addr)
    (displayOn cursorVisible blinkOn : Bool) (response : Option Response) (seq : Seq) :
    ByteSent s { t with cursor, displayOn, cursorVisible, blinkOn, response, seq } rs b := by
  obtain ⟨⟨q, timedOut, hrun, htrace, hflag, hused⟩, hlines, hdata⟩ := h
  exact ⟨⟨q, timedOut, hrun, htrace, hflag, hused.congr rfl rfl rfl⟩, hlines, hdata⟩

/-- Settles O22: both are `command` alone. -/
theorem functionSetAndEntryMode : Obligations.FunctionSetAndEntryMode := by
  refine fun s hr hp => ⟨fun lines font hl => ?_, fun dir shift => ?_⟩
  · rw [← functionSetByte_eq hl]
    exact ⟨_, exec_functionSet_up hr lines font, ⟨rfl, rfl⟩, (command_sent _ hr hp).mirrored ..,
      (command_busFrame _ s).answer _ _⟩
  · rw [← entryModeByte_eq]
    exact ⟨_, exec_entryMode_up hr dir shift, ⟨rfl, rfl⟩, (command_sent _ hr hp).mirrored ..,
      (command_busFrame _ s).answer _ _⟩

/-- Settles O23: the flags are written on top of `command`, whatever its wait found. -/
theorem displayControl_holds : Obligations.DisplayControl := by
  intro s d c b hr hp
  have hf := command_busFrame (displayControlByte d c b) s
  rw [← displayControlByte_eq]
  exact ⟨_, exec_displayControl_up hr d c b, ⟨rfl, rfl⟩, (command_sent _ hr hp).mirrored .., rfl, rfl, rfl,
    (displayControl_edits d c b s).frame.trans (respond_busFrame _ _ _).toHostFrame, hf.parseMode, hf.cursor,
    hf.assertOow⟩

/-- The answer is outside the frame of the moves before it. -/
theorem Moves.frame_answer (h : Moves s t) (c : Code) (v : BitVec 32) : MoveFrame s (respond c v t) :=
  h.frame.trans (respond_busFrame c v t).toMoveFrame

/-- Settles O24: each writes `CURSOR` on top of `command`; WF4 makes `BASE[0]` the address 0x00. -/
theorem clearHomeSetAddress : Obligations.ClearHomeSetAddress := by
  refine fun s hr hp => ⟨?_, fun hg => ?_, fun a => ?_⟩
  · exact ⟨_, exec_clear_up hr, ⟨rfl, rfl⟩, (command_sent _ hr hp).mirrored .., rfl,
      (clear_moves s).frame_answer _ _, (command_busFrame clearByte s).assertOow⟩
  · obtain ⟨-, -, -, hbase, -⟩ := hg
    have hcursor : (home s).cursor = 0x00 := congrArg (BitVec.ofNat 7) hbase
    refine ⟨_, exec_home_up hr, ⟨rfl, rfl⟩, (command_sent _ hr hp).mirrored .., ?_, hcursor,
      (home_moves s).frame_answer _ _, (command_busFrame homeByte s).assertOow⟩
    rw [respond_cursor, hcursor, hbase]
    rfl
  · rw [← setAddressByte_eq]
    exact ⟨_, exec_setAddress_up hr a, ⟨rfl, rfl⟩, (command_sent _ hr hp).mirrored .., rfl,
      (setAddress_moves a s).frame_answer _ _, (command_busFrame _ s).assertOow⟩

end Sys2Proof.Machine

/-! ### STARTUP's sequence and events (42_display_commands.md R172, 45_host.md R262) -/

namespace Sys2Proof.Machine

variable {s t u : State} {n : Nat} {es : List Event}

/-- From `s` to `t` only the two registers, the trace and the input of other consumers' writes changed. -/
def PinsOnly (s t : State) : Prop :=
  t = { s with out := t.out, dir := t.dir, foreign := t.foreign, trace := t.trace }

theorem PinsOnly.trans (h : PinsOnly s t) (h' : PinsOnly t u) : PinsOnly s u := by
  unfold PinsOnly at *
  rw [h', h]

theorem foreignMove_pinsOnly (s : State) : PinsOnly s (foreignMove s) := by
  unfold PinsOnly foreignMove
  split <;> rfl

theorem pinSet_pinsOnly (a b : Word) (s : State) : PinsOnly s (pinSet a b s) :=
  (foreignMove_pinsOnly s).trans rfl

theorem delay_pinsOnly (d : DelayName) (s : State) : PinsOnly s (delay d s) := rfl

theorem writeNibble_pinsOnly (rs : RegSel) (n : Nibble) (s : State) : PinsOnly s (writeNibble rs n s) := by
  unfold writeNibble
  exact ((((((pinSet_pinsOnly _ _ s).trans (pinSet_pinsOnly _ _ _)).trans (delay_pinsOnly _ _)).trans
    (pinSet_pinsOnly _ _ _)).trans (delay_pinsOnly _ _)).trans (delay_pinsOnly _ _)).trans
    ((pinSet_pinsOnly _ _ _).trans (delay_pinsOnly _ _))

theorem handshake_pinsOnly (s : State) : PinsOnly s (handshake s) := by
  have hn : ∀ d n u, PinsOnly u (delay d (writeNibble .cmd n u)) := fun d n u =>
    (writeNibble_pinsOnly .cmd n u).trans (delay_pinsOnly d _)
  unfold handshake
  exact ((pinSet_pinsOnly _ _ s).trans (delay_pinsOnly .pwr _)).trans
    (((hn .init1 _ _).trans (hn .init2 _ _)).trans ((hn .init3 _ _).trans (hn .init3 _ _)))

/-- STARTUP's acquisition is the reset of the mirror, but for what other consumers did to the registers (R262). -/
theorem acquire_pinsOnly (s : State) : PinsOnly (clearMirror (setLife .ready s)) (acquire s) :=
  congrArg (fun u => clearMirror (setLife .ready u)) (foreignMove_pinsOnly s)

/-- The state in which STARTUP's five commands begin. -/
theorem handshake_acquire_eq (s : State) : handshake (acquire s) =
    { s with
      life := .ready, session := false, parseMode := .normal, cursor := 0x00
      displayOn := false, cursorVisible := false, blinkOn := false, timeoutSeen := false, assertOow := false
      out := (handshake (acquire s)).out, dir := (handshake (acquire s)).dir
      foreign := (handshake (acquire s)).foreign, trace := s.trace ++ handshakeTrace s.cfg } := by
  have htrace : s.trace ++ handshakeTrace s.cfg = (handshake (acquire s)).trace := by
    rw [handshake_trace, acquire_trace, acquire_cfg]
  rw [htrace]
  exact (acquire_pinsOnly s).trans (handshake_pinsOnly (acquire s))

/-- Steps P6 to P10 of the power-on sequence as operations (R172). -/
def powerOnCommands (c : Config) : List Instr :=
  [.functionSet c.fsLines c.fsFont, .displayControl false false false, .clear, .entryMode true false,
    .displayControl true false false]

/-- An operation that does `op` and answers OK, carried out after such an answer (30_encoding.md R96). -/
theorem execAll_cons_answered {i : Instr} {op : State → State} {is : List Instr}
    (hexec : ∀ u : State, u.life = .ready → exec i u = .next (respond .ok 0 (op u)))
    (hrespond : ∀ u, op (respond .ok 0 u) = respond .ok 0 (op u)) (hr : s.life = .ready) :
    execAll (i :: is) (respond .ok 0 s) = execAll is (respond .ok 0 (op s)) := by
  rw [execAll_cons (hexec (respond .ok 0 s) hr), hrespond, respond_respond]

/-- After the handshake the power-on sequence is five operations, each answered (R172). -/
theorem execAll_powerOnCommands (hr : s.life = .ready) :
    execAll (powerOnCommands s.cfg) (handshake s) = .next (respond .ok 0 (powerOnSequence s)) := by
  have h₀ : (handshake s).life = .ready := (handshake_busFrame s).life.trans hr
  have h₁ : (functionSet s.cfg.fsLines s.cfg.fsFont (handshake s)).life = .ready := (command_life _ _).trans h₀
  have h₂ := (displayControl_edits false false false _).frame.life.trans h₁
  have h₃ := (clear_moves _).frame.life.trans h₂
  have h₄ : (entryMode true false _).life = .ready := (command_life _ _).trans h₃
  rw [powerOnCommands, execAll_cons (exec_functionSet_up h₀ _ _),
    execAll_cons_answered (fun _ h => exec_displayControl_up h _ _ _) (displayControl_respond _ _ _ _ _) h₁,
    execAll_cons_answered (fun _ => exec_clear_up) (clear_respond _ _) h₂,
    execAll_cons_answered (fun _ h => exec_entryMode_up h _ _) (entryMode_respond _ _ _ _) h₃,
    execAll_cons_answered (fun _ h => exec_displayControl_up h _ _ _) (displayControl_respond _ _ _ _ _) h₄]
  rfl

/-- Characters after an answer, one operation each, end in that answer (R199). -/
theorem execAll_chars_answered (bs : List Byte) (hr : s.life = .ready) :
    execAll (bs.map .putChar) (respond .ok 0 s) = .next (respond .ok 0 (putChars bs s)) := by
  induction bs generalizing s with
  | nil => rfl
  | cons b bs ih =>
    rw [List.map_cons, execAll_cons_answered (fun _ h => exec_putChar_up h b) (putChar_respond _ _ b) hr,
      ih ((putChar_moves b s).frame.life.trans hr), putChars]

/-- Settles O42: `h` is the handshake on the reset mirror, the five commands end the power-on sequence, the characters
are the splash. -/
theorem startupSequence : Obligations.StartupSequence := by
  intro s hd ho hp
  have hcfg : (acquire s).cfg = s.cfg := acquire_cfg s
  have hr : (powerOnSequence (acquire s)).life = .ready :=
    ((powerOn_edits _).frame.life.trans (handshake_busFrame _).life).trans rfl
  obtain ⟨hlines, hdata⟩ := handshake_pins (s := acquire s) rfl (by rw [hcfg]; exact hp)
  have hcommands := execAll_powerOnCommands (s := acquire s) rfl
  rw [hcfg] at hcommands
  have hsplash : startUp s = putChars (s.cfg.splash.take (4 * s.cfg.lineLen)) (powerOnSequence (acquire s)) := by
    rw [startUp, putString, (powerOn_edits _).frame.cfg, handshake_cfg, hcfg]
    rfl
  refine ⟨handshake (acquire s), _, hlines, hdata, handshake_acquire_eq s, ?_, exec_startup_down hd ho⟩
  rw [hsplash, ← execAll_chars_answered _ hr]
  exact execAll_append _ _ hcommands

/-- From `s` to `t` the block made `n` status reads of a ready LCD and `es` are all its events, no timeout declared. -/
structure ReadyRun (s t : State) (n : Nat) (es : List Event) : Prop where
  trace : t.trace = s.trace ++ es
  timeoutSeen : t.timeoutSeen = false
  used : SamplesUsed s t (2 * n)
  cfg : t.cfg = s.cfg

/-- A command to an LCD that is ready at the next status read (R161, R351). -/
theorem ReadyRun.command (h : ReadyRun s t n es) (hready : busyAnswer s.cfg (statusAt s n) = false) (b : Byte) :
    ReadyRun s (command b t) (n + 1) (es ++ commandTrace s.cfg (statusAt s n) b) := by
  have hstatus : statusAt t 0 = statusAt s n := statusAt_shift n 0 h.used.samples h.used.sampleCount h.cfg
  rw [← hstatus, ← h.cfg] at hready
  obtain ⟨htrace, hflag, hused⟩ := command_of_ready b hready
  refine ⟨?_, hflag.trans h.timeoutSeen, h.used.trans hused h.cfg, (command_cfg b t).trans h.cfg⟩
  rw [htrace, h.trace, hstatus, h.cfg, List.append_assoc]

theorem ReadyRun.setCursor (h : ReadyRun s t n es) (a : Addr) : ReadyRun s (setCursor a t) n es :=
  ⟨h.trace, h.timeoutSeen, h.used.congr rfl rfl rfl, h.cfg⟩

theorem ReadyRun.displayControl (h : ReadyRun s t n es) (hready : busyAnswer s.cfg (statusAt s n) = false)
    (d c b : Bool) : ReadyRun s (displayControl d c b t) (n + 1)
      (es ++ commandTrace s.cfg (statusAt s n) (displayControlByte d c b)) :=
  have h := h.command hready (displayControlByte d c b)
  ⟨h.trace, h.timeoutSeen, h.used.congr rfl rfl rfl, h.cfg⟩

/-- The handshake reads no status (R172). -/
theorem handshake_readyRun (s : State) : ReadyRun s (handshake (acquire s)) 0 (handshakeTrace s.cfg) := by
  rw [handshake_acquire_eq]
  exact ⟨rfl, rfl, (SamplesUsed.refl s).congr rfl rfl rfl, rfl⟩

/-- The power-on sequence with an LCD that is ready five times (R172). -/
theorem powerOnSequence_readyRun (hl : s.cfg.fsLines = 1 ∨ s.cfg.fsLines = 2) (hready : ReadyFor s 5) :
    ReadyRun s (powerOnSequence (acquire s)) 5 (powerOnTrace s) := by
  have h₀ := handshake_readyRun s
  have h₁ := h₀.command (hready 0 (by decide)) (functionSetByte s.cfg.fsLines s.cfg.fsFont)
  have h₂ := h₁.displayControl (hready 1 (by decide)) false false false
  have h₃ := (h₂.command (hready 2 (by decide)) clearByte).setCursor 0x00
  have h₄ := h₃.command (hready 3 (by decide)) (entryModeByte true false)
  have h₅ := h₄.displayControl (hready 4 (by decide)) true false false
  rw [powerOnSequence, acquire_cfg, powerOnTrace, ← functionSetByte_eq hl]
  exact h₅

theorem handshakeTrace_length (c : Config) : (handshakeTrace c).length = 38 := rfl

theorem commandTrace_length (c : Config) (status : Word × Word) (b : Byte) :
    (commandTrace c status b).length = 30 := rfl

theorem powerOnTrace_length (s : State) : (powerOnTrace s).length = 188 := by
  simp only [powerOnTrace, List.length_append, handshakeTrace_length, commandTrace_length]

/-- Settles O43: without a splash STARTUP is the power-on sequence. -/
theorem startupTrace : Obligations.StartupTrace := by
  intro s hd ho hsplash hl hready
  have hrun := powerOnSequence_readyRun hl hready
  have hstart : startUp s = powerOnSequence (acquire s) := by
    rw [startUp, putString, hsplash, List.take_nil, putChars]
  refine ⟨_, exec_startup_down hd ho, ⟨rfl, rfl⟩, ?_⟩
  rw [hstart]
  exact ⟨hrun.trace, powerOnTrace_length s, hrun.timeoutSeen, hrun.used.answer _ _⟩

end Sys2Proof.Machine

/-! ### Lines, columns and the two steps as operations (43_position.md R190 to R195) -/

namespace Sys2Proof.Machine

variable {c : Config} {s : State}

/-- Settles O25: one window holds a position at most, and the side effect follows whether one does. -/
theorem lineAndColumn : Obligations.LineAndColumn := fun _ hg =>
  ⟨fun _ _ hl hw => ⟨lineOf_of_window hg hl hw, colOf_of_window hg hl hw⟩, fun _ => lineOf_of_out, fun _ => rfl,
    noteLine_of_windowed hg, noteLine_of_out⟩

/-- SET_ADDRESS of a 7-bit address, as the wrap of a step sends it (R167, R192, R193). -/
theorem exec_setAddress_sent (hr : s.life = .ready) (hp : s.cfg.PinsOk) {p : Nat} (h : p < 128) :
    ∃ t, exec (.setAddress (addrOf p)) s = .next t ∧ AnsweredWith t .ok 0 ∧
      ByteSent s t .cmd (BitVec.ofNat 8 (0x80 + p)) ∧ t.cursor.toNat = p ∧ MoveFrame s t ∧
      t.assertOow = s.assertOow := by
  obtain ⟨-, -, hset⟩ := clearHomeSetAddress s hr hp
  obtain ⟨t, hexec, hanswer, hsent, hcursor, hframe⟩ := hset (addrOf p)
  rw [addrOf_toNat h] at hsent
  exact ⟨t, hexec, hanswer, hsent, by rw [hcursor, addrOf_toNat h], hframe⟩

/-- Settles O26: at a line's end ADVANCE is SET_ADDRESS of the next base; elsewhere nothing is sent. -/
theorem advance_holds : Obligations.Advance := by
  intro s hr hp hg
  rw [exec_advance_up hr]
  refine ⟨fun l hl hw => ⟨fun hin => ?_, fun hend => ?_⟩, fun hout => ?_⟩
  · rw [advance_inside hg hl hw hin]
    rfl
  · have hwindow := window_le hg (Nat.mod_lt (l + 1) (lines_pos hg))
    have hpos := lineLen_pos hg
    rw [advance_boundary hg hl hend, ← exec_setAddress_up hr]
    exact exec_setAddress_sent hr hp (by omega)
  · rw [advance_out hg hout]
    rfl

theorem previousLine_eq (hg : c.GeometryOk) {l : Nat} (hl : l < c.nLines) :
    previousLine c l = if l = 0 then c.nLines - 1 else l - 1 := by
  cases l with
  | zero => exact previousLine_zero hg
  | succ l => exact previousLine_succ hl

/-- Settles O27: at a line's base RETREAT is SET_ADDRESS of the last column of the line before; elsewhere nothing is
sent. -/
theorem retreat_holds : Obligations.Retreat := by
  intro s hr hp hg
  rw [exec_retreat_up hr]
  refine ⟨fun l hl hw => ⟨fun hin => ?_, fun hbase => ?_⟩, fun hout => ?_⟩
  · rw [retreat_inside hg hl hw hin]
    rfl
  · have hwindow := window_le hg (previousLine_lt hg l)
    have hpos := lineLen_pos hg
    rw [retreat_boundary hg hl hbase, ← exec_setAddress_up hr, ← previousLine_eq hg hl]
    obtain ⟨t, hexec, hanswer, hsent⟩ := exec_setAddress_sent hr hp
      (p := s.cfg.baseOf (previousLine s.cfg l) + s.cfg.lineLen - 1) (by omega)
    exact ⟨t, _, hexec, hanswer, rfl, hsent⟩
  · rw [retreat_out hg hout]
    rfl

theorem colOf_lt_128 (hg : c.GeometryOk) (p : Nat) : colOf c p < 128 := by
  have := colOf_lt hg p
  have := window_le hg (lines_pos hg)
  omega

/-- The packing of R96, as a sum. -/
theorem xyValue_eq {x : Nat} (h : x < 256) (y : Nat) : xyValue x y = BitVec.ofNat 32 (y * 256 + x) := by
  rw [xyValue, ← Nat.shiftLeft_add_eq_or_of_lt (show x < 2 ^ 8 from h), Nat.shiftLeft_eq]

/-- Settles O29: the answer packs column and line; only asking for the line can leave a mark. -/
theorem getXy_holds : Obligations.GetXy := by
  intro s hr hg
  have hcol : (getXy s).1.1 < 256 := (colOf_lt_128 hg _).trans (by decide)
  rw [exec_getXy_up hr, xyValue_eq hcol, getXy]
  refine ⟨fun l hl hw => ?_, fun hout => ?_⟩
  · rw [lineOf_of_window hg hl hw, colOf_of_window hg hl hw, noteLine_of_windowed hg ⟨l, hl, hw⟩]
    rfl
  · rw [lineOf_of_out hout, noteLine_of_out hout, Nat.zero_mul, Nat.zero_add]
    rfl

end Sys2Proof.Machine

/-! ### Walks of many steps (43_position.md R194) -/

namespace Sys2Proof.Machine

variable {c : Config} {s : State}

theorem cellPlus_zero {i : Nat} (hi : i < c.total) : cellPlus c i 0 = i := by
  rw [← Int.natCast_zero, cellPlus_ofNat, Nat.add_zero, Nat.mod_eq_of_lt hi]

theorem cellPlus_cellPlus (hg : c.GeometryOk) (i : Nat) (d e : Int) :
    cellPlus c (cellPlus c i d) e = cellPlus c i (d + e) := by
  have htotal : (c.total : Int) ≠ 0 := by exact_mod_cast (total_pos hg).ne'
  have hcast : (cellPlus c i d : Int) = ((i : Int) + d) % c.total := Int.toNat_of_nonneg (Int.emod_nonneg _ htotal)
  rw [cellPlus, hcast, Int.emod_add_emod, Int.add_assoc]
  rfl

/-- A walk whose step at the last of `LINE_LEN` phases sends one command and begins again, and at every other phase
sends nothing, sends as many commands as it completes rounds (R194). -/
theorem repeatOp_count {op : State → State} (phase : Config → Nat → Nat)
    (hphase : ∀ c : Config, c.GeometryOk → ∀ p, phase c p < c.lineLen)
    (hstays : ∀ s : State, s.cfg.GeometryOk → CursorWindowed s → StaysIn s (op s))
    (hstep : ∀ s : State, s.cfg.GeometryOk → CursorWindowed s → ∃ es, (op s).trace = s.trace ++ es ∧
      es.count (.delay .wHold) = 2 * ((phase s.cfg s.cursor.toNat + 1) / s.cfg.lineLen) ∧
      phase s.cfg (op s).cursor.toNat = (phase s.cfg s.cursor.toNat + 1) % s.cfg.lineLen)
    (k : Nat) (hg : s.cfg.GeometryOk) (h : CursorWindowed s) : ∃ es, (repeatOp op k s).trace = s.trace ++ es ∧
      es.count (.delay .wHold) = 2 * ((phase s.cfg s.cursor.toNat + k) / s.cfg.lineLen) := by
  induction k generalizing s with
  | zero => exact ⟨[], (List.append_nil _).symm, by rw [Nat.add_zero, Nat.div_eq_of_lt (hphase _ hg _)]; rfl⟩
  | succ k ih =>
    obtain ⟨es, htrace, hcount, hnext⟩ := hstep s hg h
    have hin := hstays s hg h
    obtain ⟨es', htrace', hcount'⟩ := ih (hin.geometry hg) hin.windowed
    rw [hin.cfg, hnext] at hcount'
    refine ⟨es ++ es', by rw [repeatOp, htrace', htrace, List.append_assoc], ?_⟩
    generalize phase s.cfg s.cursor.toNat = x at hcount hcount' ⊢
    have hsplit : x + (k + 1) = s.cfg.lineLen * ((x + 1) / s.cfg.lineLen) + ((x + 1) % s.cfg.lineLen + k) := by
      have := Nat.div_add_mod (x + 1) s.cfg.lineLen
      omega
    rw [List.count_append, hcount, hcount', hsplit, Nat.mul_add_div (lineLen_pos hg), Nat.mul_add]

/-- The commands of `k` advances: the phase is the column (R194). -/
theorem advances_count (k : Nat) (hg : s.cfg.GeometryOk) (h : CursorWindowed s) :
    ∃ es, (repeatOp advance k s).trace = s.trace ++ es ∧
      es.count (.delay .wHold) = 2 * ((colOf s.cfg s.cursor.toNat + k) / s.cfg.lineLen) := by
  refine repeatOp_count colOf (fun _ => colOf_lt) (fun _ => advance_stays) (fun s hg h => ?_) k hg h
  obtain ⟨es, htrace, hcases⟩ := advance_count hg h
  have hlt := colOf_lt hg s.cursor.toNat
  refine ⟨es, htrace, ?_⟩
  split at hcases
  · next hend =>
    rw [hend, Nat.div_self (lineLen_pos hg), Nat.mod_self]
    exact hcases
  · obtain ⟨rfl, hcol⟩ := hcases
    rw [Nat.div_eq_of_lt (by omega), Nat.mod_eq_of_lt (by omega)]
    exact ⟨rfl, hcol⟩

/-- The commands of `k` retreats: the phase is the number of columns to the right (R194). -/
theorem retreats_count (k : Nat) (hg : s.cfg.GeometryOk) (h : CursorWindowed s) :
    ∃ es, (repeatOp retreat k s).trace = s.trace ++ es ∧
      es.count (.delay .wHold) = 2 * ((s.cfg.lineLen - 1 - colOf s.cfg s.cursor.toNat + k) / s.cfg.lineLen) := by
  refine repeatOp_count (fun c p => c.lineLen - 1 - colOf c p) (fun c hg p => ?_) (fun _ => retreat_stays)
    (fun s hg h => ?_) k hg h
  · have := lineLen_pos hg
    omega
  obtain ⟨es, htrace, hcases⟩ := retreat_count hg h
  have hlt := colOf_lt hg s.cursor.toNat
  refine ⟨es, htrace, ?_⟩
  split at hcases
  · next hbase =>
    obtain ⟨hcount, hcol⟩ := hcases
    rw [hcol, hbase, Nat.sub_zero, Nat.sub_self, Nat.sub_add_cancel (lineLen_pos hg),
      Nat.div_self (lineLen_pos hg), Nat.mod_self]
    exact ⟨hcount, rfl⟩
  · obtain ⟨rfl, hcol⟩ := hcases
    rw [Nat.div_eq_of_lt (by omega), Nat.mod_eq_of_lt (by omega)]
    exact ⟨rfl, by omega⟩

theorem stepBy_one (s : State) : stepBy 1 s = advance s := rfl

theorem stepBy_neg_one (s : State) : stepBy (-1) s = retreat s := rfl

/-- Two walks, one after the other, come back when their deltas cancel (R194). -/
theorem stepBy_stepBy_cursor {d e : Int} (hde : d + e = 0) (hg : s.cfg.GeometryOk) (h : CursorWindowed s) :
    (stepBy e (stepBy d s)).cursor = s.cursor := by
  have hin := stepBy_stays d hg h
  apply BitVec.eq_of_toNat_eq
  rw [stepBy_cell e (hin.geometry hg) hin.windowed, hin.cfg, stepBy_cell d hg h,
    cellOf_physOf hg (cellPlus_lt hg _ _), cellPlus_cellPlus hg, hde, cellPlus_zero (cellOf_lt hg h),
    physOf_cellOf hg h]

/-- Two operations, the second of which does `op` and answers OK whatever was answered before. -/
theorem execAll_pair {i j : Instr} {t : State} {op : State → State} (hi : exec i s = .next (respond .ok 0 t))
    (hj : ∀ u : State, u.life = .ready → exec j u = .next (respond .ok 0 (op u)))
    (hrespond : ∀ u, op (respond .ok 0 u) = respond .ok 0 (op u)) (ht : t.life = .ready) :
    execAll [i, j] s = .next (respond .ok 0 (op t)) := by
  rw [execAll_cons hi, execAll_cons_answered hj hrespond ht]
  rfl

/-- Settles O28: the walk of a signed delta gives the cell, the rounds of the column give the commands. -/
theorem stepsClosedForm : Obligations.StepsClosedForm := by
  intro s k hr hg h i x
  have hcell : ∀ {t : State} {d : Int}, t.cursor.toNat = physOf s.cfg (cellPlus s.cfg i d) →
      cellOf s.cfg t.cursor.toNat = cellPlus s.cfg i d := fun ht => by rw [ht, cellOf_physOf hg (cellPlus_lt hg _ _)]
  have hadvance : (advance s).life = .ready := (advance_moves s).frame.life.trans hr
  have hretreat : (retreat s).life = .ready := (retreat_moves s).frame.life.trans hr
  have hback : (retreat (advance s)).cursor = s.cursor := by
    rw [← stepBy_one, ← stepBy_neg_one, stepBy_stepBy_cursor rfl hg h]
  have hforth : (advance (retreat s)).cursor = s.cursor := by
    rw [← stepBy_neg_one, ← stepBy_one, stepBy_stepBy_cursor rfl hg h]
  refine ⟨?_, ?_,
    ⟨_, execAll_pair (exec_advance_up hr) (fun _ => exec_retreat_up) (retreat_respond _ _) hadvance, hback⟩,
    ⟨_, execAll_pair (exec_retreat_up hr) (fun _ => exec_advance_up) (advance_respond _ _) hretreat, hforth⟩⟩
  · obtain ⟨t, hexec, ht⟩ := execAll_advances k hr
    obtain ⟨-, hcursor, htrace, -⟩ := eq_of_respond ht
    obtain ⟨es, hes, hcount⟩ := advances_count k hg h
    have hlands : t.cursor.toNat = physOf s.cfg (cellPlus s.cfg i k) := by
      rw [hcursor, cellPlus_ofNat, advances_cell k hg h]
    exact ⟨t, es, hexec, hlands, hcell hlands, htrace.trans hes, hcount⟩
  · obtain ⟨t, hexec, ht⟩ := execAll_retreats k hr
    obtain ⟨-, hcursor, htrace, -⟩ := eq_of_respond ht
    obtain ⟨es, hes, hcount⟩ := retreats_count k hg h
    have hlands : t.cursor.toNat = physOf s.cfg (cellPlus s.cfg i (-(k : Int))) := by
      rw [hcursor, cellPlus_neg hg, retreats_cell k hg h]
    rw [Nat.add_comm] at hcount
    exact ⟨t, es, hexec, hlands, hcell hlands, htrace.trans hes, hcount⟩

end Sys2Proof.Machine

/-! ### GOTO_XY as steps, and where it lands (43_position.md R196, R197) -/

namespace Sys2Proof.Machine

variable {c : Config} {s t : State}

theorem exec_gotoXy_rel_up (hr : s.life = .ready) (x y : Int) :
    exec (.gotoXy x y .rel) s = .next (respond .ok 0 (moveBy (y * s.cfg.lineLen + x) s)) := by
  rw [exec_gotoXy_up hr, gotoXy_rel]
  rfl

theorem exec_gotoXy_abs_up (hr : s.life = .ready) {x y : Int} (h : IndexOk s.cfg (y * s.cfg.lineLen + x)) :
    exec (.gotoXy x y .abs) s = .next (respond .ok 0 (moveBy (y * s.cfg.lineLen + x) (home s))) := by
  rw [exec_gotoXy_up hr, gotoXy_abs x y h]
  rfl

/-- When the steps of a delta other than 0 have led to `t`, but for the answer, the move is SET_ADDRESS there (R196). -/
theorem moveBy_eq_setAddress {d : Int} (hd : d ≠ 0) (hr : s.life = .ready)
    (ht : ∀ c v, respond c v t = respond c v (stepBy d s)) :
    .next (respond .ok 0 (moveBy d s)) = exec (.setAddress t.cursor) t := by
  obtain ⟨hlife, hcursor, -⟩ := eq_of_respond ht
  have hready : t.life = .ready := hlife.trans ((stepBy_moves d s).frame.life.trans hr)
  rw [exec_setAddress_up hready, ← setAddress_respond, ht, setAddress_respond, hcursor, moveBy, if_neg hd]

/-- Settles O31: the steps are those of the move but for the answers, which the last one overwrites. -/
theorem gotoXyIsSteps : Obligations.GotoXyIsSteps := by
  intro s x y hr d
  refine ⟨?_, fun h0 htotal => ?_⟩
  · obtain ⟨t, hexec, ht⟩ := execAll_steps d hr
    rw [exec_gotoXy_rel_up hr]
    refine ⟨t, hexec, fun hd => ?_, fun hd => moveBy_eq_setAddress hd hr ht⟩
    rw [moveBy, if_pos hd, ← ht]
    rfl
  · have hhome : (home s).life = .ready := (home_moves s).frame.life.trans hr
    obtain ⟨t, hexec, ht⟩ := execAll_steps d (s := respond .ok 0 (home s)) hhome
    simp only [stepBy_respond, respond_respond] at ht
    rw [exec_gotoXy_abs_up hr ⟨h0, htotal⟩, execAll_cons (exec_home_up hr)]
    refine ⟨t, hexec, fun hd => ?_, fun hd => moveBy_eq_setAddress hd hhome ht⟩
    rw [hd] at hexec
    rw [moveBy, if_pos hd, show y * s.cfg.lineLen + x = 0 from hd]
    exact hexec

/-- From HOME the walk of an index in range ends at the cell of that index (R197). -/
theorem moveBy_home_cursor {n : Nat} (hg : s.cfg.GeometryOk) (hn : n < s.cfg.total) :
    (moveBy n (home s)).cursor.toNat = physOf s.cfg n := by
  have hin := home_stays hg
  rw [moveBy_cell n (hin.geometry hg) hin.windowed, hin.cfg, home_cursor hg]
  show physOf s.cfg (cellPlus s.cfg (cellOf s.cfg 0) n) = _
  rw [cellOf_zero hg, cellPlus_ofNat, Nat.zero_add, Nat.mod_eq_of_lt hn]

/-- GET_XY at the position of cell `n` answers its row and column (R195). -/
theorem exec_getXy_phys {n : Nat} (hr : s.life = .ready) (hc : s.cfg = c) (hg : c.GeometryOk) (hn : n < c.total)
    (h : s.cursor.toNat = physOf c n) :
    exec .getXy s = .next (answered s .ok (BitVec.ofNat 32 (n / c.lineLen * 256 + n % c.lineLen))) := by
  subst hc
  obtain ⟨hin, -⟩ := getXy_holds s hr hg
  rw [hin _ (row_col_of_lt hn).1 (h ▸ physOf_inWindow hn), h, physOf, Nat.add_sub_cancel_left]

/-- Settles O32: the walk starts from cell 0, or from the cursor's cell; the quotient and remainder of the index are `y`
and `x` when `x` is a remainder. -/
theorem gotoXyLands : Obligations.GotoXyLands := by
  intro s x y hr hg i
  refine ⟨fun h0 htotal => ⟨?_, ?_⟩, fun h => ?_⟩
  · have hexec := exec_gotoXy_abs_up hr (x := x) (y := y) ⟨h0, htotal⟩
    have hmoves := (home_moves s).trans (moveBy_moves i (home s))
    have hin := (home_stays hg).trans (moveBy_stays i ((home_stays hg).geometry hg) (home_stays hg).windowed)
    obtain ⟨n, hn⟩ : ∃ n : Nat, i = n := Int.eq_ofNat_of_zero_le h0
    have hlt : n < s.cfg.total := by omega
    have hcursor : (moveBy i (home s)).cursor.toNat = physOf s.cfg n := by rw [hn, moveBy_home_cursor hg hlt]
    have hxy := exec_getXy_phys (s := respond .ok 0 (moveBy i (home s))) (hmoves.frame.life.trans hr)
      hin.cfg hg hlt hcursor
    have hrow : i / s.cfg.lineLen = (n / s.cfg.lineLen : Nat) := by rw [hn, Int.natCast_ediv]
    have hcol : i % s.cfg.lineLen = (n % s.cfg.lineLen : Nat) := by rw [hn, Int.natCast_emod]
    refine ⟨_, hexec, ⟨rfl, rfl⟩, ?_, ?_, hmoves.frame_answer _ _, hin.assertOow⟩
    · rw [hrow, hcol, Int.toNat_natCast, Int.toNat_natCast]
      exact hcursor
    · rw [hrow, hcol, hxy, ← BitVec.ofInt_natCast]
      norm_cast
  · have hpos : (0 : Int) < s.cfg.lineLen := by exact_mod_cast lineLen_pos hg
    rw [and_comm, Int.ediv_emod_unique hpos]
    exact and_iff_right (by rw [Int.mul_comm, Int.add_comm])
  · exact ⟨_, exec_gotoXy_rel_up hr x y, ⟨rfl, rfl⟩, moveBy_cell i hg h, (moveBy_moves i s).frame_answer _ _,
      (moveBy_stays i hg h).assertOow⟩

end Sys2Proof.Machine

/-! ### Characters as operations (43_position.md R198 to R200) -/

namespace Sys2Proof.Machine

variable {s : State}

/-- WAIT_READY and WR_BYTE data, then ADVANCE, each overwriting the answer before: PUT_CHAR's state, answered (R198). -/
theorem execAll_wait_wrByte_advance (hr : s.life = .ready) (b : Byte) :
    execAll [.waitReady, .wrByte .data b, .advance] s = .next (respond .ok 0 (putChar b s)) := by
  have hwait : (respond .ok (timeoutValue (waitReady s).1) (waitReady s).2).life = .ready := by simpa using hr
  have hsent : (writeByte .data b (waitReady s).2).life = .ready :=
    (Moves.refl.character b).frame.life.trans hr
  rw [execAll_cons (exec_waitReady_up hr), execAll_cons (exec_wrByte_up hwait .data b), writeByte_respond,
    respond_respond, execAll_cons_answered (fun _ => exec_advance_up) (advance_respond _ _) hsent]
  rfl

/-- Inside a row a character is its byte sent and the cursor incremented (R192, R198). -/
theorem putChar_inside (hg : s.cfg.GeometryOk) (h : CursorWindowed s)
    (hcol : colOf s.cfg s.cursor.toNat + 1 ≠ s.cfg.lineLen) (b : Byte) :
    putChar b s = setCursor (s.cursor + 1) (writeByte .data b (waitReady s).2) := by
  obtain ⟨l, hl, hw⟩ := h
  have hcfg := character_cfg b s
  have hcursor := character_cursor b s
  have hx := colOf_of_window hg hl hw
  rw [putChar, advance_inside (l := l), hcursor]
  · rwa [hcfg]
  · rwa [hcfg]
  · rwa [hcfg, hcursor]
  · rw [hcfg, hcursor]
    omega

/-- Settles O33: ADVANCE makes the one move, and inside a row it sends nothing after the byte. -/
theorem putChar_holds : Obligations.PutChar := by
  intro s b hr
  refine ⟨_, exec_putChar_up hr b, execAll_wait_wrByte_advance hr b, ⟨rfl, rfl⟩,
    (putChar_moves b s).frame_answer _ _, fun hg h => ⟨?_, (putChar_stays b hg h).assertOow, fun hp hcol => ?_⟩⟩
  · rw [respond_cursor, putChar_cell b hg h, ← cellPlus_ofNat]
    rfl
  · rw [putChar_inside hg h hcol]
    exact (waited_byteSent .data b hr hp).mirrored ..

theorem exec_putString_up (hr : s.life = .ready) {len : Nat} (h : len ≤ s.cfg.bufSize) :
    exec (.putString len) s = .next (respond .ok 0 (putString (s.buf.snapshot len) s)) := by
  rw [exec, execPutString, whenReady_up hr, if_pos h]
  rfl

theorem exec_putString_fault (hr : s.life = .ready) {len : Nat} (h : s.cfg.bufSize < len) :
    exec (.putString len) s = .next (answered s .errFault 0) := by
  rw [exec, execPutString, whenReady_up hr, if_neg (Nat.not_le.2 h)]
  rfl

/-- The characters written are the first `PUT_STRING_MAX` staged bytes (R199). -/
theorem putString_snapshot (m : Memory) (len : Nat) (s : State) : putString (m.snapshot len) s =
    putChars ((List.range (min len (4 * s.cfg.lineLen))).map (Memory.read m)) s := by
  rw [putString, Memory.snapshot, ← List.map_take, List.take_range, Nat.min_comm, Config.putStringMax]

/-- Settles O34: the characters, one PUT_CHAR each, leave what PUT_STRING leaves but for the answer. -/
theorem putStringIsPutChars : Obligations.PutStringIsPutChars := by
  refine fun s len hr => ⟨exec_putString_fault hr, fun hlen => ?_⟩
  rw [exec_putString_up hr hlen, putString_snapshot]
  obtain ⟨t, hexec, ht⟩ := execAll_chars ((List.range (min len (4 * s.cfg.lineLen))).map (Memory.read s.buf)) hr
  exact ⟨t, hexec, by rw [← ht]; rfl⟩

/-- Settles O35: each character moves the cursor as one ADVANCE does, and no byte is cut off. -/
theorem putStringRoundTrip : Obligations.PutStringRoundTrip := by
  intro s len hr hlen hmax
  obtain ⟨u, hadvances, hu⟩ := execAll_advances len hr
  obtain ⟨-, hcursor, -⟩ := eq_of_respond hu
  refine ⟨_, u, exec_putString_up hr hlen, hadvances, ?_, (putString_moves _ s).frame_answer _ _⟩
  rw [respond_cursor, hcursor, putString_snapshot, putChars_cursor, List.length_map, List.length_range,
    Nat.min_eq_left hmax]

end Sys2Proof.Machine

/-! ### The terminal layer's bytes as operations (44_terminal.md R231 to R240) -/

namespace Sys2Proof.Machine

variable {c : Config} {s t : State}

/-- A byte of the stream in `NORMAL` mode (R232). -/
theorem exec_termByte_normal (hr : s.life = .ready) (hs : s.session = true) (hm : s.parseMode = .normal) (b : Byte) :
    exec (.termByte b) s = .next (respond .ok 0 (normalByte b s)) := by
  rw [exec_termByte_up hr hs, termByte, hm]

/-- A byte of the stream in `ESCAPE_PENDING` mode: the mode is `NORMAL` first (R232). -/
theorem exec_termByte_escape (hr : s.life = .ready) (hs : s.session = true) (hm : s.parseMode = .escapePending)
    (b : Byte) : exec (.termByte b) s = .next (respond .ok 0 (escapeCode b (setParseMode .normal s))) := by
  rw [exec_termByte_up hr hs, termByte, hm]

/-- A relative move of the layer is GOTO_XY, which cannot fail (R232). -/
theorem exec_gotoXy_rel_moveCursor (hr : s.life = .ready) (x y : Int) :
    exec (.gotoXy x y .rel) s = .next (respond .ok 0 (moveCursor x y .rel s)) := exec_gotoXy_up hr x y .rel

theorem indexOk_origin (hg : c.GeometryOk) : IndexOk c (flatIndex c 0 0) := by
  have := total_pos hg
  rw [flatIndex, Int.zero_mul, Int.add_zero]
  omega

/-- The layer's absolute move is GOTO_XY (0, 0), which an admitted geometry lets succeed (R232, R238). -/
theorem exec_gotoXy_origin_moveCursor (hr : s.life = .ready) (hg : s.cfg.GeometryOk) :
    exec (.gotoXy 0 0 .abs) s = .next (respond .ok 0 (moveCursor 0 0 .abs s)) := by
  rw [exec_gotoXy_up hr, moveCursor, gotoXy_abs 0 0 (indexOk_origin hg)]

theorem exec_gotoXy_respond (hr : s.life = .ready) (x y : Int) (m : Mode) (code : Code) (v : BitVec 32) :
    exec (.gotoXy x y m) (respond code v s) = exec (.gotoXy x y m) s := by
  have hr' : (respond code v s).life = .ready := hr
  rw [exec_gotoXy_up hr, exec_gotoXy_up hr', gotoXy_respond, respond_respond]

/-- Settles O36: each byte is answered as the operation that it calls; the column asked for by the carriage return is
that of GET_XY, whose answer the move overwrites. -/
theorem normalBytes : Obligations.NormalBytes := by
  intro s hr hs hm
  have hget : (getXy s).2.life = .ready := (getXy_moves s).frame.life.trans hr
  simp only [exec_termByte_normal hr hs hm]
  refine ⟨rfl, (exec_gotoXy_rel_moveCursor hr 0 1).symm, (exec_gotoXy_rel_moveCursor hr (-1) 0).symm,
    ⟨_, exec_getXy_up hr, ?_⟩, fun b hesc hlf hbs hcr htab => ?_⟩
  · rw [exec_gotoXy_respond hget, exec_gotoXy_rel_moveCursor hget]
    rfl
  · rw [exec_putChar_up hr, normalByte, if_neg hesc, if_neg hlf, if_neg hcr, if_neg hbs, if_neg htab]

/-- The cursor after a number of spaces as operations is that after as many rounds of the tab's loop (R235). -/
theorem cursor_of_execAll_spaces (hr : s.life = .ready) {n : Nat}
    (h : execAll (List.replicate n [Instr.putChar 0x20, Instr.getXy]).flatten s = .next t) :
    t.cursor = (repeatOp spaceThenAsk n s).cursor := by
  obtain ⟨u, hexec, hu⟩ := execAll_spaces n hr
  obtain rfl : u = t := by simpa using hexec.symm.trans h
  obtain ⟨-, hcursor, -⟩ := eq_of_respond hu
  exact hcursor

theorem normalByte_tab (s : State) : normalByte 0x09 s = tabLoop 4 s := by
  rw [normalByte, if_neg (by decide), if_neg (by decide), if_neg (by decide), if_neg (by decide), if_pos rfl, tab]

/-- Settles O37: the loop's bound of four is never what ends it, and `n` is the number of its rounds. -/
theorem tabWritesSpaces : Obligations.TabWritesSpaces := by
  intro s hr hs hm hg spaces
  obtain ⟨n, hpos, hle, htab, hstop, hbefore⟩ := tabLoop_spec 4 hg (Nat.le_add_right _ _)
  obtain ⟨t, hexec, ht⟩ := execAll_spaces n hr
  refine ⟨n, t, hpos, hle, hexec, ?_, ?_, fun m u hm hlt hu => ?_⟩
  · rw [exec_termByte_normal hr hs hm, normalByte_tab, htab, ← ht]
    rfl
  · rw [cursor_of_execAll_spaces hr hexec]
    exact hstop
  · rw [cursor_of_execAll_spaces hr hu]
    exact hbefore m hm hlt

/-- Any other byte is logged and nothing else (R240). -/
theorem escapeCode_unknown {b : Byte}
    (hb : b ∉ [(0x61 : Byte), 0x62, 0x76, 0x56, 0x48, 0x4A, 0x42, 0x41, 0x44, 0x43]) (s : State) :
    escapeCode b s = log (.unknownEsc b) s := by
  simp only [List.mem_cons, List.not_mem_nil, or_false, not_or] at hb
  simp only [escapeCode, hb, if_false]

/-- Settles O38: the mode is written first, then each code is answered as the operation that it calls. -/
theorem escapeCodes : Obligations.EscapeCodes := by
  intro s hr hs hm u
  have hu : u.life = .ready := hr
  simp only [exec_termByte_escape hr hs hm]
  refine ⟨⟨?_, ?_, ?_, ?_⟩, fun hg => ⟨?_, _, exec_clear_up hu, ?_⟩, ⟨?_, ?_, ?_, ?_⟩, fun b hb => ?_⟩
  iterate 4 exact (exec_displayControl_up hu _ _ _).symm
  · exact (exec_gotoXy_origin_moveCursor hu hg).symm
  · have hclear := (clear_moves u).frame
    rw [exec_gotoXy_respond (hclear.life.trans hu)]
    exact (exec_gotoXy_origin_moveCursor (hclear.life.trans hu) (by rw [hclear.cfg]; exact hg)).symm
  iterate 4 exact (exec_gotoXy_rel_moveCursor hu _ _).symm
  · rw [escapeCode_unknown hb]
    rfl

/-- Settles O39: the mode after any byte is known, and every byte of the stream keeps the host's side. -/
theorem parserModes : Obligations.ParserModes := by
  intro s b hr hs
  refine ⟨_, exec_termByte_up hr hs b, ⟨rfl, rfl⟩, ?_, (termByte_edits b s).frame.trans
    (respond_busFrame _ _ _).toHostFrame⟩
  rw [respond_parseMode, termByte_parseMode]
  split
  · next h => exact iff_of_true rfl h
  · next h => exact iff_of_false nofun h


end Sys2Proof.Machine

/-! ### Where a byte leaves the cursor and the display flags (43_position.md R194, 44_terminal.md R232 to R240) -/

namespace Sys2Proof.Machine

variable {c : Config} {s : State}

theorem colOf_physOf (hg : c.GeometryOk) {i : Nat} (hi : i < c.total) : colOf c (physOf c i) = i % c.lineLen := by
  rw [colOf_of_window hg (row_col_of_lt hi).1 (physOf_inWindow hi), physOf, Nat.add_sub_cancel_left]

/-- The column after `k` advances: rows follow each other, and wrap as the cells do (R194). -/
theorem advances_col (k : Nat) (hg : s.cfg.GeometryOk) (h : CursorWindowed s) :
    colOf s.cfg (repeatOp advance k s).cursor.toNat = (colOf s.cfg s.cursor.toNat + k) % s.cfg.lineLen := by
  rw [advances_cell k hg h, colOf_physOf hg (Nat.mod_lt _ (total_pos hg)),
    Config.total, Nat.mod_mod_of_dvd _ (Nat.dvd_mul_left _ _), cellOf, Nat.add_assoc, Nat.mul_add_mod_self_right]

/-- The spaces of a tab from column `x` of a row of `len` cells: to the next multiple of 4, or to the end of the row
where that is nearer (R235). -/
def tabSpaces (len x : Nat) : Nat := min (4 - x % 4) (len - x)

theorem tabSpaces_stop {len x : Nat} (hx : x < len) : (x + tabSpaces len x) % len % 4 = 0 := by
  rw [tabSpaces]
  obtain hend | hin : x + min (4 - x % 4) (len - x) = len ∨ x + min (4 - x % 4) (len - x) < len := by omega
  · rw [hend, Nat.mod_self]
  · rw [Nat.mod_eq_of_lt hin]
    omega

theorem tabSpaces_before {len x m : Nat} (hpos : 1 ≤ m) (hm : m < tabSpaces len x) : (x + m) % len % 4 ≠ 0 := by
  rw [tabSpaces] at hm
  rw [Nat.mod_eq_of_lt (show x + m < len by omega)]
  omega

/-- A tab in a window moves the cursor as that many advances do (R235). -/
theorem tabLoop_cursor (hg : s.cfg.GeometryOk) (h : CursorWindowed s) : (tabLoop 4 s).cursor =
    (repeatOp advance (tabSpaces s.cfg.lineLen (colOf s.cfg s.cursor.toNat)) s).cursor := by
  obtain ⟨n, hpos, -, htab, hstop, hbefore⟩ := tabLoop_spec 4 hg (Nat.le_add_right _ _)
  have hx := colOf_lt hg s.cursor.toNat
  simp only [repeatOp_spaces_cursor, advances_col _ hg h] at hstop hbefore
  have hn : n = tabSpaces s.cfg.lineLen (colOf s.cfg s.cursor.toNat) := by
    obtain hlt | heq | hgt := Nat.lt_trichotomy n (tabSpaces s.cfg.lineLen (colOf s.cfg s.cursor.toNat))
    · exact absurd hstop (tabSpaces_before hpos hlt)
    · exact heq
    · exact absurd (tabSpaces_stop hx) (hbefore _ (by rw [tabSpaces]; omega) hgt)
  rw [htab, repeatOp_spaces_cursor, hn]

theorem moveCursor_rel_cell (x y : Int) (hg : s.cfg.GeometryOk) (h : CursorWindowed s) :
    (moveCursor x y .rel s).cursor.toNat =
      physOf s.cfg (cellPlus s.cfg (cellOf s.cfg s.cursor.toNat) (y * s.cfg.lineLen + x)) := moveBy_cell _ hg h

theorem cursor_cell (hg : s.cfg.GeometryOk) (h : CursorWindowed s) :
    s.cursor.toNat = physOf s.cfg (cellPlus s.cfg (cellOf s.cfg s.cursor.toNat) 0) := by
  rw [cellPlus_zero (cellOf_lt hg h), physOf_cellOf hg h]

theorem repeatOp_advance_cell (k : Nat) (hg : s.cfg.GeometryOk) (h : CursorWindowed s) :
    (repeatOp advance k s).cursor.toNat = physOf s.cfg (cellPlus s.cfg (cellOf s.cfg s.cursor.toNat) k) := by
  rw [cellPlus_ofNat, advances_cell k hg h]

/-- Where a byte in `NORMAL` mode leaves the cursor (R232 to R236). -/
theorem normalByte_cell (b : Byte) (hg : s.cfg.GeometryOk) (h : CursorWindowed s) :
    (normalByte b s).cursor.toNat = physOf s.cfg (cellPlus s.cfg (cellOf s.cfg s.cursor.toNat)
      (normalDelta s.cfg.lineLen (colOf s.cfg s.cursor.toNat) b)) := by
  unfold normalByte normalDelta
  split
  · exact cursor_cell hg h
  split
  · rw [moveCursor_rel_cell 0 1 hg h, Int.one_mul, Int.add_zero]
  split
  · rw [carriageReturn, getXy, noteLine_of_windowed hg h, moveCursor_rel_cell _ _ hg h, Int.zero_mul, Int.zero_add]
  split
  · rw [moveCursor_rel_cell (-1) 0 hg h, Int.zero_mul, Int.zero_add]
  split
  · have hlt := colOf_lt hg s.cursor.toNat
    rw [tab, tabLoop_cursor hg h, repeatOp_advance_cell _ hg h, tabSpaces]
    congr 2
    omega
  · rw [putChar_cursor]
    exact repeatOp_advance_cell 1 hg h

/-- A byte in `NORMAL` mode other than the escape introducer moves and does nothing else (R234 to R236). -/
theorem normalByte_moves {b : Byte} (hb : b ≠ 0x1B) (s : State) : Moves s (normalByte b s) := by
  rw [normalByte, if_neg hb]
  split
  · exact moveCursor_moves _ _ _ _
  split
  · exact (getXy_moves s).trans (moveCursor_moves _ _ _ _)
  split
  · exact moveCursor_moves _ _ _ _
  split
  · exact tabLoop_moves _ _
  · exact putChar_moves _ _

/-- No byte in `NORMAL` mode writes a display flag (R232, 10_state.md R34). -/
theorem normalByte_flags (b : Byte) (s : State) : (normalByte b s).displayOn = s.displayOn ∧
    (normalByte b s).cursorVisible = s.cursorVisible ∧ (normalByte b s).blinkOn = s.blinkOn := by
  by_cases hb : b = 0x1B
  · rw [normalByte, if_pos hb]
    exact ⟨rfl, rfl, rfl⟩
  · have hf := (normalByte_moves hb s).frame
    exact ⟨hf.displayOn, hf.cursorVisible, hf.blinkOn⟩

theorem moveCursor_origin_cursor (hg : s.cfg.GeometryOk) : (moveCursor 0 0 .abs s).cursor.toNat = 0 := by
  rw [moveCursor, gotoXy_abs 0 0 (indexOk_origin hg), flatIndex, Int.zero_mul, Int.add_zero]
  show (home s).cursor.toNat = 0
  rw [home_cursor hg]
  rfl

theorem displayControl_cell (d v b : Bool) (hg : s.cfg.GeometryOk) (h : CursorWindowed s) :
    (displayControl d v b s).cursor.toNat = physOf s.cfg (cellPlus s.cfg (cellOf s.cfg s.cursor.toNat) 0) := by
  rw [← cursor_cell hg h, displayControl, setDisplayFlags_cursor, command_cursor]

/-- The escape codes for the cursor's appearance: `a`, `b`, `v`, `V` (R237). -/
def appearanceCodes : List Byte := [0x61, 0x62, 0x76, 0x56]

theorem mem_appearanceCodes {b : Byte} : b ∈ appearanceCodes ↔ b = 0x61 ∨ b = 0x62 ∨ b = 0x76 ∨ b = 0x56 := by
  simp only [appearanceCodes, List.mem_cons, List.not_mem_nil, or_false]

/-- The escape codes other than the four for the cursor's appearance (R238 to R240). -/
theorem escapeCode_of_not_appearance {b : Byte} (hb : b ∉ appearanceCodes) (s : State) :
    escapeCode b s =
      if b = 0x48 then moveCursor 0 0 .abs s
      else if b = 0x4A then moveCursor 0 0 .abs (clear s)
      else if b = 0x42 then moveCursor 0 1 .rel s
      else if b = 0x41 then moveCursor 0 (-1) .rel s
      else if b = 0x44 then moveCursor (-1) 0 .rel s
      else if b = 0x43 then moveCursor 1 0 .rel s
      else log (.unknownEsc b) s := by
  simp only [mem_appearanceCodes, not_or] at hb
  obtain ⟨ha, hblink, hv, hV⟩ := hb
  rw [escapeCode, if_neg ha, if_neg hblink, if_neg hv, if_neg hV]

/-- Where an escape code leaves the cursor (R237 to R240). -/
theorem escapeCode_cell (b : Byte) (hg : s.cfg.GeometryOk) (h : CursorWindowed s) :
    (escapeCode b s).cursor.toNat = if b = 0x48 ∨ b = 0x4A then 0
      else physOf s.cfg (cellPlus s.cfg (cellOf s.cfg s.cursor.toNat) (escapeDelta s.cfg.lineLen b)) := by
  by_cases hb : b ∈ appearanceCodes
  · obtain rfl | rfl | rfl | rfl := mem_appearanceCodes.1 hb <;> exact displayControl_cell _ _ _ hg h
  rw [escapeCode_of_not_appearance hb]
  by_cases hH : b = 0x48
  · rw [if_pos hH, if_pos (.inl hH), moveCursor_origin_cursor hg]
  by_cases hJ : b = 0x4A
  · rw [if_neg hH, if_pos hJ, if_pos (.inr hJ), moveCursor_origin_cursor (by rw [(clear_moves s).frame.cfg]; exact hg)]
  rw [if_neg hH, if_neg hJ, if_neg (not_or.2 ⟨hH, hJ⟩), escapeDelta]
  split
  · rw [moveCursor_rel_cell 0 1 hg h, Int.one_mul, Int.add_zero]
  split
  · rw [moveCursor_rel_cell 0 (-1) hg h, Int.neg_one_mul, Int.add_zero]
  split
  · rw [moveCursor_rel_cell (-1) 0 hg h, Int.zero_mul, Int.zero_add]
  split
  · rw [moveCursor_rel_cell 1 0 hg h, Int.zero_mul, Int.zero_add]
  · exact cursor_cell hg h

/-- Every escape code but the four of R237 leaves the display flags alone (R238 to R240). -/
theorem escapeCode_moveFrame {b : Byte} (hb : b ∉ appearanceCodes) (s : State) :
    MoveFrame s (escapeCode b s) := by
  rw [escapeCode_of_not_appearance hb]
  split
  · exact (moveCursor_moves _ _ _ _).frame
  split
  · exact ((clear_moves s).trans (moveCursor_moves _ _ _ _)).frame
  iterate 4
    split
    · exact (moveCursor_moves _ _ _ _).frame
  exact (log_busFrame _ s).toMoveFrame

/-- Which escape codes write the display flags, and with what (R237). -/
theorem escapeCode_flags (b : Byte) (s : State) : (escapeCode b s).displayOn = s.displayOn ∧
    (escapeCode b s).cursorVisible =
      (if b = 0x76 then true else if b = 0x61 ∨ b = 0x56 then false else s.cursorVisible) ∧
    (escapeCode b s).blinkOn = (if b = 0x62 then true else if b = 0x61 then false else s.blinkOn) := by
  by_cases hb : b ∈ appearanceCodes
  · obtain rfl | rfl | rfl | rfl := mem_appearanceCodes.1 hb <;> exact ⟨rfl, rfl, rfl⟩
  · have hf := escapeCode_moveFrame hb s
    simp only [mem_appearanceCodes, not_or] at hb
    obtain ⟨ha, hblink, hv, hV⟩ := hb
    rw [if_neg hv, if_neg (not_or.2 ⟨ha, hV⟩), if_neg hblink, if_neg ha]
    exact ⟨hf.displayOn, hf.cursorVisible, hf.blinkOn⟩

/-- Settles O40: in both modes the cursor's cell and the flags after the byte are known, and from a window nothing is
asserted. -/
theorem terminalCursor : Obligations.TerminalCursor := by
  intro s b hr hs hg h i x
  refine ⟨fun hm => ?_, fun hm => ?_⟩
  · obtain ⟨hon, hvisible, hblink⟩ := normalByte_flags b s
    exact ⟨_, exec_termByte_normal hr hs hm b, ⟨rfl, rfl⟩, normalByte_cell b hg h, hon, hvisible, hblink,
      (normalByte_stays b hg h).assertOow⟩
  · obtain ⟨hon, hvisible, hblink⟩ := escapeCode_flags b (setParseMode .normal s)
    exact ⟨_, exec_termByte_escape hr hs hm b, ⟨rfl, rfl⟩, escapeCode_cell (s := setParseMode .normal s) b hg h, hon,
      hvisible, hblink, (escapeCode_stays (s := setParseMode .normal s) b hg h).assertOow⟩

end Sys2Proof.Machine

/-! ### What the host asks for: idling, the session, WRITE and SEEK (45_host.md R263 to R268) -/

namespace Sys2Proof.Machine

variable {s t u : State}

/-- Settles O6: it is the idle case of a step. -/
theorem idleStepChangesNothing : Obligations.IdleStepChangesNothing := fun _ => step_idle

theorem exec_shutdown_down (hd : s.life = .down) : exec .shutdown s = .next (answered s .ok 0) := by
  rw [exec, execShutdown, hd]
  rfl

theorem exec_shutdown_up (hr : s.life = .ready) : exec .shutdown s =
    .next (if s.session then answered s .errState 0 else answered { s with life := .down } .ok 0) := by
  rw [exec, execShutdown, hr]
  rfl

theorem exec_openSession_up (hr : s.life = .ready) : exec .openSession s =
    .next (if s.session then answered s .errBusy 0
      else answered { s with session := true, parseMode := .normal } .ok 0) := by
  rw [exec, execOpen, whenReady_up hr]
  rfl

theorem exec_closeSession_up (hr : s.life = .ready) :
    exec .closeSession s = .next (answered { s with session := false } .ok 0) := by
  rw [exec, execClose, whenReady_up hr]
  rfl

/-- Settles O44: the lifecycle picks SHUTDOWN's case; while the block is up the session picks that of SHUTDOWN and
OPEN, and CLOSE asks for neither. -/
theorem shutdownOpenClose : Obligations.ShutdownOpenClose := by
  refine fun s => ⟨exec_shutdown_down, fun hr => ?_⟩
  rw [exec_shutdown_up hr, exec_openSession_up hr]
  refine ⟨fun hs => ?_, fun hs => ?_, exec_closeSession_up hr⟩
  · rw [hs]
    exact ⟨rfl, rfl⟩
  · rw [hs]
    exact ⟨rfl, rfl⟩

theorem exec_write_without_session (hr : s.life = .ready) (hs : s.session = false) (len : Nat) :
    exec (.write len) s = .next (answered s .errState 0) := by
  rw [exec, execWrite, whenSession_off hr hs]
  rfl

theorem exec_write_up (hr : s.life = .ready) (hs : s.session = true) (len : Nat) : exec (.write len) s =
    .next (if len ≤ s.cfg.bufSize ∧ s.bufOk = true
      then respond .ok (BitVec.ofNat 32 len) (feedBytes (s.buf.snapshot len) s) else answered s .errFault 0) := by
  rw [exec, execWrite, whenSession_on hr hs]
  rfl

/-- The host's side of a state is the same whatever it was answered. -/
theorem HostFrame.of_respond (h : HostFrame s u) (ht : ∀ c v, respond c v t = respond c v u) : HostFrame s t := by
  have hu : HostFrame s (respond .ok 0 t) := by
    rw [ht]
    exact h.trans (respond_busFrame _ _ _).toHostFrame
  exact ⟨hu.cfg, hu.session, hu.life, hu.requests, hu.reserveOk, hu.bufOk, hu.bufBytes, hu.foreignBits⟩

/-- Settles O45: the bytes before the first null, one TERM_BYTE each, leave what WRITE's loop leaves but for the
answer. -/
theorem writeIsTermBytes : Obligations.WriteIsTermBytes := by
  refine fun s len hr => ⟨fun hs => exec_write_without_session hr hs len, fun hs => ?_⟩
  rw [exec_write_up hr hs]
  refine ⟨fun hfault => ?_, fun hlen hbuf => ?_⟩
  · rw [if_neg]
    rintro ⟨hlen, hbuf⟩
    obtain h | h := hfault
    · exact absurd hlen (Nat.not_le.2 h)
    · exact absurd (hbuf.symm.trans h) nofun
  · obtain ⟨t, hexec, ht⟩ := execAll_feed (s.buf.snapshot len) hr hs
    rw [if_pos ⟨hlen, hbuf⟩, ← ht]
    exact ⟨t, hexec, rfl, (feedBytes_edits _ s).frame.of_respond ht⟩

theorem exec_seek_without_session (hr : s.life = .ready) (hs : s.session = false) (offset : Int) (m : Mode) :
    exec (.seek offset m) s = .next (answered s .errState 0) := by
  rw [exec, execSeek, whenSession_off hr hs]
  rfl

theorem exec_seek_abs (hr : s.life = .ready) (hs : s.session = true) (offset : Int) : exec (.seek offset .abs) s =
    .next (if IndexOk s.cfg offset then respondIndex (gotoXy offset 0 .abs s).2 else answered s .errInval 0) :=
  exec_seek_up hr hs offset .abs

theorem exec_seek_rel (hr : s.life = .ready) (hs : s.session = true) (offset : Int) : exec (.seek offset .rel) s =
    .next (if SpanOk s.cfg offset then respondIndex (gotoXy offset 0 .rel s).2 else answered s .errInval 0) :=
  exec_seek_up hr hs offset .rel

theorem flatIndex_row_zero (c : Config) (x : Int) : flatIndex c x 0 = x := by
  rw [flatIndex, Int.zero_mul, Int.zero_add]

theorem moveBy_cellOf (d : Int) (hg : s.cfg.GeometryOk) (h : CursorWindowed s) :
    cellOf s.cfg (moveBy d s).cursor.toNat = cellPlus s.cfg (cellOf s.cfg s.cursor.toNat) d := by
  rw [moveBy_cell d hg h, cellOf_physOf hg (cellPlus_lt hg _ _)]

/-- An absolute column is counted from the first cell (R267). -/
theorem gotoXy_abs_cellOf {offset : Int} (h : IndexOk s.cfg offset) (hg : s.cfg.GeometryOk) :
    cellOf s.cfg (gotoXy offset 0 .abs s).2.cursor.toNat = cellPlus s.cfg 0 offset := by
  have hhome := home_stays hg
  have hcell := moveBy_cellOf offset (hhome.geometry hg) hhome.windowed
  have horigin : cellOf s.cfg (home s).cursor.toNat = 0 := by
    rw [home_cursor hg]
    exact cellOf_zero hg
  rw [hhome.cfg, horigin] at hcell
  rwa [gotoXy_abs offset 0 (by rwa [flatIndex_row_zero]), flatIndex_row_zero]

/-- A relative column is counted from the cursor's cell (R267). -/
theorem gotoXy_rel_cellOf (offset : Int) (hg : s.cfg.GeometryOk) (h : CursorWindowed s) :
    cellOf s.cfg (gotoXy offset 0 .rel s).2.cursor.toNat = cellPlus s.cfg (cellOf s.cfg s.cursor.toNat) offset := by
  rw [gotoXy_rel, flatIndex_row_zero]
  exact moveBy_cellOf offset hg h

/-- Settles O46: within its bounds SEEK is the two operations, and the cell is counted from the first one or from the
cursor's. -/
theorem seek : Obligations.Seek := by
  intro s offset hr total answersIndex
  have hfrom : ∀ {whence}, (gotoXy offset 0 whence s).1 = .ok →
      exec (.seek offset whence) s = .next (respondIndex (gotoXy offset 0 whence s).2) →
      (s.cfg.GeometryOk → CursorWindowed s ∨ whence = .abs →
        cellOf s.cfg (gotoXy offset 0 whence s).2.cursor.toNat =
          cellPlus s.cfg (if whence = .abs then 0 else cellOf s.cfg s.cursor.toNat) offset) →
      answersIndex whence := by
    intro whence hok hseek hcell
    obtain ⟨t, u, hgoto, hget, hanswer, hframe, hcursor⟩ := seek_as_moves hr hok hseek
    exact ⟨t, u, hgoto, hget, hanswer, hframe, by rw [hcursor]; exact hcell⟩
  refine ⟨fun hs => exec_seek_without_session hr hs offset, fun hs => ⟨fun h0 htotal => ?_, fun hout => ?_,
    fun hlow hhigh => ?_, fun hout => ?_, exec_seek_fromEnd offset hr hs⟩⟩
  · have hi : IndexOk s.cfg offset := ⟨h0, htotal⟩
    refine hfrom ?_ (by rw [exec_seek_abs hr hs, if_pos hi]) fun hg _ => gotoXy_abs_cellOf hi hg
    rw [gotoXy_abs offset 0 (by rwa [flatIndex_row_zero])]
  · rw [exec_seek_abs hr hs, if_neg (by omega)]
  · exact hfrom rfl (by rw [exec_seek_rel hr hs, if_pos ⟨hlow, hhigh⟩]) fun hg h =>
      gotoXy_rel_cellOf offset hg (h.resolve_right nofun)
  · rw [exec_seek_rel hr hs, if_neg (by omega)]

end Sys2Proof.Machine

/-! ### What STARTUP establishes (45_host.md R262, 70_reset_and_hazards.md R332) -/

namespace Sys2Proof.Machine

variable {c : Config} {s : State}

theorem command_parseMode (b : Byte) (s : State) : (command b s).parseMode = s.parseMode :=
  (command_busFrame b s).parseMode

/-- The display flags, the cursor and the parser after the power-on sequence, whatever the LCD answers (R172). -/
theorem powerOnSequence_mirror (s : State) : (powerOnSequence s).displayOn = true ∧
    (powerOnSequence s).cursorVisible = false ∧ (powerOnSequence s).blinkOn = false ∧
    (powerOnSequence s).cursor = 0x00 ∧ (powerOnSequence s).parseMode = s.parseMode := by
  refine ⟨rfl, rfl, rfl, ?_, ?_⟩
  · simp [powerOnSequence, displayControl, entryMode, clear]
  · simp [powerOnSequence, displayControl, entryMode, clear, functionSet, command_parseMode,
      (handshake_busFrame s).parseMode]

theorem powerOnSequence_frame (s : State) : HostFrame s (powerOnSequence s) :=
  (handshake_busFrame s).toHostFrame.trans (powerOn_edits s).frame

/-- The splash is written by characters after the power-on sequence (R262, R199). -/
theorem startUp_eq_putChars (s : State) :
    startUp s = putChars (s.cfg.splash.take (4 * s.cfg.lineLen)) (powerOnSequence (acquire s)) := by
  rw [startUp, putString, Config.putStringMax, (powerOnSequence_frame _).cfg, acquire_cfg]

/-- Cells counted on past the last one fall into the same rows and columns as cells counted around (R194). -/
theorem row_col_around (hg : c.GeometryOk) (m : Nat) :
    (m % c.total + 1) / c.lineLen % c.nLines = (m + 1) / c.lineLen % c.nLines ∧
      (m % c.total + 1) % c.lineLen = (m + 1) % c.lineLen := by
  have hsplit : m + 1 = c.lineLen * (c.nLines * (m / c.total)) + (m % c.total + 1) := by
    rw [← Nat.mul_assoc, Nat.mul_comm c.lineLen, ← Config.total, ← Nat.add_assoc, Nat.div_add_mod]
  rw [hsplit, Nat.mul_add_div (lineLen_pos hg), Nat.mul_add_mod_self_left, Nat.mul_add_mod_self_left]
  exact ⟨rfl, rfl⟩

/-- Characters from the first cell on leave the cursor at the cell of their number, counted around (R194, R199). -/
theorem putChars_cursor_from_origin (bs : List Byte) (hg : s.cfg.GeometryOk) (h : s.cursor = 0x00) :
    (putChars bs s).cursor.toNat = physOf s.cfg (bs.length % s.cfg.total) := by
  have hcell : cellOf s.cfg s.cursor.toNat = 0 := by
    rw [h]
    exact cellOf_zero hg
  have hw : CursorWindowed s := by
    rw [CursorWindowed, h]
    exact windowed_zero hg
  rw [putChars_cursor, advances_cell _ hg hw, hcell, Nat.zero_add]

/-- The pins after characters from the first cell on, `b` the last: inside a row they are its own, at the end of a row
those of the next row's address (R192, 41_bus_transport.md R131). -/
theorem putChars_snoc_pins (bs : List Byte) (b : Byte) (hr : s.life = .ready) (hp : s.cfg.PinsOk)
    (hg : s.cfg.GeometryOk) (h : s.cursor = 0x00) :
    SelectLines (putChars (bs ++ [b]) s) false ((bs.length + 1) % s.cfg.lineLen ≠ 0) ∧
    DataPinsCarry (putChars (bs ++ [b]) s) (BitVec.ofNat 4 (if (bs.length + 1) % s.cfg.lineLen = 0
      then s.cfg.baseOf ((bs.length + 1) / s.cfg.lineLen % s.cfg.nLines) % 16 else b.toNat % 16)) := by
  have hframe := (putChars_moves bs s).frame
  have hcursor := putChars_cursor_from_origin bs hg h
  have hlt : bs.length % s.cfg.total < s.cfg.total := Nat.mod_lt _ (total_pos hg)
  have hw : CursorWindowed (putChars bs s) := by
    rw [CursorWindowed, hframe.cfg, hcursor]
    exact physOf_windowed hlt
  have hpins := putChar_pins b (hframe.life.trans hr) (hframe.cfg ▸ hp) (hframe.cfg ▸ hg) hw
  obtain ⟨hrow, hcol⟩ := row_col_around hg bs.length
  dsimp only at hpins
  rwa [hframe.cfg, hcursor, cellOf_physOf hg hlt, hrow, hcol, ← putChars_snoc] at hpins

/-- How many characters of the splash STARTUP writes (R262, R199). -/
def splashLength (c : Config) : Nat := min c.splash.length (4 * c.lineLen)

/-- The nibble that STARTUP writes last: the power-on sequence's without a splash, else the last character's, or that of
the next row's address at the end of a row (R332, R131). -/
def lastStartupNibble (c : Config) : Nat :=
  if splashLength c = 0 then 0xC
  else if splashLength c % c.lineLen = 0 then c.baseOf (splashLength c / c.lineLen % c.nLines) % 16
  else (c.splash.getD (splashLength c - 1) 0).toNat % 16

theorem getD_of_take_eq_concat {l bs : List Byte} {b : Byte} {m : Nat} (h : l.take m = bs ++ [b]) :
    l.getD bs.length 0 = b := by
  rw [← List.take_append_drop m l, h]
  simp

/-- The pins after a STARTUP: without a splash those of the power-on sequence (R332). -/
theorem startUp_pins (hp : s.cfg.PinsOk) (hg : s.cfg.GeometryOk) :
    SelectLines (startUp s) false (splashLength s.cfg % s.cfg.lineLen ≠ 0) ∧
    DataPinsCarry (startUp s) (BitVec.ofNat 4 (lastStartupNibble s.cfg)) := by
  have hcfg := (powerOnSequence_frame (acquire s)).cfg.trans (acquire_cfg s)
  have hlife : (powerOnSequence (acquire s)).life = .ready := (powerOnSequence_frame (acquire s)).life.trans rfl
  have hlength : (s.cfg.splash.take (4 * s.cfg.lineLen)).length = splashLength s.cfg := by
    rw [List.length_take, Nat.min_comm, splashLength]
  obtain ⟨-, -, -, hcursor, -⟩ := powerOnSequence_mirror (acquire s)
  rw [startUp_eq_putChars, lastStartupNibble, ← hlength]
  obtain hnone | ⟨bs, b, hlast⟩ := (s.cfg.splash.take (4 * s.cfg.lineLen)).eq_nil_or_concat
  · rw [hnone, List.length_nil, if_pos rfl, Nat.zero_mod]
    exact powerOnSequence_pins rfl (by rwa [acquire_cfg])
  · have hpins := putChars_snoc_pins bs b hlife (hcfg ▸ hp) (hcfg ▸ hg) hcursor
    rw [List.concat_eq_append] at hlast
    rw [hlast, List.length_append, List.length_singleton, if_neg (Nat.succ_ne_zero _), Nat.add_sub_cancel,
      getD_of_take_eq_concat hlast]
    rwa [hcfg] at hpins

/-- The cursor after a STARTUP (R262, R199). -/
theorem startUp_cursor (hg : s.cfg.GeometryOk) :
    (startUp s).cursor.toNat = physOf s.cfg (splashLength s.cfg % s.cfg.total) := by
  have hcfg := (powerOnSequence_frame (acquire s)).cfg.trans (acquire_cfg s)
  obtain ⟨-, -, -, hcursor, -⟩ := powerOnSequence_mirror (acquire s)
  rw [startUp_eq_putChars, putChars_cursor_from_origin _ (hcfg ▸ hg) hcursor, hcfg, List.length_take, Nat.min_comm,
    splashLength]

/-- The display flags and the parser's mode after a STARTUP: no character writes them (R262, 10_state.md R34, R36). -/
theorem startUp_mirror (s : State) : (startUp s).displayOn = true ∧ (startUp s).cursorVisible = false ∧
    (startUp s).blinkOn = false ∧ (startUp s).parseMode = .normal := by
  obtain ⟨hon, hvisible, hblink, -, hmode⟩ := powerOnSequence_mirror (acquire s)
  have hchars := (putString_moves s.cfg.splash (powerOnSequence (acquire s))).frame
  exact ⟨hchars.displayOn.trans hon, hchars.cursorVisible.trans hvisible, hchars.blinkOn.trans hblink,
    hchars.parseMode.trans (hmode.trans rfl)⟩

theorem physOf_zero (hg : c.GeometryOk) : physOf c 0 = 0 := by
  rw [physOf, Nat.zero_div, Nat.zero_mod, base_zero hg]

/-- Settles O41: cursor, pins, display flags and outer frame of the power-on sequence and the splash; lifecycle and
session are those acquired, and the sticky flags follow the log from cleared ones. -/
theorem startupEstablishes : Obligations.StartupEstablishes := by
  intro s hd ho hp hg n lastNibble
  have hexec := exec_startup_down hd ho
  have hinner := (handshake_busFrame (acquire s)).toHostFrame.trans (startUp_edits s).frame
  have hlife : (startUp s).life = .ready := hinner.life
  have hsession : (startUp s).session = false := hinner.session
  obtain ⟨hon, hvisible, hblink, hmode⟩ := startUp_mirror s
  have hcursor := startUp_cursor hg
  have hempty : n = 0 → (startUp s).cursor = 0x00 := fun hn => by
    rw [show splashLength s.cfg = 0 from hn, Nat.zero_mod, physOf_zero hg] at hcursor
    exact BitVec.eq_of_toNat_eq hcursor
  obtain ⟨es, htrace, htimeout, -⟩ := (startUp_sticky s).events
  rw [acquire_trace] at htrace
  have hflag : (startUp s).timeoutSeen = true ↔ Event.log .timeout ∈ es := htimeout.trans (or_iff_right nofun)
  have hoow : (startUp s).assertOow = false := (startUp_stays hg).assertOow
  obtain ⟨hlines, hdata⟩ := startUp_pins hp hg
  obtain ⟨hcfg, hrequests, hreserve, hbuf, hbytes, hforeign⟩ := startUp_outerFrame s
  generalize startUp s = u at *
  exact ⟨respond .ok 0 u, es, hexec, ⟨rfl, rfl⟩, hlife, hsession, hmode, hon, hvisible, hblink, hcursor, hempty,
    htrace, hoow, hflag, hlines, hdata, hcfg, hrequests, hreserve, hbuf, hbytes, hforeign⟩

end Sys2Proof.Machine

/-! ### Which operations are admitted, and the code each is answered with (60_exceptions.md R293, R296 to R298) -/

namespace Sys2Proof.Machine

variable {s : State} {i : Instr}

/-- Settles O47: STARTUP and SHUTDOWN alone do not begin with the lifecycle check. -/
theorem downAdmitsOnlyStartupAndShutdown : Obligations.DownAdmitsOnlyStartupAndShutdown := by
  intro i s hd hstartup hshutdown
  cases i with
  | startup => exact absurd rfl hstartup
  | shutdown => exact absurd rfl hshutdown
  | _ => exact congrArg Host.Outcome.next (whenReady_down hd _)

theorem gotoXy_abs_invalid {x y : Int} (h : ¬ IndexOk s.cfg (flatIndex s.cfg x y)) :
    gotoXy x y .abs s = (.errInval, s) := if_neg h

/-- Settles O30: the bound of an absolute GOTO_XY is tested before anything is sent, a relative one has none, and
SEEK's bounds are those of R267. -/
theorem invalidArgument : Obligations.InvalidArgument := by
  refine fun s hr => ⟨fun x y hout => ?_, fun x y => exec_gotoXy_fromEnd x y hr,
    fun x y => ⟨_, exec_gotoXy_rel_up hr x y, rfl, rfl⟩, fun hs offset => ?_⟩
  · have hbad : ¬ IndexOk s.cfg (flatIndex s.cfg x y) := by
      rw [flatIndex]
      omega
    rw [exec_gotoXy_up hr, gotoXy_abs_invalid hbad]
    rfl
  · obtain ⟨-, habs, -, hrel, hend⟩ := (seek s offset hr).2 hs
    exact ⟨habs, hrel, hend⟩

/-! #### The order of the checks (R298) -/

/-- The result is a state answered with this code. -/
def AnswersCode (c : Code) (r : Result) : Prop := ∃ t value, r = .next (respond c value t)

theorem AnswersCode.whenReady {c : Code} {op : State → State} (hr : s.life = .ready)
    (h : AnswersCode c (.next (op s))) : AnswersCode c (.next (whenReady s op)) := by
  rwa [whenReady_up hr]

/-- One check of the chain: failed, it ends the operation with its code; passed, the checks after it decide. -/
theorem AnswersCode.check {p : Prop} [Decidable p] {t : State} (e : Code) {later : Option Code}
    (h : p → AnswersCode (later.getD .ok) (.next t)) :
    AnswersCode (((if p then none else some e) <|> later).getD .ok) (.next (if p then t else fail e s)) := by
  by_cases hp : p
  · rw [if_pos hp, if_pos hp]
    exact h hp
  · rw [if_neg hp, if_neg hp]
    exact ⟨s, 0, rfl⟩

/-- A check with none after it. -/
theorem AnswersCode.lastCheck {p : Prop} [Decidable p] {t : State} (e : Code) (h : p → AnswersCode .ok (.next t)) :
    AnswersCode ((if p then none else some e).getD .ok) (.next (if p then t else fail e s)) := by
  simpa using AnswersCode.check (later := none) e h

/-- While the block is up only STARTUP is ended by the lifecycle check (R296). -/
theorem answerCode_up (hr : s.life = .ready) (hstartup : i ≠ .startup) :
    answerCode i s = (sessionAnswer i s <|> (stagingAnswer i s <|> argumentAnswer i s)).getD .ok := by
  have hlife : lifecycleAnswer i s = none := by
    unfold lifecycleAnswer
    rw [hr]
    cases i with
    | startup => exact absurd rfl hstartup
    | _ => rfl
  rw [answerCode, hlife]
  rfl

theorem answerCode_down (hd : s.life = .down) (hstartup : i ≠ .startup) (hshutdown : i ≠ .shutdown) :
    answerCode i s = .errState := by
  have hlife : lifecycleAnswer i s = some .errState := by
    unfold lifecycleAnswer
    rw [hd]
    cases i with
    | startup => exact absurd rfl hstartup
    | shutdown => exact absurd rfl hshutdown
    | _ => rfl
  rw [answerCode, hlife]
  rfl

/-- The operations that need a session (R297). -/
def NeedsSession (i : Instr) : Prop := (∃ b, i = .termByte b) ∨ (∃ len, i = .write len) ∨ ∃ o m, i = .seek o m

theorem sessionAnswer_of_needsSession (h : NeedsSession i) :
    sessionAnswer i s = if s.session then none else some .errState := by
  obtain ⟨b, rfl⟩ | ⟨len, rfl⟩ | ⟨o, m, rfl⟩ := h <;> cases hs : s.session <;> simp [sessionAnswer, hs]

/-- The session check of TERM_BYTE, WRITE and SEEK (R297). -/
theorem AnswersCode.whenSession {op : State → State} {later : Option Code} (hr : s.life = .ready)
    (hi : NeedsSession i) (h : AnswersCode (later.getD .ok) (.next (op s))) :
    AnswersCode ((sessionAnswer i s <|> later).getD .ok) (.next (whenSession s op)) := by
  rw [sessionAnswer_of_needsSession hi]
  exact .whenReady hr (.check .errState fun _ => h)

theorem stagingAnswer_putString (len : Nat) (s : State) :
    stagingAnswer (.putString len) s = if len ≤ s.cfg.bufSize then none else some .errFault := by
  simp only [stagingAnswer, ← Nat.not_le, ite_not]

theorem stagingAnswer_write (len : Nat) (s : State) : stagingAnswer (.write len) s =
    if len ≤ s.cfg.bufSize ∧ s.bufOk = true then none else some .errFault := by
  simp only [stagingAnswer, ← Nat.not_le, ← Bool.not_eq_true, ← not_and_or, ite_not]

/-- The bounds of R293 are those of `gotoXy` and SEEK. -/
theorem indexOutside_iff {c : Config} {o : Int} : o < 0 ∨ (c.nLines : Int) * c.lineLen ≤ o ↔ ¬ IndexOk c o := by
  rw [IndexOk, Config.total, Int.natCast_mul]
  omega

theorem spanOutside_iff {c : Config} {o : Int} :
    o < -((c.nLines : Int) * c.lineLen) ∨ (c.nLines : Int) * c.lineLen < o ↔ ¬ SpanOk c o := by
  rw [SpanOk, Config.total, Int.natCast_mul]
  omega

theorem argumentAnswer_gotoXy_abs (x y : Int) (s : State) : argumentAnswer (.gotoXy x y .abs) s =
    if IndexOk s.cfg (flatIndex s.cfg x y) then none else some .errInval := by
  rw [flatIndex]
  simp only [argumentAnswer, indexOutside_iff, ite_not]

theorem argumentAnswer_seek_abs (o : Int) (s : State) : argumentAnswer (.seek o .abs) s =
    if IndexOk s.cfg o then none else some .errInval := by
  simp only [argumentAnswer, indexOutside_iff, ite_not]

theorem argumentAnswer_seek_rel (o : Int) (s : State) : argumentAnswer (.seek o .rel) s =
    if SpanOk s.cfg o then none else some .errInval := by
  simp only [argumentAnswer, spanOutside_iff, ite_not]

theorem execGotoXy_code (x y : Int) (m : Mode) (hr : s.life = .ready) :
    AnswersCode ((argumentAnswer (.gotoXy x y m) s).getD .ok) (execGotoXy x y m s) := by
  refine .whenReady hr ⟨(gotoXy x y m s).2, 0, ?_⟩
  cases m with
  | abs =>
    rw [argumentAnswer_gotoXy_abs]
    by_cases h : IndexOk s.cfg (flatIndex s.cfg x y)
    · rw [if_pos h, gotoXy_abs x y h]
      rfl
    · rw [if_neg h, gotoXy_abs_invalid h]
      rfl
  | rel => rfl
  | fromEnd => rfl

theorem execSeek_code (o : Int) (m : Mode) (hr : s.life = .ready) :
    AnswersCode ((sessionAnswer (.seek o m) s <|> argumentAnswer (.seek o m) s).getD .ok) (execSeek o m s) := by
  refine .whenSession hr (.inr (.inr ⟨o, m, rfl⟩)) ?_
  cases m with
  | abs =>
    rw [argumentAnswer_seek_abs]
    exact .lastCheck .errInval fun _ => ⟨_, _, rfl⟩
  | rel =>
    rw [argumentAnswer_seek_rel]
    exact .lastCheck .errInval fun _ => ⟨_, _, rfl⟩
  | fromEnd => exact ⟨s, 0, rfl⟩

theorem execWrite_code (len : Nat) (hr : s.life = .ready) :
    AnswersCode ((sessionAnswer (.write len) s <|> (stagingAnswer (.write len) s <|> none)).getD .ok)
      (execWrite len s) := by
  refine .whenSession hr (.inr (.inl ⟨len, rfl⟩)) ?_
  rw [stagingAnswer_write]
  exact .check .errFault fun _ => ⟨_, _, rfl⟩

theorem execPutString_code (len : Nat) (hr : s.life = .ready) :
    AnswersCode ((stagingAnswer (.putString len) s <|> none).getD .ok) (execPutString len s) := by
  rw [stagingAnswer_putString]
  exact .whenReady hr (.check .errFault fun _ => ⟨_, _, rfl⟩)

theorem answerCode_startup (s : State) :
    answerCode .startup s = if s.life = .down ∧ s.reserveOk = true then .ok else .errUnavail := by
  cases hl : s.life <;> cases ho : s.reserveOk <;>
    simp [answerCode, lifecycleAnswer, sessionAnswer, stagingAnswer, argumentAnswer, hl, ho]

theorem exec_startup_code (s : State) : AnswersCode (answerCode .startup s) (exec .startup s) := by
  rw [exec_startup, answerCode_startup]
  split
  · exact ⟨_, _, rfl⟩
  · exact ⟨s, 0, rfl⟩

theorem exec_code_down (i : Instr) (hd : s.life = .down) : AnswersCode (answerCode i s) (exec i s) := by
  by_cases hstartup : i = .startup
  · rw [hstartup]
    exact exec_startup_code s
  by_cases hshutdown : i = .shutdown
  · rw [hshutdown, exec_shutdown_down hd]
    have hlife : lifecycleAnswer .shutdown s = some .ok := by
      unfold lifecycleAnswer
      rw [hd]
    rw [answerCode, hlife]
    exact ⟨s, 0, rfl⟩
  · rw [answerCode_down hd hstartup hshutdown, downAdmitsOnlyStartupAndShutdown i s hd hstartup hshutdown]
    exact ⟨s, 0, rfl⟩

theorem exec_code_up (i : Instr) (hr : s.life = .ready) : AnswersCode (answerCode i s) (exec i s) := by
  by_cases hstartup : i = .startup
  · rw [hstartup]
    exact exec_startup_code s
  rw [answerCode_up hr hstartup]
  cases i with
  | startup => exact absurd rfl hstartup
  | shutdown =>
    rw [exec_shutdown_up hr]
    unfold sessionAnswer
    cases s.session with
    | true => exact ⟨s, 0, rfl⟩
    | false => exact ⟨_, _, rfl⟩
  | openSession =>
    rw [exec_openSession_up hr]
    unfold sessionAnswer
    cases s.session with
    | true => exact ⟨s, 0, rfl⟩
    | false => exact ⟨_, _, rfl⟩
  | gotoXy x y m => exact execGotoXy_code x y m hr
  | seek o m => exact execSeek_code o m hr
  | write len => exact execWrite_code len hr
  | putString len => exact execPutString_code len hr
  | termByte b => exact .whenSession (later := none) hr (.inl ⟨b, rfl⟩) ⟨_, _, rfl⟩
  | wrNib | rdNib | wrByte | rdByte | waitReady | functionSet | displayControl | clear | home | entryMode | setAddress
  | advance | retreat | getXy | putChar | closeSession => exact .whenReady hr ⟨_, _, rfl⟩

/-- Every operation is answered with the code of the first check that applies (R298). -/
theorem exec_code (i : Instr) (s : State) : AnswersCode (answerCode i s) (exec i s) := by
  cases hl : s.life with
  | down => exact exec_code_down i hl
  | ready => exact exec_code_up i hl

/-- An answer with a known code; an error has had no effect and value 0 (R298). -/
theorem Answers.withCode {r : Result} {c : Code} (h : Answers s r) (hc : AnswersCode c r) :
    ∃ t value, r = .next t ∧ AnsweredWith t c value ∧ (c ≠ .ok → t = answered s c 0) := by
  obtain ⟨u, value, hu⟩ := hc
  obtain ⟨t, code, v, ht, -, herror⟩ := h.eq
  have hsame : respond c value u = respond code v t := Host.Outcome.next.inj (hu.symm.trans ht)
  obtain rfl : c = code := congrArg Response.code (Option.some.inj (congrArg State.response hsame))
  refine ⟨respond c value u, value, hu, ⟨rfl, rfl⟩, fun hne => ?_⟩
  obtain ⟨rfl, rfl⟩ := herror hne
  exact hsame

/-- Settles O49: an illegal word is answered before `exec`; a legal one by the chain of checks, and an answer with an
error has had no effect. -/
theorem orderOfChecks : Obligations.OrderOfChecks := by
  have hexec (i : Instr) (s : State) := (exec_answers i s).withCode (exec_code i s)
  refine ⟨fun w s hw => runWord_illegal hw s, fun w i s hw => ?_, hexec⟩
  rw [runWord_ok hw]
  exact hexec i s

end Sys2Proof.Machine

/-! ### What ignores `SESSION` (60_exceptions.md R297) -/

namespace Sys2Proof.Machine

variable {s t : State} (b : Bool)

@[simp] theorem respond_setSession (c : Code) (v : BitVec 32) (s : State) :
    respond c v (setSession b s) = setSession b (respond c v s) := rfl
@[simp] theorem respondOk_setSession (s : State) : respondOk (setSession b s) = setSession b (respondOk s) := rfl
@[simp] theorem fail_setSession (c : Code) (s : State) : fail c (setSession b s) = setSession b (fail c s) := rfl
@[simp] theorem delay_setSession (d : DelayName) (s : State) :
    delay d (setSession b s) = setSession b (delay d s) := rfl
@[simp] theorem setCursor_setSession (a : Addr) (s : State) :
    setCursor a (setSession b s) = setSession b (setCursor a s) := rfl
@[simp] theorem setDisplayFlags_setSession (d v k : Bool) (s : State) :
    setDisplayFlags d v k (setSession b s) = setSession b (setDisplayFlags d v k s) := rfl
@[simp] theorem markTimeout_setSession (s : State) :
    markTimeout (setSession b s) = setSession b (markTimeout s) := rfl
@[simp] theorem markOutOfWindow_setSession (p : Addr) (s : State) :
    markOutOfWindow p (setSession b s) = setSession b (markOutOfWindow p s) := rfl

@[simp] theorem foreignMove_setSession (s : State) :
    foreignMove (setSession b s) = setSession b (foreignMove s) := by
  unfold foreignMove
  rw [setSession_foreign]
  split <;> rfl

@[simp] theorem pinSet_setSession (m k : Word) (s : State) :
    pinSet m k (setSession b s) = setSession b (pinSet m k s) := by
  rw [pinSet, foreignMove_setSession]
  rfl

@[simp] theorem pinGet_setSession (m : Word) (s : State) :
    pinGet m (setSession b s) = ((pinGet m s).1, setSession b (pinGet m s).2) := by
  rw [pinGet, foreignMove_setSession]
  rfl

@[simp] theorem writeNibble_setSession (rs : RegSel) (n : Nibble) (s : State) :
    writeNibble rs n (setSession b s) = setSession b (writeNibble rs n s) := by
  simp [writeNibble]

@[simp] theorem readNibble_setSession (rs : RegSel) (s : State) :
    readNibble rs (setSession b s) = ((readNibble rs s).1, setSession b (readNibble rs s).2) := by
  simp [readNibble]

@[simp] theorem writeByte_setSession (rs : RegSel) (v : Byte) (s : State) :
    writeByte rs v (setSession b s) = setSession b (writeByte rs v s) := by
  simp [writeByte]

@[simp] theorem readByte_setSession (rs : RegSel) (s : State) :
    readByte rs (setSession b s) = ((readByte rs s).1, setSession b (readByte rs s).2) := by
  simp [readByte]

@[simp] theorem pollLoop_setSession (n : Nat) (s : State) :
    pollLoop n (setSession b s) = ((pollLoop n s).1, setSession b (pollLoop n s).2) := by
  induction n generalizing s with
  | zero => simp [pollLoop]
  | succ n ih =>
    simp only [pollLoop, readByte_setSession, delay_setSession, ih]
    split <;> rfl

@[simp] theorem recheck_setSession (s : State) :
    recheck (setSession b s) = ((recheck s).1, setSession b (recheck s).2) := by
  simp only [recheck, readByte_setSession]
  split <;> rfl

@[simp] theorem waitReady_setSession (s : State) :
    waitReady (setSession b s) = ((waitReady s).1, setSession b (waitReady s).2) := by
  simp only [waitReady, setSession_cfg, pollLoop_setSession, recheck_setSession]
  split <;> rfl

@[simp] theorem command_setSession (v : Byte) (s : State) :
    command v (setSession b s) = setSession b (command v s) := by
  simp [command]

@[simp] theorem home_setSession (s : State) : home (setSession b s) = setSession b (home s) := by
  simp [home]

@[simp] theorem setAddress_setSession (a : Addr) (s : State) :
    setAddress a (setSession b s) = setSession b (setAddress a s) := by
  simp [setAddress]

@[simp] theorem noteLine_setSession (s : State) : noteLine (setSession b s) = setSession b (noteLine s) := by
  simp only [noteLine, setSession_cfg, setSession_cursor]
  split <;> rfl

@[simp] theorem advance_setSession (s : State) : advance (setSession b s) = setSession b (advance s) := by
  simp only [advance, setSession_cfg, setSession_cursor, noteLine_setSession, setAddress_setSession,
    setCursor_setSession, apply_ite (setSession b)]

@[simp] theorem retreat_setSession (s : State) : retreat (setSession b s) = setSession b (retreat s) := by
  simp only [retreat, setSession_cfg, setSession_cursor, noteLine_setSession, setAddress_setSession,
    setCursor_setSession, apply_ite (setSession b)]

@[simp] theorem getXy_setSession (s : State) :
    getXy (setSession b s) = ((getXy s).1, setSession b (getXy s).2) := by
  simp [getXy]

theorem repeatOp_setSession {op : State → State} (h : ∀ s, op (setSession b s) = setSession b (op s)) (n : Nat)
    (s : State) : repeatOp op n (setSession b s) = setSession b (repeatOp op n s) := by
  induction n generalizing s with
  | zero => rfl
  | succ n ih => rw [repeatOp, h, ih, repeatOp]

@[simp] theorem stepBy_setSession (d : Int) (s : State) :
    stepBy d (setSession b s) = setSession b (stepBy d s) := by
  cases d with
  | ofNat n => exact repeatOp_setSession b (advance_setSession b) n s
  | negSucc n => exact repeatOp_setSession b (retreat_setSession b) (n + 1) s

@[simp] theorem moveBy_setSession (d : Int) (s : State) :
    moveBy d (setSession b s) = setSession b (moveBy d s) := by
  simp only [moveBy, stepBy_setSession, setSession_cursor, setAddress_setSession, apply_ite (setSession b)]

@[simp] theorem gotoXy_setSession (x y : Int) (m : Mode) (s : State) :
    gotoXy x y m (setSession b s) = ((gotoXy x y m s).1, setSession b (gotoXy x y m s).2) := by
  unfold gotoXy
  cases m with
  | abs =>
    simp only [setSession_cfg, home_setSession, moveBy_setSession]
    split <;> rfl
  | rel => simp
  | fromEnd => rfl

@[simp] theorem putChar_setSession (v : Byte) (s : State) :
    putChar v (setSession b s) = setSession b (putChar v s) := by
  simp [putChar]

theorem putChars_setSession (bs : List Byte) (s : State) :
    putChars bs (setSession b s) = setSession b (putChars bs s) := by
  induction bs generalizing s with
  | nil => rfl
  | cons v bs ih => rw [putChars, putChar_setSession, ih, putChars]

@[simp] theorem putString_setSession (bs : List Byte) (s : State) :
    putString bs (setSession b s) = setSession b (putString bs s) := putChars_setSession b _ s

/-- What ignores `SESSION` once admitted ignores it behind the lifecycle check. -/
theorem next_whenReady_setSession {op : State → State} (hop : op (setSession b s) = setSession b (op s))
    (h : (.next (whenReady s op) : Result) = .next t) :
    (.next (whenReady (setSession b s) op) : Result) = .next (setSession b t) := by
  obtain rfl := Host.Outcome.next.inj h
  cases hl : s.life with
  | down => rw [whenReady_down hl, whenReady_down (s := setSession b s) hl, fail_setSession]
  | ready => rw [whenReady_up hl, whenReady_up (s := setSession b s) hl, hop]

theorem exec_termByte_without_session (hr : s.life = .ready) (hs : s.session = false) (v : Byte) :
    exec (.termByte v) s = .next (answered s .errState 0) := congrArg Host.Outcome.next (whenSession_off hr hs _)

/-- Settles O48: the session check ends the three operations that need one, SHUTDOWN has its opposite, and every other
operation is one that ignores `SESSION` behind the lifecycle check. -/
theorem sessionAdmission : Obligations.SessionAdmission := by
  refine ⟨fun s hr hs => ⟨exec_termByte_without_session hr hs, exec_write_without_session hr hs,
    exec_seek_without_session hr hs⟩, fun s hr hs => by rw [exec_shutdown_up hr, if_pos hs], ?_⟩
  intro i s t b htermByte hwrite hseek hshutdown hopen hclose hstartup h
  cases i with
  | termByte v => exact absurd rfl (htermByte v)
  | write len => exact absurd rfl (hwrite len)
  | seek offset whence => exact absurd rfl (hseek offset whence)
  | shutdown => exact absurd rfl hshutdown
  | openSession => exact absurd rfl hopen
  | closeSession => exact absurd rfl hclose
  | startup => exact absurd rfl hstartup
  | putString len =>
    refine next_whenReady_setSession b ?_ h
    simp only [setSession_cfg, setSession_buf, putString_setSession, respondOk_setSession, fail_setSession,
      apply_ite (setSession b)]
  | wrNib | rdNib | wrByte | rdByte | waitReady | functionSet | displayControl | clear | home | entryMode | setAddress
  | advance | retreat | getXy | gotoXy | putChar =>
    exact next_whenReady_setSession b (by simp [functionSet, displayControl, clear, entryMode]) h

end Sys2Proof.Machine

/-! ### Numbers of events and least durations (70_reset_and_hazards.md R351) -/

namespace Sys2Proof.Machine

variable {s t u : State} {i : Instr} {events least : Nat}

/-- From `s` to `t` the trace grew by `events` events whose delays last at least `least`: `Costs`, said of states. -/
def Appends (s t : State) (events least : Nat) : Prop :=
  ∃ es, t.trace = s.trace ++ es ∧ es.length = events ∧ minDuration s.cfg es = least

theorem Appends.trans {events' least' : Nat} (h : Appends s t events least)
    (h' : Appends t u events' least') (hc : t.cfg = s.cfg) :
    Appends s u (events + events') (least + least') := by
  obtain ⟨es, htrace, hlength, htime⟩ := h
  obtain ⟨es', htrace', hlength', htime'⟩ := h'
  refine ⟨es ++ es', ?_, ?_, ?_⟩
  · rw [htrace', htrace, List.append_assoc]
  · rw [List.length_append, hlength, hlength']
  · rw [minDuration_append, htime, ← hc, htime']

theorem Appends.congr (h : Appends s t events least) (hu : u.trace = t.trace) : Appends s u events least := by
  rwa [Appends, hu]

/-- The answer and the writes of the mirror append no event: `hu` is then true by definition. -/
theorem Appends.costs (h : Appends s t events least) (he : exec i s = .next u) (hu : u.trace = t.trace) :
    Costs i s events least := by
  obtain ⟨es, htrace, hcost⟩ := h.congr hu
  exact ⟨u, es, he, htrace, hcost⟩

/-! #### Transfers and commands -/

theorem writeNibble_appends (rs : RegSel) (n : Nibble) (s : State) :
    Appends s (writeNibble rs n s) 8 (writeTime s.cfg) :=
  ⟨_, writeNibble_trace rs n s, rfl, writeNibbleTrace_time _ _ _⟩

theorem readNibble_appends (rs : RegSel) (s : State) : Appends s (readNibble rs s).2 7 (readTime s.cfg) :=
  ⟨_, readNibble_trace rs s, rfl, readNibbleTrace_time _ _ _⟩

theorem writeByte_appends (rs : RegSel) (b : Byte) (s : State) :
    Appends s (writeByte rs b s) 16 (2 * writeTime s.cfg) :=
  ⟨_, writeByte_trace rs b s, writeByteTrace_length _ _ _, writeByteTrace_time _ _ _⟩

theorem readByte_appends (rs : RegSel) (s : State) : Appends s (readByte rs s).2 14 (2 * readTime s.cfg) :=
  ⟨_, readByte_trace rs s, readByteTrace_length _ _ _, readByteTrace_time _ _ _⟩

/-- A byte sent after a wait of `q` status reads (R351). -/
theorem waited_appends (rs : RegSel) (b : Byte) {q : Nat} {timedOut : Bool} (hrun : WaitRun s q timedOut) :
    Appends s (writeByte rs b (waitReady s).2) (waitEvents s.cfg q timedOut + 16)
      (waitTime s.cfg q + 2 * writeTime s.cfg) :=
  waited_cost rs b hrun

/-- Settles O19: each transfer by its events, each command as the wait and the byte it sends. -/
theorem eventsAndDurations : Obligations.EventsAndDurations := by
  intro s hr
  obtain ⟨q, hrun, htrace, -, -⟩ := waitReady_spec s
  have hwait : Appends s (waitReady s).2 _ _ := ⟨_, htrace, waitTrace_cost s q _⟩
  have hsent (b : Byte) := waited_appends .cmd b hrun
  exact ⟨fun rs n => (writeNibble_appends rs n s).costs (exec_wrNib_up hr rs n) rfl,
    fun rs => (readNibble_appends rs s).costs (exec_rdNib_up hr rs) rfl,
    fun rs b => (writeByte_appends rs b s).costs (exec_wrByte_up hr rs b) rfl,
    fun rs => (readByte_appends rs s).costs (exec_rdByte_up hr rs) rfl,
    q, _, hrun, hwait.costs (exec_waitReady_up hr) rfl,
    fun lines font => (hsent _).costs (exec_functionSet_up hr lines font) rfl,
    fun d c b => (hsent (displayControlByte d c b)).costs (exec_displayControl_up hr d c b) rfl,
    (hsent clearByte).costs (exec_clear_up hr) rfl, (hsent homeByte).costs (exec_home_up hr) rfl,
    fun dir shift => (hsent _).costs (exec_entryMode_up hr dir shift) rfl,
    fun a => (hsent (setAddressByte a)).costs (exec_setAddress_up hr a) rfl⟩

/-! #### Characters (R198) -/

/-- At the end of a row `advance` is a command (R192). -/
theorem advance_appends (hg : s.cfg.GeometryOk) (h : CursorWindowed s)
    (hcol : colOf s.cfg s.cursor.toNat + 1 = s.cfg.lineLen) {q : Nat} {timedOut : Bool} (hrun : WaitRun s q timedOut) :
    Appends s (advance s) (waitEvents s.cfg q timedOut + 16) (waitTime s.cfg q + 2 * writeTime s.cfg) := by
  obtain ⟨l, hl, hw⟩ := h
  have hx := colOf_of_window hg hl hw
  rw [advance_boundary hg hl (by omega)]
  exact waited_appends .cmd _ hrun

/-- WAIT_READY and WR_BYTE end in the state that `put_char`'s `advance` starts from, answered (R198). -/
theorem execAll_wait_then_wrByte_data (hr : s.life = .ready) (b : Byte) :
    ∃ u, execAll [.waitReady, .wrByte .data b] s = .next u ∧ u.cfg = s.cfg ∧ u.cursor = s.cursor ∧
      u.trace = (writeByte .data b (waitReady s).2).trace ∧ (putChar b s).trace = (advance u).trace := by
  have hr' : (respond .ok (timeoutValue (waitReady s).1) (waitReady s).2).life = .ready := by simpa using hr
  refine ⟨respond .ok 0 (writeByte .data b (waitReady s).2), ?_, character_cfg b s, character_cursor b s, rfl, ?_⟩
  · rw [execAll_cons (exec_waitReady_up hr), execAll_cons (exec_wrByte_up hr' .data b), writeByte_respond]
    rfl
  · rw [advance_respond]
    rfl

/-! #### The power-on sequence with an LCD that is always ready (R172) -/

theorem handshakeTrace_time (c : Config) : minDuration c (handshakeTrace c) =
    c.dPwr + c.dInit1 + c.dInit2 + 2 * c.dInit3 + 4 * writeTime c := by
  simp only [handshakeTrace, minDuration_append, writeNibbleTrace_time, minDuration, Config.duration]
  omega

theorem commandTrace_time (c : Config) (status : Word × Word) (b : Byte) :
    minDuration c (commandTrace c status b) = 2 * readTime c + 2 * writeTime c := by
  rw [commandTrace, minDuration_append, readByteTrace_time, writeByteTrace_time]

/-- The handshake's four nibbles and waits, then five commands of one status read each. For every `FS_LINES`, where
`powerOnSequence_readyRun` names FUNCTION_SET's byte and so asks for 1 or 2. -/
theorem powerOnSequence_appends (hready : ReadyFor s 5) : Appends s (powerOnSequence (acquire s)) 188
    (s.cfg.dPwr + s.cfg.dInit1 + s.cfg.dInit2 + 2 * s.cfg.dInit3 + 14 * writeTime s.cfg + 10 * readTime s.cfg) := by
  have h₀ := handshake_readyRun s
  have h₁ := h₀.command (hready 0 (by decide)) (functionSetByte s.cfg.fsLines s.cfg.fsFont)
  have h₂ := h₁.displayControl (hready 1 (by decide)) false false false
  have h₃ := (h₂.command (hready 2 (by decide)) clearByte).setCursor 0x00
  have h₄ := h₃.command (hready 3 (by decide)) (entryModeByte true false)
  have h₅ := h₄.displayControl (hready 4 (by decide)) true false false
  rw [powerOnSequence, acquire_cfg]
  refine ⟨_, h₅.trace, ?_, ?_⟩
  · simp only [List.length_append, handshakeTrace_length, commandTrace_length]
  · simp only [minDuration_append, handshakeTrace_time, commandTrace_time]
    omega

/-- Settles O57: a character is its byte sent, and at a row's end an address after it; without a splash STARTUP is the
power-on sequence. -/
theorem characterAndStartupCosts : Obligations.CharacterAndStartupCosts := by
  refine ⟨fun s b hr hg h => ?_, fun s hd ho hsplash hready => ?_⟩
  · obtain ⟨q, hrun, -⟩ := waitReady_spec s
    have hsent := waited_appends .data b hrun
    refine ⟨q, _, hrun, fun hcol => hsent.costs (exec_putChar_up hr b) ?_, fun hcol => ?_⟩
    · rw [putChar_inside hg h hcol]
      rfl
    · obtain ⟨u, hexec, hcfg, hcursor, htrace, hadvance⟩ := execAll_wait_then_wrByte_data hr b
      obtain ⟨q', hrun', -⟩ := waitReady_spec u
      have haddress := advance_appends (hcfg ▸ hg) (by rwa [CursorWindowed, hcfg, hcursor])
        (by rwa [hcfg, hcursor]) hrun'
      rw [hcfg] at haddress
      exact ⟨u, q', _, hexec, hrun',
        ((hsent.congr htrace).trans haddress hcfg).costs (exec_putChar_up hr b) hadvance⟩
  · refine (powerOnSequence_appends hready).costs (exec_startup_down hd ho) ?_
    rw [startUp_eq_putChars, hsplash, List.take_nil]
    rfl

end Sys2Proof.Machine
